-- ==== Sys2Proof/Word.lean ====
section
/-! DEFINITION. The two word types of the hardware: a byte of memory and a 32-bit machine word
(`00_scope.md` R8: `WORD_BITS` = 32, addresses are 32 bits and name bytes). -/

namespace Sys2Proof

/-- One byte of the address space. -/
abbrev Byte := BitVec 8

/-- One 32-bit register, descriptor word or byte address (R8, R21). -/
abbrev Word := BitVec 32

end Sys2Proof
end

