-- ==== Sys2Proof/Syntax.lean ====
section
/-! DEFINITION. The instructions of the machine (`30_encoding.md` R100, `opcode_table.json`) and the
steps its agents can be asked to take (`00_scope.md` R13): the words a model of this hardware is written in. -/

namespace Sys2Proof

/-- The element size of a transfer, `SIZE` of the control word (R108): 1, 2 or 4 bytes. -/
inductive ElemSize where
  | byte
  | half
  | word
  deriving DecidableEq, Repr, Inhabited

/-- The three instruction formats (R100): a host command word, a descriptor of two words, a
descriptor of four. -/
inductive Format where
  | H
  | S
  | L
  deriving DecidableEq, Repr

/-- One constructor for each row of the opcode table. A control word is held as the element size it
stands for, since `CTRL_STD` of a size is the only legal word of that size (R108). -/
inductive Instr where
  /-- `CONSTRUCT` (R180): the operands are in `ARG_WIDTH`, `ARG_HEIGHT`, `ARG_DEPTH`. -/
  | construct
  /-- `START` (R200). -/
  | start
  /-- `STOP` (R203). -/
  | stop
  /-- `RELOAD` (R205). -/
  | reload
  /-- `TIMING` (R135): the operand is in `ARG_MODE`. -/
  | timing
  /-- `ENCCALC` (R160): the operands are in `ARG_DEPTH`, `ARG_HSCALE`. -/
  | enccalc
  /-- `XFER.S` (R227). -/
  | xferS (len raddr : Word)
  /-- `TERM.S` (R230). -/
  | termS (raddr : Word)
  /-- `XFER.L` (R229). -/
  | xferL (size : ElemSize) (waddr len raddr : Word)
  /-- `TERM.L` (R231). -/
  | termL (size : ElemSize) (waddr raddr : Word)
  deriving DecidableEq, Repr

/-- One access of the HOST agent (R21, R23, R40). -/
inductive HostAccess where
  | read  (size : ElemSize) (addr : Word)
  | write (size : ElemSize) (addr value : Word)
  deriving DecidableEq, Repr, Inhabited

/-- One step of one agent (R13, R80). An execution is a list of them: which agent moves next, and, for
the two agents outside the block, what it does. ENV's answers stand apart (R181, R182). -/
inductive Event where
  /-- a step of the host: one register access, a command among them -/
  | host (access : HostAccess)
  /-- a step of the command channel (R223) -/
  | cmd
  /-- a step of the pixel channel (R228) -/
  | pix
  /-- a step of the frame-boundary handler: its entry (R233) or its body (R234) -/
  | fbh
  /-- a step of the content producer (R78) -/
  | producer (size : ElemSize) (addr value : Word)
  deriving DecidableEq, Repr, Inhabited

end Sys2Proof
end

