-- ==== Sys2Proof/WellFormed.lean ====
section
/-! DEFINITION. When an instruction is well formed: its operands are ones its encoding can hold (R107), and
when a descriptor is one the hardware accepts (R111). -/

namespace Sys2Proof

/-- The encodable instructions. The two transfer descriptors carry a length of at least 1: a length word
of zero is the terminal descriptor (R107). Every other operand is a whole word and takes every value (R110). -/
def Instr.wf : Instr → Bool
  | .construct | .start | .stop | .reload | .timing | .enccalc => true
  | .xferS len _ => len != 0#32
  | .termS _ => true
  | .xferL _ _ len _ => len != 0#32
  | .termL _ _ _ => true

/-- `raddr mod size_bytes(SIZE) = 0`, the alignment test of R111 (c). -/
def alignedFor (size : ElemSize) (raddr : Word) : Bool :=
  match size with
  | .byte => true
  | .half => raddr.toNat % 2 == 0
  | .word => raddr.toNat % 4 == 0

/-- The descriptors that pass every test of R111, given the address of the queue port. Of a terminal
descriptor the destination is checked and the source is not. The commands carry no descriptor. -/
def Instr.legal (encqAddr : Word) : Instr → Bool
  | .construct | .start | .stop | .reload | .timing | .enccalc => true
  | .xferS len raddr => len != 0#32 && alignedFor .word raddr
  | .termS _ => true
  | .xferL size waddr len raddr => len != 0#32 && waddr == encqAddr && alignedFor size raddr
  | .termL _ waddr _ => waddr == encqAddr

end Sys2Proof
end

