-- ==== Sys2Proof/Decode.lean ====
section
/-! DEFINITION. The decoder, total on any bytes and rejecting by name, and after it the encoder, both written from
`30_encoding.md`: format H (R101, R102), format S (R104), format L (R105), format C (R108). -/

namespace Sys2Proof

/-! ### Bytes and words -/

/-- The word whose bytes, from the lowest address on, are `b0 b1 b2 b3`: little-endian (R71). -/
def wordOfBytes (b0 b1 b2 b3 : Byte) : Word :=
  b3 ++ b2 ++ b1 ++ b0

/-- The four bytes of a word, the one at the lowest address first: little-endian (R71). -/
def bytesOfWord (w : Word) : List Byte :=
  [w.extractLsb' 0 8, w.extractLsb' 8 8, w.extractLsb' 16 8, w.extractLsb' 24 8]

/-! ### Format C, the control word -/

/-- `size_bytes` (R108). -/
def ElemSize.bytes : ElemSize → Nat
  | .byte => 1
  | .half => 2
  | .word => 4

/-- `CTRL_STD` (R108): `0xD3`, `0xD7`, `0xDB`. -/
def ctrlStd : ElemSize → Word
  | .byte => 0x000000D3#32
  | .half => 0x000000D7#32
  | .word => 0x000000DB#32

/-- The element size of a legal control word; every other word is illegal (R108, R111). -/
def ctrlSize (w : Word) : Option ElemSize :=
  if w = 0x000000D3#32 then some .byte
  else if w = 0x000000D7#32 then some .half
  else if w = 0x000000DB#32 then some .word
  else none

/-- The `SIZE` field of a control word, bits 3:2; 3 is reserved (R108). -/
def sizeField (w : Word) : Option ElemSize :=
  match (w.extractLsb' 2 2).toNat with
  | 0 => some .byte
  | 1 => some .half
  | 2 => some .word
  | _ => none

/-! ### The decoder -/

/-- Why bytes are no instruction. -/
inductive DecodeReject where
  /-- a reserved command word (R102): the machine answers it with `ILLEGAL_CMD` -/
  | reservedCommand (word : Word)
  /-- an illegal control word in a format L descriptor (R111 a): the machine answers it with `BAD_DESC` -/
  | illegalControl (word : Word)
  /-- fewer bytes than the format has -/
  | truncated
  deriving DecidableEq, Repr

/-- Format H (R101, R102): the opcode is bits 7:0 and bits 31:8 are zero. -/
def decodeH (c : Word) : Except DecodeReject Instr :=
  if c.extractLsb' 8 24 ≠ 0#24 then .error (.reservedCommand c)
  else
    match (c.extractLsb' 0 8).toNat with
    | 0x01 => .ok .construct
    | 0x02 => .ok .start
    | 0x03 => .ok .stop
    | 0x04 => .ok .reload
    | 0x05 => .ok .timing
    | 0x06 => .ok .enccalc
    | _    => .error (.reservedCommand c)

/-- Format S (R104, R107): `LEN` alone tells a transfer from the terminal. -/
def decodeS (w0 w1 : Word) : Instr :=
  if w0 = 0#32 then .termS w1 else .xferS w0 w1

/-- Format L (R105, R107), with the control word of format C (R108). -/
def decodeL (w0 w1 w2 w3 : Word) : Except DecodeReject Instr :=
  match ctrlSize w0 with
  | none => .error (.illegalControl w0)
  | some size => .ok (if w2 = 0#32 then .termL size w1 w3 else .xferL size w1 w2 w3)

/-- The instruction at the head of a byte string, and the bytes after it. The format is an input: it is not in the
words (R106). -/
def decode : Format → List Byte → Except DecodeReject (Instr × List Byte)
  | .H, a0 :: a1 :: a2 :: a3 :: rest =>
    (decodeH (wordOfBytes a0 a1 a2 a3)).map (·, rest)
  | .S, a0 :: a1 :: a2 :: a3 :: b0 :: b1 :: b2 :: b3 :: rest =>
    .ok (decodeS (wordOfBytes a0 a1 a2 a3) (wordOfBytes b0 b1 b2 b3), rest)
  | .L, a0 :: a1 :: a2 :: a3 :: b0 :: b1 :: b2 :: b3 ::
        c0 :: c1 :: c2 :: c3 :: d0 :: d1 :: d2 :: d3 :: rest =>
    (decodeL (wordOfBytes a0 a1 a2 a3) (wordOfBytes b0 b1 b2 b3)
      (wordOfBytes c0 c1 c2 c3) (wordOfBytes d0 d1 d2 d3)).map (·, rest)
  | _, _ => .error .truncated

/-! ### The encoder -/

/-- The format of an instruction (R101, R104, R105). -/
def Instr.format : Instr → Format
  | .construct | .start | .stop | .reload | .timing | .enccalc => .H
  | .xferS _ _ | .termS _ => .S
  | .xferL _ _ _ _ | .termL _ _ _ => .L

/-- The words of an instruction, W0 first. -/
def encodeWords : Instr → List Word
  | .construct => [0x00000001#32]
  | .start     => [0x00000002#32]
  | .stop      => [0x00000003#32]
  | .reload    => [0x00000004#32]
  | .timing    => [0x00000005#32]
  | .enccalc   => [0x00000006#32]
  | .xferS len raddr => [len, raddr]
  | .termS raddr => [0#32, raddr]
  | .xferL size waddr len raddr => [ctrlStd size, waddr, len, raddr]
  | .termL size waddr raddr => [ctrlStd size, waddr, 0#32, raddr]

/-- The bytes of an instruction in address order, each word little-endian (R71). -/
def encode (i : Instr) : List Byte :=
  (encodeWords i).flatMap bytesOfWord

/-! ### The opcode table's numbering -/

/-- The `n` low bytes of a number, the least significant first. -/
def bytesOfNat : Nat → Nat → List Byte
  | 0, _ => []
  | n + 1, w => BitVec.ofNat 8 w :: bytesOfNat n (w / 256)

/-- The format of a table row from its width in bits (`opcode_table.json`: 32, 64 or 128). -/
def formatOfBits (nbits : Nat) : Option Format :=
  if nbits = 32 then some .H
  else if nbits = 64 then some .S
  else if nbits = 128 then some .L
  else none

/-- The instruction the decoder reads from a row's bits, numbered with bit 0 the least significant bit of the first
word. Word `j` is bits `32 j + 31 .. 32 j` and is stored little-endian, so byte `k` is bits `8 k + 7 .. 8 k`. -/
def decodeTableWord (nbits w : Nat) : Option Instr :=
  match formatOfBits nbits with
  | none => none
  | some f =>
    match decode f (bytesOfNat (nbits / 8) w) with
    | .ok (i, _) => some i
    | .error _ => none

end Sys2Proof
end

