-- ==== Sys2Proof/Config.lean ====
section
/-! DEFINITION. What an implementation fixes (`00_scope.md` R8, R9; `10_state.md` R54) and the free values, which
the spec leaves open. A configuration is plain data that every state carries and no step changes (log 1), so
a statement about every state speaks of every configuration. -/

namespace Sys2Proof

/-- The timing record of one mode (R130). `v_total` is not a field: it is derived (R132). -/
structure Timing where
  hFrontPorch : Nat
  hSyncWidth  : Nat
  hBackPorch  : Nat
  hActive     : Nat
  vFrontPorch : Nat
  vSyncWidth  : Nat
  vBackPorch  : Nat
  vActive     : Nat
  deriving DecidableEq, Repr

/-- The sync polarity of one mode (R140): `true` when the asserted level is 1. -/
structure Polarity where
  hsync : Bool
  vsync : Bool
  deriving DecidableEq, Repr

/-- One encoder lane: its width in bits and its rotation, the two five-bit fields of R35. -/
structure Lane where
  width : BitVec 5
  rot   : BitVec 5
  deriving DecidableEq, Repr

/-- The three lanes of one depth (R151: `NLANES` = 3). -/
structure Expansion where
  l0 : Lane
  l1 : Lane
  l2 : Lane
  deriving DecidableEq, Repr

/-- The parameters of R8 that are OPEN. -/
structure Config where
  /-- `TT(0)`, the narrower mode -/
  tt0 : Timing
  /-- `TT(1)`, the wider mode -/
  tt1 : Timing
  /-- `POL(0)` -/
  pol0 : Polarity
  /-- `POL(1)` -/
  pol1 : Polarity
  /-- `EXPAND_TABLE(4)` (R153) -/
  expand4 : Expansion
  /-- `EXPAND_TABLE(8)` -/
  expand8 : Expansion
  /-- `EXPAND_TABLE(16)` -/
  expand16 : Expansion
  /-- `EXPAND_TABLE(32)` -/
  expand32 : Expansion
  /-- `VTG_BASE` -/
  vtgBase : Nat
  /-- `MEM_BASE` -/
  memBase : Nat
  /-- `MEM_SIZE` -/
  memSize : Nat
  deriving DecidableEq, Repr

/-- `v_total`, "total line count (derived)" (R9, R132). -/
def Timing.vTotal (t : Timing) : Nat :=
  t.vFrontPorch + t.vSyncWidth + t.vBackPorch + t.vActive

/-- The constraints of R9 on one mode's record. -/
structure Timing.Admissible (t : Timing) : Prop where
  hActivePos : 1 ≤ t.hActive
  vActivePos : 1 ≤ t.vActive
  hFrontPorchFits : t.hFrontPorch < 65536
  hSyncWidthFits : t.hSyncWidth < 65536
  hRestFits : t.hBackPorch + t.hActive < 65536
  vTotalFits : t.vTotal < 65536

/-- `EXPAND_TABLE` gives every lane a width in 1..31 (R153); the range of a rotation is its field's. -/
structure Expansion.Admissible (e : Expansion) : Prop where
  width0 : e.l0.width ≠ 0#5
  width1 : e.l1.width ≠ 0#5
  width2 : e.l2.width ≠ 0#5

/-- The admissible configurations: the fixed active sizes, R9, the ranges of `EXPAND_TABLE`, and the address
map of R8. -/
structure Config.Admissible (c : Config) : Prop where
  hActive0 : c.tt0.hActive = 640
  vActive0 : c.tt0.vActive = 480
  hActive1 : c.tt1.hActive = 720
  vActive1 : c.tt1.vActive = 400
  timing0 : c.tt0.Admissible
  timing1 : c.tt1.Admissible
  lanes4 : c.expand4.Admissible
  lanes8 : c.expand8.Admissible
  lanes16 : c.expand16.Admissible
  lanes32 : c.expand32.Admissible
  vtgAligned : c.vtgBase % 4096 = 0
  vtgFits : c.vtgBase + 4096 ≤ 2 ^ 32
  memBaseAligned : c.memBase % 4 = 0
  memSizeAligned : c.memSize % 4 = 0
  memFits : c.memBase + c.memSize ≤ 2 ^ 32
  disjoint : c.memBase + c.memSize ≤ c.vtgBase ∨ c.vtgBase + 4096 ≤ c.memBase

/-! ### Free values

Constants with no body: nothing can be proved of their values. Each is applied to what it may depend on. -/

/-- The agent step taken when the list of events is used up: every interleaving (R80, U15; log 2). -/
opaque Config.freeEvent : Nat → Event

/-- ENV's answer to an allocation request when the list of answers is used up (R181, U12; log 3). -/
opaque Config.freeAlloc : Nat → Option Word

/-- ENV's answer to a channel claim when the list of answers is used up (R182, U13; log 3). -/
opaque Config.freeClaim : Nat → Option (BitVec 4 × BitVec 4)

/-- The open numbers of the two timing records, before they are brought into R9's bounds (U16; log 1). -/
opaque Config.freeTiming : Nat → Nat

/-- The open polarities (U16; log 1). -/
opaque Config.freePolarity : Nat → Bool

/-- The open numbers of the expansion table, before they are brought into R153's ranges (U17; log 1). -/
opaque Config.freeLane : Nat → Nat

/-- A record with the given active sizes and six free numbers, from index `k` on, inside R9's bounds. Every
admissible record with these active sizes is one of them. -/
def Timing.free (k hActive vActive : Nat) : Timing :=
  let vfp := Config.freeTiming (k + 3) % (65536 - vActive)
  let vsw := Config.freeTiming (k + 4) % (65536 - vActive - vfp)
  let vbp := Config.freeTiming (k + 5) % (65536 - vActive - vfp - vsw)
  { hFrontPorch := Config.freeTiming k % 65536
    hSyncWidth  := Config.freeTiming (k + 1) % 65536
    hBackPorch  := Config.freeTiming (k + 2) % (65536 - hActive)
    hActive     := hActive
    vFrontPorch := vfp
    vSyncWidth  := vsw
    vBackPorch  := vbp
    vActive     := vActive }

/-- Three lanes of free widths in 1..31 and free rotations in 0..31 (R153). -/
def Expansion.free (k : Nat) : Expansion :=
  let lane (j : Nat) : Lane :=
    { width := BitVec.ofNat 5 (1 + Config.freeLane (k + 2 * j) % 31)
      rot   := BitVec.ofNat 5 (Config.freeLane (k + 2 * j + 1) % 32) }
  { l0 := lane 0, l1 := lane 1, l2 := lane 2 }

/-- The configuration that `State.reset` carries: the timing numbers, the polarities and the expansion table are
free values, and the three address parameters are a DESIGN CHOICE (log 1). -/
def Config.reset : Config :=
  { tt0 := Timing.free 0 640 480
    tt1 := Timing.free 6 720 400
    pol0 := { hsync := Config.freePolarity 0, vsync := Config.freePolarity 1 }
    pol1 := { hsync := Config.freePolarity 2, vsync := Config.freePolarity 3 }
    expand4  := Expansion.free 0
    expand8  := Expansion.free 6
    expand16 := Expansion.free 12
    expand32 := Expansion.free 18
    vtgBase := 0x40000000
    memBase := 0x20000000
    memSize := 0x00200000 }

end Sys2Proof
end

