-- ==== Sys2Proof/Machine/State.lean ====
section
/-! DEFINITION. The state of the machine as plain data (`10_state.md` R20): the register file of R22 in groups, RAM,
the environment's bookkeeping (R51), the encoder queue history (R52); then what comes from outside the machine
(the model's own fields); then the reasons a step can stop, and the state after reset (R60, R280). -/

namespace Sys2Proof.Machine

/-! ### One-bit and small fields -/

/-- `STATUS.SES_STATE` (R24, R55): 0, 1, 2. -/
inductive SesState where
  | none
  | built
  | running
  deriving DecidableEq, Repr

/-- `STATUS.ERR` (R24, R250): 0 to 4. -/
inductive ErrCode where
  | ok
  | resourceExhausted
  | channelUnavailable
  | sessionConflict
  | configurationError
  deriving DecidableEq, Repr

/-- The named bits of `FAULT` (R25, R257), bit 0 first. -/
inductive FaultBit where
  | illegalCmd
  | badState
  | pixOverwrite
  | badDesc
  | busError
  | badAccess
  deriving DecidableEq, Repr

/-- `FAULT` (R25): six sticky bits; bits 31:6 are reserved and read 0. -/
structure FaultBits where
  illegalCmd   : Bool
  badState     : Bool
  pixOverwrite : Bool
  badDesc      : Bool
  busError     : Bool
  badAccess    : Bool
  deriving DecidableEq, Repr

/-- `IRQ_STAT.FBH_STATE` (R36): 0 armed, 1 reloading. -/
inductive FbhState where
  | armed
  | reloading
  deriving DecidableEq, Repr

/-! ### Register groups -/

/-- `ARG_WIDTH`, `ARG_HEIGHT`, `ARG_DEPTH`, `ARG_MODE`, `ARG_HSCALE` (R26). -/
structure Args where
  width  : Word
  height : Word
  depth  : Word
  mode   : Word
  hscale : Word
  deriving DecidableEq, Repr

/-- The session registers (R27): `SES_MODE` to `CH_IDS`, in the order of the map. -/
structure Session where
  mode      : Word
  width     : Word
  height    : Word
  depth     : Word
  pitch     : Word
  hscale    : Word
  vscale    : Word
  fbBase    : Word
  fbWords   : Word
  progBase  : Word
  progWords : Word
  descw     : Word
  chIds     : Word
  deriving DecidableEq, Repr

/-- The timing query registers `TQ_*` (R28). -/
structure TimingQuery where
  hFrontPorch : Word
  hSyncWidth  : Word
  hBackPorch  : Word
  hActive     : Word
  vFrontPorch : Word
  vSyncWidth  : Word
  vBackPorch  : Word
  vActive     : Word
  vTotal      : Word
  pol         : Word
  deriving DecidableEq, Repr

/-- The calculator's result registers `EQ_*` (R29). -/
structure EncQuery where
  expand : Word
  shift  : Word
  bswap  : Bool
  deriving DecidableEq, Repr

/-- The encoder's configuration registers (R35): `ENC_EXPAND`, `ENC_SHIFT` and the two bits of `ENC_CTRL`. -/
structure Encoder where
  expand : Word
  shift  : Word
  en     : Bool
  bswap  : Bool
  deriving DecidableEq, Repr

/-- The command channel (R32, R33, R34): `CMDCH_CTRL`, `CMDCH_RPTR` (the program counter), `CMDCH_STAT.TRIG`. -/
structure CmdChannel where
  ctrl : Word
  rptr : Word
  trig : Bool
  deriving DecidableEq, Repr

/-- The pixel channel (R30, R31): `x[0]` to `x[3]` and `PIX_STAT.BUSY`. -/
structure PixChannel where
  ctrl  : Word
  waddr : Word
  len   : Word
  raddr : Word
  busy  : Bool
  deriving DecidableEq, Repr

/-- `IRQ_STAT` (R36). -/
structure Irq where
  pending   : Bool
  enable    : Bool
  fbh       : FbhState
  activeRef : Bool
  deriving DecidableEq, Repr

/-! ### Memory and histories -/

/-- RAM as address and byte pairs in one canonical form (`Memory.wf`, `Machine/Ops.lean`): addresses strictly
rising, and no entry equal to what an unlisted address reads as. -/
abbrev Memory := List Host.Cell

/-- An allocated RAM region: byte address and length in words (R51). -/
structure Region where
  base  : Nat
  words : Nat
  deriving DecidableEq, Repr

/-- An environment event (R51). -/
inductive EnvEvent where
  | alloc (base words : Nat)
  | allocFail (words : Nat)
  | free (base : Nat)
  | claim (a b : BitVec 4)
  | claimFail
  | unclaim (a b : BitVec 4)
  deriving DecidableEq, Repr

/-- One record of the encoder queue history (R52): element size and value, `value < 2^(8 size)`. -/
structure EncRecord where
  size  : ElemSize
  value : Nat
  deriving DecidableEq, Repr

/-! ### The state -/

/-- The machine's state. Fields up to `envlog` are the spec's; `cfg` is the configuration (R54), which no step
changes; the last five are the model's own and carry what comes from outside (log 2, log 3, log 6). -/
structure State where
  /-- the configuration (R8, R54) -/
  cfg : Config
  /-- `STATUS.SES_STATE` -/
  sesState : SesState
  /-- `STATUS.ERR` -/
  err : ErrCode
  /-- `FAULT` -/
  faults : FaultBits
  /-- `ARG_*` -/
  args : Args
  /-- `SES_*`, `FB_*`, `PROG_*`, `CH_IDS` -/
  ses : Session
  /-- `TQ_*` -/
  tq : TimingQuery
  /-- `EQ_*` -/
  eq : EncQuery
  /-- `ENC_*` -/
  enc : Encoder
  /-- `CMDCH_*` -/
  cmd : CmdChannel
  /-- `PIX_*` -/
  pix : PixChannel
  /-- `IRQ_STAT` -/
  irq : Irq
  /-- RAM -/
  ram : Memory
  /-- the encoder queue history, oldest first (R52) -/
  encq : List EncRecord
  /-- the allocated regions, in the order of their allocation (R51) -/
  live : List Region
  /-- the environment's log, oldest first (R51) -/
  envlog : List EnvEvent
  /-- the agent steps still to be taken, next first (R80; log 2) -/
  events : List Event
  /-- ENV's next answers to allocation requests (R181; log 3) -/
  allocs : List (Option Word)
  /-- ENV's next answers to channel claims (R182; log 3) -/
  claims : List (Option (BitVec 4 × BitVec 4))
  /-- how many free values have been drawn (log 2, log 3) -/
  drawn : Nat
  /-- what the last HOST read returned (R21, R40; log 6) -/
  readData : Word
  deriving DecidableEq, Repr

/-! ### How a step can stop -/

/-- The machine stops. -/
inductive Fault where
  /-- A step from a state whose `FAULT` register is not 0: "what the machine does afterwards is not specified" (R257).
  Raised by `step` alone, with the lowest bit that is set. Safe: nothing is claimed of what follows (log 5). -/
  | latched (cause : FaultBit)
  /-- A HOST access to an address in neither RAM nor the register space, which R70 calls unmapped. Raised by the
  HOST step. Safe (log 7). -/
  | hostUnmapped
  /-- A misaligned HOST read of RAM: R77 calls every misaligned access a fault and names no bit for this one. Raised
  by the HOST step. Safe (log 7). -/
  | hostMisaligned
  deriving DecidableEq, Repr

/-- The model has no such step. -/
inductive Refusal where
  /-- An instruction with no meaning yet; raised by the arms of `exec` alone. Safe. -/
  | notModelled (mnemonic : String)
  /-- A HOST write to RAM: "The model has no step that performs such a write" (R289, R76). Raised by the HOST step.
  Safe (log 7). -/
  | hostRamWrite
  /-- A HOST read of RAM outside the session's two regions: "not modelled" (R74). Raised by the HOST step. Safe (log 7). -/
  | hostRamRead
  /-- A PRODUCER write that is misaligned or outside the framebuffer region: the PRODUCER step is confined to it (R78,
  U24). Raised by the PRODUCER step. Safe (log 7). -/
  | producerWrite
  /-- A CMD step with `SES_DESCW` neither 2 nor 4; no run reaches one (R27, R106). Raised by the CMD step. Safe (log 9). -/
  | descriptorWidth
  /-- A PIX step with `SIZE` = 3 in `PIX_CTRL`, which R108 reserves; no run reaches one. Raised by the PIX step. Safe (log 9). -/
  | elementSize
  /-- A PIX step with `PIX_LEN` = 0; "`x[2] >= 1` whenever `BUSY = 1`" (R228), so no run reaches one. Raised by the PIX step.
  Safe (log 9). -/
  | emptyTransfer
  deriving DecidableEq, Repr

/-! ### Reset -/

/-- No fault bit set. -/
def FaultBits.clear : FaultBits :=
  { illegalCmd := false, badState := false, pixOverwrite := false, badDesc := false, busError := false,
    badAccess := false }

/-- All operand latches 0. -/
def Args.zero : Args :=
  { width := 0, height := 0, depth := 0, mode := 0, hscale := 0 }

/-- All session registers 0, as they are when no session exists (R27). -/
def Session.zero : Session :=
  { mode := 0, width := 0, height := 0, depth := 0, pitch := 0, hscale := 0, vscale := 0, fbBase := 0,
    fbWords := 0, progBase := 0, progWords := 0, descw := 0, chIds := 0 }

/-- All `TQ_*` registers 0. -/
def TimingQuery.zero : TimingQuery :=
  { hFrontPorch := 0, hSyncWidth := 0, hBackPorch := 0, hActive := 0, vFrontPorch := 0, vSyncWidth := 0,
    vBackPorch := 0, vActive := 0, vTotal := 0, pol := 0 }

/-- All `EQ_*` registers 0. -/
def EncQuery.zero : EncQuery :=
  { expand := 0, shift := 0, bswap := false }

/-- The encoder disabled, its registers 0. -/
def Encoder.zero : Encoder :=
  { expand := 0, shift := 0, en := false, bswap := false }

/-- The command channel disabled, no trigger. -/
def CmdChannel.zero : CmdChannel :=
  { ctrl := 0, rptr := 0, trig := false }

/-- The pixel channel's registers 0, no transfer in flight. -/
def PixChannel.zero : PixChannel :=
  { ctrl := 0, waddr := 0, len := 0, raddr := 0, busy := false }

/-- No interrupt pending, interrupt disabled, handler armed, no session reference. -/
def Irq.zero : Irq :=
  { pending := false, enable := false, fbh := .armed, activeRef := false }

/-- The state after reset of a machine with configuration `c` and RAM contents `ram` (R60, R280): every register 0, the
histories empty, and the model's own fields empty (log 2, log 3, log 6). RAM may hold any bytes (R60, U14). -/
def State.resetWith (c : Config) (ram : Memory) : State :=
  { cfg := c
    sesState := .none
    err := .ok
    faults := FaultBits.clear
    args := Args.zero
    ses := Session.zero
    tq := TimingQuery.zero
    eq := EncQuery.zero
    enc := Encoder.zero
    cmd := CmdChannel.zero
    pix := PixChannel.zero
    irq := Irq.zero
    ram := ram
    encq := []
    live := []
    envlog := []
    events := []
    allocs := []
    claims := []
    drawn := 0
    readData := 0 }

/-- The machine right after reset: `resetWith` at the configuration of log 1, with nothing listed in RAM (log 4). -/
def State.reset : State :=
  State.resetWith Config.reset []

end Sys2Proof.Machine
end

