-- ==== Sys2Proof/Machine/Flags.lean ====
section
/-! DEFINITION. The flags (`10_state.md` R24, R25, R31, R34, R35, R36, R41): the sticky `FAULT` bits and the word each
flag register reads as. There are no arithmetic condition codes (R41). -/

namespace Sys2Proof.Machine

/-- Bit `k` of a flag register. -/
def flagBit (b : Bool) (k : Nat) : Word :=
  if b then BitVec.ofNat 32 (2 ^ k) else 0#32

/-! ### FAULT -/

/-- A bit of `FAULT`. -/
def FaultBits.get (f : FaultBits) : FaultBit → Bool
  | .illegalCmd => f.illegalCmd
  | .badState => f.badState
  | .pixOverwrite => f.pixOverwrite
  | .badDesc => f.badDesc
  | .busError => f.busError
  | .badAccess => f.badAccess

/-- Setting a bit of `FAULT`; the others stay: the bits are sticky (R25). -/
def FaultBits.set (f : FaultBits) : FaultBit → FaultBits
  | .illegalCmd => { f with illegalCmd := true }
  | .badState => { f with badState := true }
  | .pixOverwrite => { f with pixOverwrite := true }
  | .badDesc => { f with badDesc := true }
  | .busError => { f with busError := true }
  | .badAccess => { f with badAccess := true }

/-- The lowest bit of `FAULT` that is set, if any: the outcome of a step from a state with `FAULT` not 0 (R257). -/
def FaultBits.lowest (f : FaultBits) : Option FaultBit :=
  if f.illegalCmd then some .illegalCmd
  else if f.badState then some .badState
  else if f.pixOverwrite then some .pixOverwrite
  else if f.badDesc then some .badDesc
  else if f.busError then some .busError
  else if f.badAccess then some .badAccess
  else none

/-- `FAULT` as a word (R25). -/
def FaultBits.toWord (f : FaultBits) : Word :=
  flagBit f.illegalCmd 0 ||| flagBit f.badState 1 ||| flagBit f.pixOverwrite 2 |||
    flagBit f.badDesc 3 ||| flagBit f.busError 4 ||| flagBit f.badAccess 5

/-! ### STATUS -/

/-- `SES_STATE` as a number (R24). -/
def SesState.code : SesState → Nat
  | .none => 0
  | .built => 1
  | .running => 2

/-- `ERR` as a number (R24, R250). -/
def ErrCode.code : ErrCode → Nat
  | .ok => 0
  | .resourceExhausted => 1
  | .channelUnavailable => 2
  | .sessionConflict => 3
  | .configurationError => 4

/-- `STATUS` as a word: `SES_STATE` in bits 1:0, `ERR` in bits 6:4 (R24). -/
def statusWord (ses : SesState) (err : ErrCode) : Word :=
  BitVec.ofNat 32 (ses.code + 16 * err.code)

/-! ### The other flag registers -/

/-- `ENC_CTRL` as a word (R35). -/
def Encoder.ctrlWord (e : Encoder) : Word :=
  flagBit e.en 0 ||| flagBit e.bswap 1

/-- `CMDCH_STAT` as a word (R34). -/
def CmdChannel.statWord (c : CmdChannel) : Word :=
  flagBit c.trig 0

/-- `PIX_STAT` as a word (R31). -/
def PixChannel.statWord (p : PixChannel) : Word :=
  flagBit p.busy 0

/-- `FBH_STATE` as a bit (R36). -/
def FbhState.isReloading : FbhState → Bool
  | .armed => false
  | .reloading => true

/-- `IRQ_STAT` as a word (R36). -/
def Irq.toWord (q : Irq) : Word :=
  flagBit q.pending 0 ||| flagBit q.enable 1 ||| flagBit q.fbh.isReloading 2 ||| flagBit q.activeRef 3

/-- The interrupt request the block shows the rest of the system: "`PENDING and ENABLE`" (R36, R259). -/
def Irq.request (q : Irq) : Bool :=
  q.pending && q.enable

/-! ### CMDCH_CTRL -/

/-- `CMDCH_CTRL.EN` (R33). -/
def cmdEnabled (ctrl : Word) : Bool :=
  ctrl.getLsbD 0

/-- The value CONSTRUCT programs into `CMDCH_CTRL` (R33, R186): `0x7B` for two-word descriptors, `0xBB` for four. -/
def cmdCtrlWord (descw : Nat) : Word :=
  if descw = 2 then 0x0000007B#32 else 0x000000BB#32

/-- The CMD step's guard: `CMDCH_CTRL.EN = 1` and `CMDCH_STAT.TRIG = 1` (R223). -/
def State.cmdReady (s : State) : Bool :=
  cmdEnabled s.cmd.ctrl && s.cmd.trig

end Sys2Proof.Machine
end

