-- ==== Sys2Proof/Machine/Tables.lean ====
section
/-! DEFINITION. The timing table generator's pure functions (`40_timing_table.md`): the table, the bands of a frame, mode
selection, the canned patterns (R130 to R140), and the addresses they are seen at (`10_state.md` R38). -/

namespace Sys2Proof.Machine

/-- The two output modes (R131): 0 the narrower, 1 the wider. -/
inductive OutputMode where
  | mode0
  | mode1
  deriving DecidableEq, Repr

/-- The number of a mode. -/
def OutputMode.number : OutputMode → Nat
  | .mode0 => 0
  | .mode1 => 1

/-- The mode of a number, if it is one (R136: 2 and above are none). -/
def modeOfNumber : Nat → Option OutputMode
  | 0 => some .mode0
  | 1 => some .mode1
  | _ => none

/-- `TT(m)` (R130). -/
def timingOf (c : Config) : OutputMode → Timing
  | .mode0 => c.tt0
  | .mode1 => c.tt1

/-- `POL(m)` (R140). -/
def polarityOf (c : Config) : OutputMode → Polarity
  | .mode0 => c.pol0
  | .mode1 => c.pol1

/-! ### Bands of a frame -/

/-- The four bands, in frame order (R133). -/
inductive Band where
  | frontPorch
  | sync
  | backPorch
  | active
  deriving DecidableEq, Repr

/-- `active_start`: the first active line of a frame (R133). -/
def activeStart (t : Timing) : Nat :=
  t.vFrontPorch + t.vSyncWidth + t.vBackPorch

/-- The band of line `l` (R133). -/
def bandOf (t : Timing) (l : Nat) : Band :=
  if l < t.vFrontPorch then .frontPorch
  else if l < t.vFrontPorch + t.vSyncWidth then .sync
  else if l < activeStart t then .backPorch
  else .active

/-- `h_total`, "not a field of the contract" (R132). -/
def hTotal (t : Timing) : Nat :=
  t.hFrontPorch + t.hSyncWidth + t.hBackPorch + t.hActive

/-! ### Mode selection -/

/-- `select_mode` (R134): by width alone, the narrower mode first. -/
def selectMode (c : Config) (width : Nat) : Option OutputMode :=
  if width = 0 then none
  else if c.tt0.hActive % width = 0 then some .mode0
  else if c.tt1.hActive % width = 0 then some .mode1
  else none

/-! ### Canned patterns -/

/-- The two kinds of canned pattern (R138): 0 "sync released", 1 "sync asserted". -/
inductive PatternKind where
  | released
  | asserted
  deriving DecidableEq, Repr

/-- The number of a kind. -/
def PatternKind.number : PatternKind → Nat
  | .released => 0
  | .asserted => 1

/-- `PAT_WORDS` (R8, R138). -/
def patWords : Nat := 3

/-- `RUN(count, hs, vs)`, the pattern word of format P (`30_encoding.md` R109). -/
def runWord (count : Nat) (hs vs : Bool) : Nat :=
  count + hs.toNat * 0x10000 + vs.toNat * 0x20000

/-- `PAT(m, k, j)` (R139); the fourth word of a pattern reads 0 (R38). -/
def patternWord (c : Config) (m : OutputMode) (k : PatternKind) (j : Nat) : Nat :=
  let t := timingOf c m
  let ph := (polarityOf c m).hsync
  let pv := (polarityOf c m).vsync
  let vs := match k with
    | .asserted => pv
    | .released => !pv
  match j with
  | 0 => runWord t.hFrontPorch (!ph) vs
  | 1 => runWord t.hSyncWidth ph vs
  | 2 => runWord (t.hBackPorch + t.hActive) (!ph) vs
  | _ => 0

/-- The word of the pattern window at byte offset `off` from its start, `0x20 m + 0x10 k + 4 j` (R38). -/
def patternAt (c : Config) (off : Nat) : Nat :=
  let m := if off / 0x20 % 2 = 0 then OutputMode.mode0 else .mode1
  let k := if off / 0x10 % 2 = 0 then PatternKind.released else .asserted
  patternWord c m k (off / 4 % 4)

/-- The address of the pattern window, `VTG_BASE + 0x100`, which is 64 bytes long (R22, R38). -/
def patBase (c : Config) : Nat :=
  c.vtgBase + 0x100

/-- `PAT_ADDR(m, k)` (R38). -/
def patAddr (c : Config) (m : OutputMode) (k : PatternKind) : Nat :=
  patBase c + 0x20 * m.number + 0x10 * k.number

/-- `ENCQ_ADDR = VTG_BASE + 0x0F0` (R8). -/
def encqAddr (c : Config) : Word :=
  BitVec.ofNat 32 (c.vtgBase + 0x0F0)

end Sys2Proof.Machine
end

