-- ==== Sys2Proof/Machine/Operands.lean ====
section
/-! DEFINITION. The operand forms: the `ARG_*` latches of the host commands (`30_encoding.md` R103), the pixel channel's
numbered registers and the destination window of a descriptor (`44_ring_sequencer.md` R225, R240), and the register
map the host reads and writes through (`10_state.md` R22, R39, R40). -/

namespace Sys2Proof.Machine

/-- A number stored into a 32-bit register (R10: only where a rule shows that it is below `2^32`). -/
def toReg (n : Nat) : Word :=
  BitVec.ofNat 32 n

/-! ### Operands of the host commands -/

/-- `ARG_WIDTH`, whole and unsigned (R103). -/
def argWidth (s : State) : Nat := s.args.width.toNat

/-- `ARG_HEIGHT` (R103). -/
def argHeight (s : State) : Nat := s.args.height.toNat

/-- `ARG_DEPTH` (R103). -/
def argDepth (s : State) : Nat := s.args.depth.toNat

/-- `ARG_MODE` (R103: "used whole"). -/
def argMode (s : State) : Nat := s.args.mode.toNat

/-- `ARG_HSCALE` (R103). -/
def argHscale (s : State) : Nat := s.args.hscale.toNat

/-! ### The pixel channel's registers -/

/-- `x[i]` (R30). -/
def PixChannel.x (p : PixChannel) : Fin 4 → Word
  | 0 => p.ctrl
  | 1 => p.waddr
  | 2 => p.len
  | 3 => p.raddr

/-- The window `{x[2], x[3]}` takes the two words of a format S descriptor; `x[0]`, `x[1]` stay (R225). -/
def PixChannel.loadS (p : PixChannel) (len raddr : Word) : PixChannel :=
  { p with len := len, raddr := raddr }

/-- The window `{x[0], .., x[3]}` takes the four words of a format L descriptor (R225). -/
def PixChannel.loadL (p : PixChannel) (ctrl waddr len raddr : Word) : PixChannel :=
  { p with ctrl := ctrl, waddr := waddr, len := len, raddr := raddr }

/-- One element of `n` bytes moved: the source address goes up by `n` modulo `2^32`, the count down by 1 (R228). -/
def PixChannel.advance (p : PixChannel) (n : Nat) : PixChannel :=
  { p with raddr := p.raddr + BitVec.ofNat 32 n, len := p.len - 1#32 }

/-! ### The register map -/

/-- The registers of R22, in the order of their offsets; the pattern window stands apart. -/
inductive Reg where
  | command | status | fault
  | argWidth | argHeight | argDepth | argMode | argHscale
  | sesMode | sesWidth | sesHeight | sesDepth | sesPitch | sesHscale | sesVscale
  | fbBase | fbWords | progBase | progWords | sesDescw | chIds
  | tqHFrontPorch | tqHSyncWidth | tqHBackPorch | tqHActive
  | tqVFrontPorch | tqVSyncWidth | tqVBackPorch | tqVActive | tqVTotal | tqPol
  | eqExpand | eqShift | eqBswap
  | encExpand | encShift | encCtrl
  | cmdchCtrl | cmdchRptr | cmdchStat
  | pixCtrl | pixWaddr | pixLen | pixRaddr | pixStat
  | irqStat | encq
  deriving DecidableEq, Repr

/-- What the host may do with a register (R22). -/
inductive Access where
  | rw
  | ro
  | wo
  | noAccess
  deriving DecidableEq, Repr

/-- The register at a byte offset from `VTG_BASE`, if there is one (R22, R39). -/
def regAt : Nat → Option Reg
  | 0x000 => some .command
  | 0x004 => some .status
  | 0x008 => some .fault
  | 0x00C => some .argWidth
  | 0x010 => some .argHeight
  | 0x014 => some .argDepth
  | 0x018 => some .argMode
  | 0x01C => some .argHscale
  | 0x020 => some .sesMode
  | 0x024 => some .sesWidth
  | 0x028 => some .sesHeight
  | 0x02C => some .sesDepth
  | 0x030 => some .sesPitch
  | 0x034 => some .sesHscale
  | 0x038 => some .sesVscale
  | 0x03C => some .fbBase
  | 0x040 => some .fbWords
  | 0x044 => some .progBase
  | 0x048 => some .progWords
  | 0x04C => some .sesDescw
  | 0x050 => some .chIds
  | 0x060 => some .tqHFrontPorch
  | 0x064 => some .tqHSyncWidth
  | 0x068 => some .tqHBackPorch
  | 0x06C => some .tqHActive
  | 0x070 => some .tqVFrontPorch
  | 0x074 => some .tqVSyncWidth
  | 0x078 => some .tqVBackPorch
  | 0x07C => some .tqVActive
  | 0x080 => some .tqVTotal
  | 0x084 => some .tqPol
  | 0x090 => some .eqExpand
  | 0x094 => some .eqShift
  | 0x098 => some .eqBswap
  | 0x0A0 => some .encExpand
  | 0x0A4 => some .encShift
  | 0x0A8 => some .encCtrl
  | 0x0C0 => some .cmdchCtrl
  | 0x0C4 => some .cmdchRptr
  | 0x0C8 => some .cmdchStat
  | 0x0D0 => some .pixCtrl
  | 0x0D4 => some .pixWaddr
  | 0x0D8 => some .pixLen
  | 0x0DC => some .pixRaddr
  | 0x0E0 => some .pixStat
  | 0x0E8 => some .irqStat
  | 0x0F0 => some .encq
  | _ => none

/-- The host's access right (R22). -/
def Reg.access : Reg → Access
  | .command => .wo
  | .argWidth | .argHeight | .argDepth | .argMode | .argHscale => .rw
  | .encq => .noAccess
  | .status | .fault
  | .sesMode | .sesWidth | .sesHeight | .sesDepth | .sesPitch | .sesHscale | .sesVscale
  | .fbBase | .fbWords | .progBase | .progWords | .sesDescw | .chIds
  | .tqHFrontPorch | .tqHSyncWidth | .tqHBackPorch | .tqHActive
  | .tqVFrontPorch | .tqVSyncWidth | .tqVBackPorch | .tqVActive | .tqVTotal | .tqPol
  | .eqExpand | .eqShift | .eqBswap
  | .encExpand | .encShift | .encCtrl
  | .cmdchCtrl | .cmdchRptr | .cmdchStat
  | .pixCtrl | .pixWaddr | .pixLen | .pixRaddr | .pixStat | .irqStat => .ro

/-- The word a register holds. `COMMAND` holds no value (R23) and the queue port none (R37); both read 0. -/
def readReg (s : State) : Reg → Word
  | .command => 0#32
  | .status => statusWord s.sesState s.err
  | .fault => s.faults.toWord
  | .argWidth => s.args.width
  | .argHeight => s.args.height
  | .argDepth => s.args.depth
  | .argMode => s.args.mode
  | .argHscale => s.args.hscale
  | .sesMode => s.ses.mode
  | .sesWidth => s.ses.width
  | .sesHeight => s.ses.height
  | .sesDepth => s.ses.depth
  | .sesPitch => s.ses.pitch
  | .sesHscale => s.ses.hscale
  | .sesVscale => s.ses.vscale
  | .fbBase => s.ses.fbBase
  | .fbWords => s.ses.fbWords
  | .progBase => s.ses.progBase
  | .progWords => s.ses.progWords
  | .sesDescw => s.ses.descw
  | .chIds => s.ses.chIds
  | .tqHFrontPorch => s.tq.hFrontPorch
  | .tqHSyncWidth => s.tq.hSyncWidth
  | .tqHBackPorch => s.tq.hBackPorch
  | .tqHActive => s.tq.hActive
  | .tqVFrontPorch => s.tq.vFrontPorch
  | .tqVSyncWidth => s.tq.vSyncWidth
  | .tqVBackPorch => s.tq.vBackPorch
  | .tqVActive => s.tq.vActive
  | .tqVTotal => s.tq.vTotal
  | .tqPol => s.tq.pol
  | .eqExpand => s.eq.expand
  | .eqShift => s.eq.shift
  | .eqBswap => flagBit s.eq.bswap 0
  | .encExpand => s.enc.expand
  | .encShift => s.enc.shift
  | .encCtrl => s.enc.ctrlWord
  | .cmdchCtrl => s.cmd.ctrl
  | .cmdchRptr => s.cmd.rptr
  | .cmdchStat => s.cmd.statWord
  | .pixCtrl => s.pix.ctrl
  | .pixWaddr => s.pix.waddr
  | .pixLen => s.pix.len
  | .pixRaddr => s.pix.raddr
  | .pixStat => s.pix.statWord
  | .irqStat => s.irq.toWord
  | .encq => 0#32

/-- The word a host read at offset `off` of the register space returns, or `none` where the access breaks R40: an unmapped
offset (R39) or the queue port (R37). A write-only register returns 0 without a fault (R40). -/
def readOffset (s : State) (off : Nat) : Option Word :=
  if 0x100 ≤ off ∧ off < 0x140 then some (toReg (patternAt s.cfg (off - 0x100)))
  else
    match regAt off with
    | none => none
    | some r =>
      match r.access with
      | .rw | .ro => some (readReg s r)
      | .wo => some 0#32
      | .noAccess => none

/-- What a host write does to the operand latch at an offset (R26), if there is one there. -/
def writeArg (s : State) (off : Nat) (v : Word) : Option State :=
  match regAt off with
  | some .argWidth => some { s with args := { s.args with width := v } }
  | some .argHeight => some { s with args := { s.args with height := v } }
  | some .argDepth => some { s with args := { s.args with depth := v } }
  | some .argMode => some { s with args := { s.args with mode := v } }
  | some .argHscale => some { s with args := { s.args with hscale := v } }
  | _ => none

end Sys2Proof.Machine
end

