-- ==== Sys2Proof/Machine/Ops.lean ====
section
/-! DEFINITION. The named operations the meanings share: RAM (`20_memory.md` R71 to R76), what each agent may read (R74,
R75), the environment (`42_program_builder.md` R181, R182), ending a command (`60_exceptions.md` R250), raising a fault
(R257), the frame-boundary interrupt's entry and return (R261, R262), and loading a descriptor (R223). -/

namespace Sys2Proof.Machine

/-- The outcome of a meaning. -/
abbrev Result := Host.Outcome State Fault Refusal

/-! ### RAM -/

/-- What an address that memory does not list reads as. RAM after reset is "any bytes" (R60): 0 is a DESIGN CHOICE,
log 4. -/
def unlistedByte : Byte := 0#8

/-- The canonical form: addresses strictly rising, and no entry equal to what an unlisted address reads as. -/
abbrev Memory.wf (m : Memory) : Prop :=
  m.Pairwise (fun c d => c.1 < d.1) ∧ ∀ c ∈ m, c.2 ≠ unlistedByte

/-- The byte at an address. -/
def Memory.read : Memory → Nat → Byte
  | [], _ => unlistedByte
  | (k, b) :: rest, a => if k = a then b else Memory.read rest a

/-- An entry put in front of a memory, unless it is what an unlisted address reads as. -/
def Memory.cons (a : Nat) (v : Byte) (m : Memory) : Memory :=
  if v = unlistedByte then m else (a, v) :: m

/-- The byte at an address replaced; the canonical form is kept. -/
def Memory.write : Memory → Nat → Byte → Memory
  | [], a, v => Memory.cons a v []
  | (k, b) :: rest, a, v =>
    if a < k then Memory.cons a v ((k, b) :: rest)
    else if a = k then Memory.cons a v rest
    else (k, b) :: Memory.write rest a v

/-- The `n`-byte little-endian number at an address (R71). -/
def Memory.readLE (m : Memory) (a : Nat) : Nat → Nat
  | 0 => 0
  | n + 1 => (m.read a).toNat + 256 * Memory.readLE m (a + 1) n

/-- The `n` little-endian bytes of a number stored from an address on (R76). -/
def Memory.writeLE (m : Memory) (a : Nat) : Nat → Nat → Memory
  | 0, _ => m
  | n + 1, v => Memory.writeLE (m.write a (BitVec.ofNat 8 v)) (a + 1) n (v / 256)

/-- Consecutive words stored from an address on (R185). -/
def Memory.writeWords (m : Memory) (a : Nat) : List Word → Memory
  | [] => m
  | w :: ws => Memory.writeWords (m.writeLE a 4 w.toNat) (a + 4) ws

/-! ### Who may read what -/

/-- The access `[a, a + n)` lies inside the region. -/
def Region.covers (r : Region) (a n : Nat) : Bool :=
  decide (r.base ≤ a) && decide (a + n ≤ r.base + 4 * r.words)

/-- No byte is in both regions. -/
def Region.disjoint (r q : Region) : Bool :=
  decide (r.base + 4 * r.words ≤ q.base) || decide (q.base + 4 * q.words ≤ r.base)

/-- RAM is `[MEM_BASE, MEM_BASE + MEM_SIZE)` (R8, R70). -/
def inRam (c : Config) (a n : Nat) : Bool :=
  decide (c.memBase ≤ a) && decide (a + n ≤ c.memBase + c.memSize)

/-- The pattern window is 64 bytes from `VTG_BASE + 0x100` (R38, R73). -/
def inPatternWindow (c : Config) (a n : Nat) : Bool :=
  decide (patBase c ≤ a) && decide (a + n ≤ patBase c + 0x40)

/-- A session exists whenever `SES_STATE` is not `NONE` (R55). -/
def State.hasSession (s : State) : Bool :=
  s.sesState != .none

/-- The program region `[PROG_BASE, PROG_BASE + 4 * PROG_WORDS)` (R53). -/
def State.progRegion (s : State) : Region :=
  { base := s.ses.progBase.toNat, words := s.ses.progWords.toNat }

/-- The framebuffer region `[FB_BASE, FB_BASE + 4 * FB_WORDS)` (R53). -/
def State.fbRegion (s : State) : Region :=
  { base := s.ses.fbBase.toNat, words := s.ses.fbWords.toNat }

/-- CMD reads the program region of the session (R74). -/
def State.inProgram (s : State) (a n : Nat) : Bool :=
  s.hasSession && s.progRegion.covers a n && inRam s.cfg a n

/-- PIX reads and PRODUCER writes the framebuffer region of the session (R74). -/
def State.inFramebuffer (s : State) (a n : Nat) : Bool :=
  s.hasSession && s.fbRegion.covers a n && inRam s.cfg a n

/-- `MemRead(CMD, a, 4)` (R72, R74); `none` is `BUS_ERROR` (R75). -/
def State.readCmd (s : State) (a : Nat) : Option Word :=
  if a % 4 = 0 ∧ s.inProgram a 4 then some (BitVec.ofNat 32 (s.ram.readLE a 4)) else none

/-- `n` consecutive words fetched by the command channel (R223 line 3). -/
def State.fetchWords (s : State) (a : Nat) : Nat → Option (List Word)
  | 0 => some []
  | n + 1 =>
    match s.readCmd a with
    | none => none
    | some w => (s.fetchWords (a + 4) n).map (w :: ·)

/-- `MemRead(PIX, a, n)` (R72, R73, R74): words of the pattern window, elements of the framebuffer; `none` is `BUS_ERROR`
(R75). DESIGN CHOICE (log 11): the pattern window is readable with no session too, by R73 and R74's table, where R74's last
sentence reads that every PIX read then faults. -/
def State.readPix (s : State) (a : Nat) (size : ElemSize) : Option Nat :=
  if a % size.bytes ≠ 0 then none
  else if inPatternWindow s.cfg a size.bytes then
    if size = .word then some (patternAt s.cfg (a - patBase s.cfg)) else none
  else if s.inFramebuffer a size.bytes then some (s.ram.readLE a size.bytes)
  else none

/-! ### The environment -/

/-- A line added to `ENVLOG` (R51). -/
def State.log (s : State) (e : EnvEvent) : State :=
  { s with envlog := s.envlog ++ [e] }

/-- `ENVLOG += ALLOC(base, words) ; LIVE += (base, words)` (R180). -/
def State.acquire (s : State) (r : Region) : State :=
  { s with live := s.live ++ [r], envlog := s.envlog ++ [.alloc r.base r.words] }

/-- `ENVLOG += FREE(base) ; LIVE -= (base, words)` (R180, R203). -/
def State.release (s : State) (r : Region) : State :=
  { s with live := s.live.erase r, envlog := s.envlog ++ [.free r.base] }

/-- What may be assumed of an allocation answer (R181): word-aligned, inside RAM, disjoint from every live region. -/
def admissibleAlloc (s : State) (n : Nat) (a : Word) : Bool :=
  decide (a.toNat % 4 = 0) && inRam s.cfg a.toNat (4 * n) &&
    s.live.all (fun r => Region.disjoint { base := a.toNat, words := n } r)

/-- ENV's answer to a request for `n` words (R181): the next of the state's answers, or a free value. An answer ENV may
not give counts as `none` (log 3). -/
def State.drawAlloc (s : State) (n : Nat) : Option Word × State :=
  match s.allocs with
  | ans :: rest => (ans.filter (admissibleAlloc s n), { s with allocs := rest })
  | [] => ((Config.freeAlloc s.drawn).filter (admissibleAlloc s n), { s with drawn := s.drawn + 1 })

/-- What may be assumed of a channel claim (R182): two different handles in 0..15. -/
def admissibleClaim (p : BitVec 4 × BitVec 4) : Bool :=
  p.1 != p.2

/-- ENV's answer to the claim of two channels (R182), as for allocations. -/
def State.drawClaim (s : State) : Option (BitVec 4 × BitVec 4) × State :=
  match s.claims with
  | ans :: rest => (ans.filter admissibleClaim, { s with claims := rest })
  | [] => ((Config.freeClaim s.drawn).filter admissibleClaim, { s with drawn := s.drawn + 1 })

/-! ### How a step ends -/

/-- `return ERR(code)`: the command is over and `STATUS.ERR` holds the code (R250). -/
def returnErr (code : ErrCode) (s : State) : Result :=
  .next { s with err := code }

/-- `raise Fault(NAME)`: the step sets one bit of `FAULT` and makes no other change (R257). Given the state the step
started from. -/
def raise (b : FaultBit) (s : State) : Result :=
  .next { s with faults := s.faults.set b }

/-! ### The frame-boundary interrupt -/

/-- The interrupt is raised (R259): the CMD step that loads a zero-length descriptor sets `PENDING`. -/
def State.raiseFrameIrq (s : State) : State :=
  { s with irq := { s.irq with pending := true } }

/-- The FBH entry step is enabled (R233). -/
def State.fbhEntryReady (s : State) : Bool :=
  s.irq.pending && s.irq.enable && s.irq.fbh == .armed

/-- Entry (R233, R261): armed to reloading; nothing is saved and nothing else changes. -/
def State.fbhEnter (s : State) : State :=
  { s with irq := { s.irq with fbh := .reloading } }

/-- `reload_action()` (R232): a no-op without an active session reference; else acknowledge, pointer, trigger. -/
def State.reloadAction (s : State) : State :=
  if s.irq.activeRef then
    { s with
      irq := { s.irq with pending := false }
      cmd := { s.cmd with rptr := s.ses.progBase, trig := true } }
  else s

/-- The body and the return (R234, R262): the reload action, then reloading to armed; nothing is restored. -/
def State.fbhReturn (s : State) : State :=
  let t := s.reloadAction
  { t with irq := { t.irq with fbh := .armed } }

/-! ### Loading a descriptor -/

/-- `pc <- pc + 4 * n` and `TRIG <- 0` (R223 lines 4 and 5). The program counter is a 32-bit register; that it can pass the top
of the address space only after the last descriptor of a program that ends there is log 8. -/
def CmdChannel.consume (c : CmdChannel) (n : Nat) : CmdChannel :=
  { c with rptr := c.rptr + BitVec.ofNat 32 (4 * n), trig := false }

/-- The CMD step from line 4 on, and its line 1, for a descriptor of `n` words that leaves the pixel channel's
registers at `p` (R223 to R226): `PIX_OVERWRITE` if a transfer is in flight; `BAD_DESC` for an illegal control word, a destination
that is not the queue port or a misaligned source; the frame interrupt for length 0; else a transfer in flight. -/
def loadDescriptor (n : Nat) (p : PixChannel) (s : State) : Result :=
  if s.pix.busy then raise .pixOverwrite s
  else
    match ctrlSize p.ctrl with
    | none => raise .badDesc s
    | some size =>
      if p.waddr ≠ encqAddr s.cfg then raise .badDesc s
      else if p.len = 0#32 then
        .next ({ s with cmd := s.cmd.consume n, pix := p }).raiseFrameIrq
      else if alignedFor size p.raddr then
        .next { s with cmd := s.cmd.consume n, pix := { p with busy := true } }
      else raise .badDesc s

end Sys2Proof.Machine
end

