-- ==== Sys2Proof/Machine/EncoderCalc.lean ====
section
/-! DEFINITION. The encoder bit-expansion parameter calculator and `ENCCALC` (`41_encoder_calc.md` R150 to R161). -/

namespace Sys2Proof.Machine

/-- What the calculator answers (R150): the expansion word, the shift word, the byte swap. -/
structure EncParams where
  expand : Nat
  shift  : Nat
  bswap  : Bool
  deriving DecidableEq, Repr

/-- The generic formula (R152): every lane has width `d` and rotation `24 + d`. -/
def grayExpansion (d : Nat) : Expansion :=
  let lane : Lane := { width := BitVec.ofNat 5 d, rot := BitVec.ofNat 5 (24 + d) }
  { l0 := lane, l1 := lane, l2 := lane }

/-- Lane widths and rotations of a depth: the formula for 1 and 2, the table for 4, 8, 16, 32 (R151 to R153); no other depth
is in the domain (R159). -/
def expansionOf (c : Config) : Nat → Option Expansion
  | 1 => some (grayExpansion 1)
  | 2 => some (grayExpansion 2)
  | 4 => some c.expand4
  | 8 => some c.expand8
  | 16 => some c.expand16
  | 32 => some c.expand32
  | _ => none

/-- `expand` (R154). -/
def packExpand (e : Expansion) : Nat :=
  e.l0.rot.toNat + 2 ^ 5 * e.l0.width.toNat + 2 ^ 10 * e.l1.rot.toNat + 2 ^ 15 * e.l1.width.toNat +
    2 ^ 20 * e.l2.rot.toNat + 2 ^ 25 * e.l2.width.toNat

/-- `per_word(d) = (32 div d) mod 32` (R155). -/
def perWord (d : Nat) : Nat :=
  32 / d % 32

/-- `n_shifts(d, s)` (R155): "the reduction is applied before the product". -/
def nShifts (d hScale : Nat) : Nat :=
  perWord d * hScale

/-- `shift_amount(d) = d mod 32` (R155). -/
def shiftAmount (d : Nat) : Nat :=
  d % 32

/-- `shift(d, s)` (R157). -/
def packShift (d hScale : Nat) : Nat :=
  shiftAmount d + 256 * nShifts d hScale

/-- `bswap(d)` (R158): depth 16 and no other. -/
def byteSwap (d : Nat) : Bool :=
  d == 16

/-- `enc_params(d, s)` (R161); `none` is `refuse` (R156, R159). -/
def encParams (c : Config) (d hScale : Nat) : Option EncParams :=
  match expansionOf c d with
  | none => none
  | some e =>
    if hScale = 0 then none
    else if 32 ≤ nShifts d hScale then none
    else some { expand := packExpand e, shift := packShift d hScale, bswap := byteSwap d }

/-- `ENCCALC` (R160): the answer goes to the `EQ_*` latch; the encoder itself is not touched. -/
def execEnccalc (s : State) : Result :=
  match encParams s.cfg (argDepth s) (argHscale s) with
  | none => returnErr .configurationError s
  | some p =>
    returnErr .ok { s with eq := { expand := toReg p.expand, shift := toReg p.shift, bswap := p.bswap } }

end Sys2Proof.Machine
end

