-- ==== Sys2Proof/Machine/Builder.lean ====
section
/-! DEFINITION. The descriptor-program builder and `CONSTRUCT` (`42_program_builder.md` R170 to R189). -/

namespace Sys2Proof.Machine

/-- The record `geometry` answers (R171). -/
structure Geometry where
  mode      : OutputMode
  hScale    : Nat
  vScale    : Nat
  pitch     : Nat
  fbWords   : Nat
  descw     : Nat
  progWords : Nat
  esize     : ElemSize
  enc       : EncParams
  deriving DecidableEq, Repr

/-- `pitch = ceil(w * d / 32)` (R172). -/
def pitchOf (w d : Nat) : Nat :=
  (w * d + 31) / 32

/-- The element size of `d` bits (R171): `d div 8` bytes. It is asked for depths 8, 16 and 32 only (R173). -/
def elemOfDepth (d : Nat) : ElemSize :=
  if d / 8 = 1 then .byte else if d / 8 = 2 then .half else .word

/-- `geometry(w, h, d)` (R171), its tests in the rule's order; `none` is `refuse`. -/
def geometry (c : Config) (w h d : Nat) : Option Geometry :=
  match expansionOf c d with
  | none => none
  | some _ =>
    if w = 0 ∨ h = 0 then none
    else
      match selectMode c w with
      | none => none
      | some m =>
        let t := timingOf c m
        if t.vActive % h ≠ 0 then none
        else
          let hScale := t.hActive / w
          let vScale := t.vActive / h
          if 1 < hScale ∧ d < 8 then none
          else
            match encParams c d hScale with
            | none => none
            | some enc =>
              let descw := if hScale = 1 then 2 else 4
              some
                { mode := m
                  hScale := hScale
                  vScale := vScale
                  pitch := pitchOf w d
                  fbWords := pitchOf w d * h
                  descw := descw
                  progWords := (t.vTotal + 1) * descw
                  esize := if hScale = 1 then .word else elemOfDepth d
                  enc := enc }

/-- `desc(g, n, len, raddr)` (R175): the words of one descriptor. -/
def descWords (c : Config) (g : Geometry) (size : ElemSize) (len raddr : Nat) : List Word :=
  if g.descw = 2 then [toReg len, toReg raddr]
  else [ctrlStd size, encqAddr c, toReg len, toReg raddr]

/-- `source_row = (l - active_start) div v_scale` (R178). -/
def sourceRow (t : Timing) (g : Geometry) (l : Nat) : Nat :=
  (l - activeStart t) / g.vScale

/-- Framebuffer-pointer synthesis (R110, R178): `fb_base + 4 * pitch * source_row`. -/
def rowAddr (g : Geometry) (fb row : Nat) : Nat :=
  fb + 4 * g.pitch * row

/-- The segment of output line `l` (R175 to R178); `w` is the source width. -/
def segment (c : Config) (g : Geometry) (w fb l : Nat) : List Word :=
  let t := timingOf c g.mode
  match bandOf t l with
  | .sync => descWords c g .word patWords (patAddr c g.mode .asserted)
  | .frontPorch | .backPorch => descWords c g .word patWords (patAddr c g.mode .released)
  | .active =>
    let raddr := rowAddr g fb (sourceRow t g l)
    if g.hScale = 1 then descWords c g .word g.pitch raddr
    else descWords c g g.esize w raddr

/-- `build_program` (R175): one segment for each output line and the terminal descriptor (R179). -/
def buildProgram (c : Config) (g : Geometry) (w fb : Nat) : List Word :=
  (List.range (timingOf c g.mode).vTotal).flatMap (segment c g w fb) ++ descWords c g .word 0 0

/-- `CH_IDS = a + 16 * b + 256` (R27, R186). -/
def chIdsWord (a b : BitVec 4) : Word :=
  toReg (a.toNat + 16 * b.toNat + 256)

/-- The registers a successful CONSTRUCT writes (R186), the program in RAM (R185), and `SES_STATE <- BUILT`. -/
def State.install (s : State) (g : Geometry) (fb prog : Word) (a b : BitVec 4) : State :=
  { s with
    sesState := .built
    ses :=
      { mode := toReg g.mode.number
        width := s.args.width
        height := s.args.height
        depth := s.args.depth
        pitch := toReg g.pitch
        hscale := toReg g.hScale
        vscale := toReg g.vScale
        fbBase := fb
        fbWords := toReg g.fbWords
        progBase := prog
        progWords := toReg g.progWords
        descw := toReg g.descw
        chIds := chIdsWord a b }
    enc := { expand := toReg g.enc.expand, shift := toReg g.enc.shift, en := false, bswap := g.enc.bswap }
    cmd := { s.cmd with ctrl := cmdCtrlWord g.descw }
    pix := { s.pix with ctrl := ctrlStd .word, waddr := encqAddr s.cfg }
    ram := s.ram.writeWords prog.toNat (buildProgram s.cfg g (argWidth s) fb.toNat) }

/-- `CONSTRUCT` from its line 12 on: the channel claim, with both regions held. -/
def constructClaim (g : Geometry) (fb prog : Word) (s : State) : Result :=
  match s.drawClaim with
  | (none, s) =>
    returnErr .channelUnavailable
      (((s.log .claimFail).release { base := prog.toNat, words := g.progWords }).release
        { base := fb.toNat, words := g.fbWords })
  | (some (a, b), s) => returnErr .ok ((s.log (.claim a b)).install g fb prog a b)

/-- `CONSTRUCT` from its line 7 on: the program request, with the framebuffer held. -/
def constructProgram (g : Geometry) (fb : Word) (s : State) : Result :=
  match s.drawAlloc g.progWords with
  | (none, s) =>
    returnErr .resourceExhausted
      ((s.log (.allocFail g.progWords)).release { base := fb.toNat, words := g.fbWords })
  | (some prog, s) => constructClaim g fb prog (s.acquire { base := prog.toNat, words := g.progWords })

/-- `CONSTRUCT` from its line 4 on: the framebuffer request. -/
def constructFramebuffer (g : Geometry) (s : State) : Result :=
  match s.drawAlloc g.fbWords with
  | (none, s) => returnErr .resourceExhausted (s.log (.allocFail g.fbWords))
  | (some fb, s) => constructProgram g fb (s.acquire { base := fb.toNat, words := g.fbWords })

/-- `CONSTRUCT` (R180), its checks in the order of R183. -/
def execConstruct (s : State) : Result :=
  if s.hasSession then returnErr .sessionConflict s
  else
    match geometry s.cfg (argWidth s) (argHeight s) (argDepth s) with
    | none => returnErr .configurationError s
    | some g => constructFramebuffer g s

end Sys2Proof.Machine
end

