-- ==== Sys2Proof/Machine/Descriptors.lean ====
section
/-! DEFINITION. The four descriptors (`44_ring_sequencer.md` R227, R229, R230, R231): each is the CMD step that loads it.
The elements of a transfer are moved after it by PIX steps (R228, `Machine/Agents.lean`). -/

namespace Sys2Proof.Machine

/-- `XFER.S len, raddr` (R227). -/
def execXferS (len raddr : Word) (s : State) : Result :=
  loadDescriptor 2 (s.pix.loadS len raddr) s

/-- `TERM.S` (R230). -/
def execTermS (raddr : Word) (s : State) : Result :=
  loadDescriptor 2 (s.pix.loadS 0#32 raddr) s

/-- `XFER.L n, len, raddr` (R229). -/
def execXferL (size : ElemSize) (waddr len raddr : Word) (s : State) : Result :=
  loadDescriptor 4 (s.pix.loadL (ctrlStd size) waddr len raddr) s

/-- `TERM.L` (R231). -/
def execTermL (size : ElemSize) (waddr raddr : Word) (s : State) : Result :=
  loadDescriptor 4 (s.pix.loadL (ctrlStd size) waddr 0#32 raddr) s

end Sys2Proof.Machine
end

