-- ==== Sys2Proof/Machine/Session.lean ====
section
/-! DEFINITION. The session commands `START`, `STOP`, `RELOAD` (`43_session_commands.md` R200 to R207). -/

namespace Sys2Proof.Machine

/-- What START writes in state `BUILT` (R200). -/
def State.startPlayback (s : State) : State :=
  { s with
    enc := { s.enc with en := true }
    irq := { s.irq with activeRef := true, enable := true }
    cmd := { s.cmd with rptr := s.ses.progBase, trig := true }
    sesState := .running }

/-- `START` (R200): a fault without a session (R201), a conflict when running (R202). -/
def execStart (s : State) : Result :=
  match s.sesState with
  | .none => raise .badState s
  | .running => returnErr .sessionConflict s
  | .built => returnErr .ok s.startPlayback

/-- The two handles of `CH_IDS`: bits 3:0 and 7:4 (R27, R203). -/
def cmdHandle (chIds : Word) : BitVec 4 := chIds.extractLsb' 0 4

/-- Bits 7:4 of `CH_IDS` (R27, R203). -/
def pixHandle (chIds : Word) : BitVec 4 := chIds.extractLsb' 4 4

/-- What STOP returns to the environment, in the reverse order of acquisition (R203). -/
def State.giveBack (s : State) : State :=
  ((s.log (.unclaim (cmdHandle s.ses.chIds) (pixHandle s.ses.chIds))).release s.progRegion).release s.fbRegion

/-- What STOP zeroes (R203): both channels, the interrupt state, the encoder, the session registers. -/
def State.clearSession (s : State) : State :=
  { s with
    cmd := CmdChannel.zero
    pix := PixChannel.zero
    irq := Irq.zero
    enc := Encoder.zero
    ses := Session.zero
    sesState := .none }

/-- `STOP` (R203); without a session it changes nothing but `STATUS.ERR` (R204). -/
def execStop (s : State) : Result :=
  if s.hasSession then returnErr .ok s.giveBack.clearSession else returnErr .ok s

/-- `RELOAD` (R205): the reload action; `STATUS` is not written. -/
def execReload (s : State) : Result :=
  .next s.reloadAction

end Sys2Proof.Machine
end

