-- ==== Sys2Proof/Machine/Timing.lean ====
section
/-! DEFINITION. `TIMING` (`40_timing_table.md` R135, R136): look up the timing record of a mode. -/

namespace Sys2Proof.Machine

/-- The `TQ_*` latch for mode `m` (R135). -/
def timingQuery (c : Config) (m : OutputMode) : TimingQuery :=
  let t := timingOf c m
  let p := polarityOf c m
  { hFrontPorch := toReg t.hFrontPorch
    hSyncWidth  := toReg t.hSyncWidth
    hBackPorch  := toReg t.hBackPorch
    hActive     := toReg t.hActive
    vFrontPorch := toReg t.vFrontPorch
    vSyncWidth  := toReg t.vSyncWidth
    vBackPorch  := toReg t.vBackPorch
    vActive     := toReg t.vActive
    vTotal      := toReg t.vTotal
    pol         := toReg (p.hsync.toNat + 2 * p.vsync.toNat) }

/-- `TIMING` (R135); a mode number of 2 or more is `ConfigurationError` and leaves every `TQ_*` unchanged (R136). -/
def execTiming (s : State) : Result :=
  match modeOfNumber (argMode s) with
  | none => returnErr .configurationError s
  | some m => returnErr .ok { s with tq := timingQuery s.cfg m }

end Sys2Proof.Machine
end

