-- ==== Sys2Proof/Machine/Dispatch.lean ====
section
/-! DEFINITION. The meaning of every instruction, one arm a constructor. -/

namespace Sys2Proof.Machine

def exec (i : Instr) (s : State) : Host.Outcome State Fault Refusal :=
  match i with
  -- host commands (format H)
  | .construct => Sys2Proof.Machine.execConstruct s
  | .start => Sys2Proof.Machine.execStart s
  | .stop => Sys2Proof.Machine.execStop s
  | .reload => Sys2Proof.Machine.execReload s
  | .timing => Sys2Proof.Machine.execTiming s
  | .enccalc => Sys2Proof.Machine.execEnccalc s
  -- descriptors (formats S and L)
  | .xferS len raddr => Sys2Proof.Machine.execXferS len raddr s
  | .termS raddr => Sys2Proof.Machine.execTermS raddr s
  | .xferL size waddr len raddr => Sys2Proof.Machine.execXferL size waddr len raddr s
  | .termL size waddr raddr => Sys2Proof.Machine.execTermL size waddr raddr s

end Sys2Proof.Machine
end

