-- ==== Sys2Proof/Machine/Agents.lean ====
section
/-! DEFINITION. The steps of the agents (`00_scope.md` R13): HOST (`10_state.md` R21, R23, R39, R40), CMD (`44_ring_sequencer.md`
R223), PIX (R228), FBH (R233, R234), PRODUCER (`20_memory.md` R78); which of them moves next (R80); and how an
instruction is placed for the next step to run.

An event that names an agent with no enabled step is no step of the machine: it is used up and nothing else
changes (log 2). -/

namespace Sys2Proof.Machine

/-! ### HOST -/

/-- The address lies in the 4096 bytes from `VTG_BASE` (R21). -/
def inRegisterSpace (c : Config) (a : Nat) : Bool :=
  decide (c.vtgBase ≤ a) && decide (a < c.vtgBase + 4096)

/-- A word written to `COMMAND` (R23): a reserved word is `ILLEGAL_CMD` before any state is looked at (R102, R260 a). -/
def hostCommand (c : Word) (s : State) : Result :=
  match decodeH c with
  | .ok i => exec i s
  | .error _ => raise .illegalCmd s

/-- A host read of the register space (R40): a word at a multiple of 4, else `BAD_ACCESS` and 0 is returned. -/
def hostReadReg (size : ElemSize) (a : Nat) (s : State) : Result :=
  if size = .word ∧ a % 4 = 0 then
    match readOffset s (a - s.cfg.vtgBase) with
    | some v => .next { s with readData := v }
    | none => raise .badAccess { s with readData := 0#32 }
  else raise .badAccess { s with readData := 0#32 }

/-- A host write to the register space (R23, R26, R40): a word at a multiple of 4 to `COMMAND` or to an operand latch, else
`BAD_ACCESS`. -/
def hostWriteReg (size : ElemSize) (a : Nat) (v : Word) (s : State) : Result :=
  if size = .word ∧ a % 4 = 0 then
    if a = s.cfg.vtgBase then hostCommand v s
    else
      match writeArg s (a - s.cfg.vtgBase) v with
      | some t => .next t
      | none => raise .badAccess s
  else raise .badAccess s

/-- A host read of RAM: the session's two regions are readable (R74), aligned (R72, R77). -/
def hostReadRam (size : ElemSize) (a : Nat) (s : State) : Result :=
  if a % size.bytes ≠ 0 then .fault .hostMisaligned
  else if s.inProgram a size.bytes || s.inFramebuffer a size.bytes then
    .next { s with readData := toReg (s.ram.readLE a size.bytes) }
  else .refused .hostRamRead

/-- The HOST step. While the handler is reloading the host has no enabled step (R233). -/
def hostStep (access : HostAccess) (s : State) : Result :=
  if s.irq.fbh = .reloading then .next s
  else
    match access with
    | .read size addr =>
      if inRegisterSpace s.cfg addr.toNat then hostReadReg size addr.toNat s
      else if inRam s.cfg addr.toNat 1 then hostReadRam size addr.toNat s
      else .fault .hostUnmapped
    | .write size addr v =>
      if inRegisterSpace s.cfg addr.toNat then hostWriteReg size addr.toNat v s
      else if inRam s.cfg addr.toNat 1 then .refused .hostRamWrite
      else .fault .hostUnmapped

/-! ### CMD -/

/-- The descriptor at the program counter run as an instruction (R223 line 3 on). The format is `SES_DESCW`'s (R106). -/
def runDescriptor (s : State) : Result :=
  if s.ses.descw = 2#32 then
    match s.fetchWords s.cmd.rptr.toNat 2 with
    | some [w0, w1] => exec (decodeS w0 w1) s
    | _ => raise .busError s
  else if s.ses.descw = 4#32 then
    match s.fetchWords s.cmd.rptr.toNat 4 with
    | some [w0, w1, w2, w3] =>
      match decodeL w0 w1 w2 w3 with
      | .ok i => exec i s
      | .error _ => raise .badDesc s
    | _ => raise .busError s
  else .refused .descriptorWidth

/-- The CMD step (R223): `PIX_OVERWRITE` is tested before the fetch (R224, R260 d). -/
def cmdStep (s : State) : Result :=
  if s.cmdReady then
    if s.pix.busy then raise .pixOverwrite s else runDescriptor s
  else .next s

/-! ### PIX -/

/-- One element of a transfer in flight, of size `size`, delivered as `v` (R228 lines 3 to 8). -/
def State.deliver (s : State) (size : ElemSize) (v : Nat) : State :=
  let p := s.pix.advance size.bytes
  let t := { s with encq := s.encq ++ [{ size := size, value := v }], pix := p }
  if p.len = 0#32 then { t with pix := { p with busy := false }, cmd := { s.cmd with trig := true } } else t

/-- The PIX step (R228). -/
def pixStep (s : State) : Result :=
  if s.pix.busy then
    match sizeField s.pix.ctrl with
    | none => .refused .elementSize
    | some size =>
      if s.pix.len = 0#32 then .refused .emptyTransfer
      else
        match s.readPix s.pix.raddr.toNat size with
        | none => raise .busError s
        | some v => .next (s.deliver size v)
  else .next s

/-! ### FBH and PRODUCER -/

/-- The FBH step: the body when reloading (R234), the entry when it is enabled (R233). -/
def fbhStep (s : State) : Result :=
  if s.irq.fbh = .reloading then .next s.fbhReturn
  else if s.fbhEntryReady then .next s.fbhEnter
  else .next s

/-- The PRODUCER step (R78): an aligned write of 1, 2 or 4 bytes inside the framebuffer region of a session. DESIGN CHOICE (log 12):
the producer has this one step, as R78 says; the reads that R74's table admits it are no step, as they would change nothing (R72). -/
def producerStep (size : ElemSize) (addr value : Word) (s : State) : Result :=
  if addr.toNat % size.bytes = 0 ∧ s.inFramebuffer addr.toNat size.bytes then
    .next { s with ram := s.ram.writeLE addr.toNat size.bytes value.toNat }
  else .refused .producerWrite

/-! ### Who moves next -/

/-- The next event: the head of the list, or a free value once the list is used up (R80; log 2). -/
def State.takeEvent (s : State) : Event × State :=
  match s.events with
  | e :: rest => (e, { s with events := rest })
  | [] => (Config.freeEvent s.drawn, { s with drawn := s.drawn + 1 })

/-- The step of the agent an event names. -/
def agentStep (e : Event) (s : State) : Result :=
  match e with
  | .host access => hostStep access s
  | .cmd => cmdStep s
  | .pix => pixStep s
  | .fbh => fbhStep s
  | .producer size addr value => producerStep size addr value s

/-! ### Placing an instruction -/

/-- A host command as the next event: its word written to `COMMAND` (R23), with the host free to move (R233) and no fault
latched (R257). -/
def State.placeCommand (s : State) (c : Word) : State :=
  { s with
    faults := FaultBits.clear
    irq := { s.irq with fbh := .armed }
    events := .host (.write .word (BitVec.ofNat 32 s.cfg.vtgBase) c) :: s.events }

/-- A descriptor of `n` words, given as one number with word W0 lowest, as the whole program of a running session at the start
of RAM: the program region, the descriptor width, the command channel triggered at it, the pixel channel idle as setup
leaves it (R186, R200), and a CMD step as the next event. -/
def State.placeDescriptor (s : State) (n w : Nat) : State :=
  { s with
    faults := FaultBits.clear
    sesState := .running
    ses := { s.ses with progBase := toReg s.cfg.memBase, progWords := toReg n, descw := toReg n }
    cmd := { ctrl := cmdCtrlWord n, rptr := toReg s.cfg.memBase, trig := true }
    pix := { s.pix with ctrl := ctrlStd .word, waddr := encqAddr s.cfg, busy := false }
    ram := s.ram.writeLE s.cfg.memBase (4 * n) w
    events := .cmd :: s.events }

end Sys2Proof.Machine
end

