-- ==== Sys2Proof/Machine/Step.lean ====
section
/-! DEFINITION. One step of the machine: one atomic step of one agent (`20_memory.md` R80). -/

namespace Sys2Proof.Machine

/-- One step. A state with `FAULT` not 0 is the outcome fault (`60_exceptions.md` R257); else the next event's agent moves. -/
def step (s : State) : Host.Outcome State Fault Refusal :=
  match s.faults.lowest with
  | some b => .fault (.latched b)
  | none => agentStep s.takeEvent.1 s.takeEvent.2

/-- `s` with the instruction of a table row's bits placed for the next step to run (log 10): a host command (32 bits) as
the next write to `COMMAND`, a descriptor (64 or 128 bits) as the program the command channel is triggered at. -/
def State.withFetchWord (s : State) (nbits w : Nat) : State :=
  match formatOfBits nbits with
  | some .H => s.placeCommand (BitVec.ofNat 32 w)
  | some .S => s.placeDescriptor 2 (w % 2 ^ 64)
  | some .L => s.placeDescriptor 4 (w % 2 ^ 128)
  | none => s

end Sys2Proof.Machine
end

