-- ==== Sys2Proof/Safety.lean ====
section
/-! DEFINITION. What counts as a safe run, in the terms the statements use: the safe states (`60_exceptions.md` R257), the named
points of the cycle (`44_ring_sequencer.md` R236), the invariant that every step keeps, and what a host that plays by
the rules does (R258). -/

namespace Sys2Proof.Machine

/-! ### Safe states and the points of the cycle -/

/-- No fault bit is set; any other state is "the outcome *fault*" (R257). -/
def State.NoFault (s : State) : Prop :=
  s.faults = FaultBits.clear

/-- *Frame start* (R236). -/
structure State.FrameStart (s : State) : Prop where
  running : s.sesState = .running
  atBase : s.cmd.rptr = s.ses.progBase
  triggered : s.cmd.trig = true
  idle : s.pix.busy = false
  notPending : s.irq.pending = false
  armed : s.irq.fbh = .armed

/-- *Frame boundary* (R236). -/
structure State.FrameBoundary (s : State) : Prop where
  running : s.sesState = .running
  atEnd : s.cmd.rptr = s.ses.progBase + 4#32 * s.ses.progWords
  notTriggered : s.cmd.trig = false
  idle : s.pix.busy = false
  pending : s.irq.pending = true
  armed : s.irq.fbh = .armed

/-! ### The invariant -/

/-- The words in memory from an address on. -/
def Memory.wordsAt (m : Memory) (a : Nat) : Nat → List Word
  | 0 => []
  | n + 1 => BitVec.ofNat 32 (m.readLE a 4) :: Memory.wordsAt m (a + 4) n

/-- RAM is in canonical form and lists no address outside RAM. -/
structure State.RamOk (s : State) : Prop where
  canonical : s.ram.wf
  inside : ∀ c ∈ s.ram, inRam s.cfg c.1 1 = true

/-- Every record of the queue history fits its size: `v < 2^(8n)` (R52). -/
def State.QueueOk (s : State) : Prop :=
  ∀ r ∈ s.encq, r.value < 2 ^ (8 * r.size.bytes)

/-- What holds when no session exists (R27, R60, R203). -/
structure State.NoSession (s : State) : Prop where
  state : s.sesState = .none
  ses : s.ses = Session.zero
  enc : s.enc = Encoder.zero
  cmd : s.cmd = CmdChannel.zero
  pix : s.pix = PixChannel.zero
  irq : s.irq = Irq.zero
  live : s.live = []

/-- The session registers, the encoder, the two regions and the program are those of the geometry `g` (R27, R53, R185, R186). -/
structure State.Bound (s : State) (g : Geometry) : Prop where
  geom : geometry s.cfg s.ses.width.toNat s.ses.height.toNat s.ses.depth.toNat = some g
  mode : s.ses.mode = toReg g.mode.number
  pitch : s.ses.pitch = toReg g.pitch
  hscale : s.ses.hscale = toReg g.hScale
  vscale : s.ses.vscale = toReg g.vScale
  fbWords : s.ses.fbWords = toReg g.fbWords
  progWords : s.ses.progWords = toReg g.progWords
  descw : s.ses.descw = toReg g.descw
  handles : ∃ a b : BitVec 4, a ≠ b ∧ s.ses.chIds = chIdsWord a b
  encExpand : s.enc.expand = toReg g.enc.expand
  encShift : s.enc.shift = toReg g.enc.shift
  encBswap : s.enc.bswap = g.enc.bswap
  cmdCtrl : s.cmd.ctrl = cmdCtrlWord g.descw
  fbAligned : s.ses.fbBase.toNat % 4 = 0
  progAligned : s.ses.progBase.toNat % 4 = 0
  fbInRam : inRam s.cfg s.ses.fbBase.toNat (4 * g.fbWords) = true
  progInRam : inRam s.cfg s.ses.progBase.toNat (4 * g.progWords) = true
  disjoint : s.fbRegion.disjoint s.progRegion = true
  live : s.live = [s.fbRegion, s.progRegion]
  program : s.ram.wordsAt s.ses.progBase.toNat g.progWords =
    buildProgram s.cfg g s.ses.width.toNat s.ses.fbBase.toNat

/-- What else holds of a session that has not been started (R186, R200). -/
structure State.Built (s : State) : Prop where
  state : s.sesState = .built
  encOff : s.enc.en = false
  pc : s.cmd.rptr = 0#32
  trig : s.cmd.trig = false
  pix : s.pix = { ctrl := ctrlStd .word, waddr := encqAddr s.cfg, len := 0#32, raddr := 0#32, busy := false }
  irq : s.irq = Irq.zero

/-- What is left of the transfer in flight lies where the pixel channel may read (R74, R178): words of the pattern window, or
elements of the framebuffer. -/
def State.TransferOk (s : State) (size : ElemSize) : Prop :=
  s.pix.len ≠ 0#32 ∧ alignedFor size s.pix.raddr = true ∧
    ((size = .word ∧ inPatternWindow s.cfg s.pix.raddr.toNat (size.bytes * s.pix.len.toNat) = true) ∨
      s.fbRegion.covers s.pix.raddr.toNat (size.bytes * s.pix.len.toNat) = true)

/-- What else holds of a started session that has fetched `k` descriptors of the current frame (R235, R236). -/
structure State.Playing (s : State) (g : Geometry) (k : Nat) : Prop where
  state : s.sesState = .running
  encOn : s.enc.en = true
  enabled : s.irq.enable = true
  activeRef : s.irq.activeRef = true
  pc : s.cmd.rptr = BitVec.ofNat 32 (s.ses.progBase.toNat + 4 * g.descw * k)
  inFrame : k ≤ (timingOf s.cfg g.mode).vTotal + 1
  moving : s.cmd.trig = true ∨ s.pix.busy = true ∨ s.irq.pending = true
  trig : s.cmd.trig = true → k ≤ (timingOf s.cfg g.mode).vTotal
  busy : s.pix.busy = true → k ≤ (timingOf s.cfg g.mode).vTotal
  pending : s.irq.pending = true →
    k = (timingOf s.cfg g.mode).vTotal + 1 ∧ s.cmd.trig = false ∧ s.pix.busy = false
  reloading : s.irq.fbh = .reloading → s.irq.pending = true
  waddr : s.pix.waddr = encqAddr s.cfg
  transfer : ∃ size, ctrlSize s.pix.ctrl = some size ∧ (g.descw = 2 → size = .word) ∧
    (s.pix.busy = true → s.TransferOk size)

/-- The invariant: it rules out the states no run reaches, and every step keeps it, a step that raises a fault included. -/
structure State.Inv (s : State) : Prop where
  config : s.cfg.Admissible
  ram : s.RamOk
  queue : s.QueueOk
  session : s.NoSession ∨ ∃ g, s.Bound g ∧ (s.Built ∨ ∃ k, s.Playing g k)

/-! ### A host and a producer that play by the rules -/

/-- The host accesses R258 allows, in the words of R40, R102, R201, R290 and R74: reads of mapped words, writes of operand latches,
the six commands, START only with a session, RELOAD not in mid-transfer, and aligned reads of the session's RAM. -/
def State.PoliteAccess (s : State) : HostAccess → Prop
  | .read size addr =>
    (size = .word ∧ addr.toNat % 4 = 0 ∧ inRegisterSpace s.cfg addr.toNat = true ∧
        (readOffset s (addr.toNat - s.cfg.vtgBase)).isSome = true) ∨
      (addr.toNat % size.bytes = 0 ∧
        (s.inProgram addr.toNat size.bytes = true ∨ s.inFramebuffer addr.toNat size.bytes = true))
  | .write size addr v =>
    size = .word ∧ addr.toNat % 4 = 0 ∧ inRegisterSpace s.cfg addr.toNat = true ∧
      ((∃ r, regAt (addr.toNat - s.cfg.vtgBase) = some r ∧ r.access = .rw) ∨
        (addr.toNat = s.cfg.vtgBase ∧
          (v = 1#32 ∨ (v = 2#32 ∧ s.hasSession = true) ∨ v = 3#32 ∨
            (v = 4#32 ∧ s.pix.busy = false) ∨ v = 5#32 ∨ v = 6#32)))

/-- The events R258 allows: any step of the channels and the handler, a polite host access, and a producer write inside the
framebuffer (R78). -/
def State.Polite (s : State) : Event → Prop
  | .host access => s.PoliteAccess access
  | .cmd | .pix | .fbh => True
  | .producer size addr _ =>
    addr.toNat % size.bytes = 0 ∧ s.inFramebuffer addr.toNat size.bytes = true

/-- The states of R258: the invariant, no fault, and no trigger while a transfer is in flight. -/
structure State.Good (s : State) : Prop where
  inv : s.Inv
  noFault : s.NoFault
  noCollision : s.cmd.trig = true → s.pix.busy = false

/-! ### Runs -/

/-- `n` steps, as far as they go. -/
def stepN : Nat → State → Result
  | 0, s => .next s
  | n + 1, s =>
    match step s with
    | .next t => stepN n t
    | .fault f => .fault f
    | .refused r => .refused r

/-- Each of the next `n` events is polite when its turn comes. -/
def State.PoliteFor : Nat → State → Prop
  | 0, _ => True
  | n + 1, s => s.Polite s.takeEvent.1 ∧ ∀ t, step s = .next t → t.PoliteFor n

/-! ### One frame -/

/-- How many elements output line `l` transfers (R177, R178); `w` is the source width. -/
def lineLength (c : Config) (g : Geometry) (w l : Nat) : Nat :=
  match bandOf (timingOf c g.mode) l with
  | .frontPorch | .sync | .backPorch => patWords
  | .active => if g.hScale = 1 then g.pitch else w

/-- The steps of one line: the CMD step that loads it, then a PIX step for each element (R235). -/
def lineEvents (c : Config) (g : Geometry) (w l : Nat) : List Event :=
  .cmd :: List.replicate (lineLength c g w l) .pix

/-- The steps of one frame, in the order R235 gives: its lines, then the CMD step that loads the terminal. -/
def frameEvents (c : Config) (g : Geometry) (w : Nat) : List Event :=
  (List.range (timingOf c g.mode).vTotal).flatMap (lineEvents c g w) ++ [.cmd]

/-- The three records of a blanking line (R235, R139). -/
def patternRecords (c : Config) (m : OutputMode) (k : PatternKind) : List EncRecord :=
  (List.range patWords).map fun j => { size := .word, value := patternWord c m k j }

/-- The records of a row of the framebuffer, as RAM holds it (R235, R178). -/
def rowRecords (s : State) (g : Geometry) (len row : Nat) : List EncRecord :=
  (List.range len).map fun i =>
    { size := g.esize
      value := s.ram.readLE (s.ses.fbBase.toNat + 4 * g.pitch * row + g.esize.bytes * i) g.esize.bytes }

/-- The records of output line `l` (R235). -/
def lineRecords (s : State) (g : Geometry) (l : Nat) : List EncRecord :=
  match bandOf (timingOf s.cfg g.mode) l with
  | .sync => patternRecords s.cfg g.mode .asserted
  | .frontPorch | .backPorch => patternRecords s.cfg g.mode .released
  | .active =>
    rowRecords s g (lineLength s.cfg g s.ses.width.toNat l)
      ((l - activeStart (timingOf s.cfg g.mode)) / g.vScale)

/-- The records of one frame (R235). -/
def frameRecords (s : State) (g : Geometry) : List EncRecord :=
  (List.range (timingOf s.cfg g.mode).vTotal).flatMap (lineRecords s g)

/-! ### What does not steer the machine -/

/-- The two states differ at most in the bytes of RAM outside the program region, in the values the queue has received,
and in what the host last read. -/
structure State.SameButPixels (s t : State) : Prop where
  rest : t = { s with ram := t.ram, encq := t.encq, readData := t.readData }
  sizes : t.encq.map EncRecord.size = s.encq.map EncRecord.size
  program : ∀ a, s.progRegion.covers a 1 = true → t.ram.read a = s.ram.read a

/-- Two outcomes that agree: both next states and the same but for pixels, or the same stop. -/
def AgreeButPixels : Result → Result → Prop
  | .next s, .next t => s.SameButPixels t
  | .fault f, .fault g => f = g
  | .refused r, .refused q => r = q
  | _, _ => False

end Sys2Proof.Machine
end

