-- ==== Sys2Proof/Certificates/Slice0/Obligations.lean ====
section
/-! DEFINITION. The statements for the provers, each a closed proposition about the model. Where a statement rests on a value
or a behaviour the model chose, its docstring says so and names the log entry. -/

open Sys2Proof Sys2Proof.Machine

/-! ### Reset -/

/-- R60 over every configuration and every RAM: every register of R22 reads 0, the handler is armed and no session exists,
the pattern window shows its constant contents, the two histories and `LIVE` are empty, and RAM holds what it
held, any bytes. -/
def Obligations.ResetClearsRegisters : Prop :=
  ∀ (c : Config) (ram : Memory),
    (∀ r : Reg, readReg (State.resetWith c ram) r = 0#32) ∧
    (State.resetWith c ram).sesState = .none ∧ (State.resetWith c ram).err = .ok ∧
    (State.resetWith c ram).faults = FaultBits.clear ∧ (State.resetWith c ram).irq.fbh = .armed ∧
    (∀ off, off < 0x40 → off % 4 = 0 →
      readOffset (State.resetWith c ram) (0x100 + off) = some (toReg (patternAt c off))) ∧
    (State.resetWith c ram).encq = [] ∧ (State.resetWith c ram).envlog = [] ∧
    (State.resetWith c ram).live = [] ∧ (State.resetWith c ram).ram = ram

/-- The invariant, and with it the absence of a fault, holds after reset of every admissible configuration and every RAM in
canonical form, and of the configuration and the RAM the model chose (log 1, log 4). -/
def Obligations.ResetIsGood : Prop :=
  Config.reset.Admissible ∧ State.reset.Good ∧
    ∀ (c : Config) (ram : Memory), c.Admissible → ram.wf → (∀ x ∈ ram, inRam c x.1 1 = true) →
      (State.resetWith c ram).Good

/-- After reset no agent but the host has an enabled step: the guards of the CMD step, the PIX step, the handler's two
steps and the PRODUCER step are all false (R281). -/
def Obligations.NothingRunsByItselfAfterReset : Prop :=
  ∀ (c : Config) (ram : Memory) (z : ElemSize) (a v : Word),
    (State.resetWith c ram).cmdReady = false ∧ (State.resetWith c ram).pix.busy = false ∧
    (State.resetWith c ram).fbhEntryReady = false ∧ (State.resetWith c ram).irq.fbh = .armed ∧
    (State.resetWith c ram).irq.enable = false ∧ (State.resetWith c ram).hasSession = false ∧
    agentStep .cmd (State.resetWith c ram) = .next (State.resetWith c ram) ∧
    agentStep .pix (State.resetWith c ram) = .next (State.resetWith c ram) ∧
    agentStep .fbh (State.resetWith c ram) = .next (State.resetWith c ram) ∧
    agentStep (.producer z a v) (State.resetWith c ram) = .refused .producerWrite

/-! ### The register file -/

/-- What a host read answers. A read of a readable register returns the word it holds, and a read of the write-only `COMMAND` returns 0 without a
fault (R21, R22, R23, R40). A read of RAM of 1, 2 or 4 bytes, aligned and inside the session's program or framebuffer, returns the little-endian value of the bytes there (R71, R72,
R74). Each changes nothing else. `readData` is where the model puts what a read returns, zero-extended to the word (log 6). A misaligned read of RAM, a read of RAM outside the two regions and
a read of an unmapped address are no step of the model: each stops under a name of its own (log 7). -/
def Obligations.HostReadReturnsTheRegister : Prop :=
  (∀ (s : State) (a : Word) (off : Nat) (r : Reg),
    s.irq.fbh = .armed → s.cfg.vtgBase % 4096 = 0 → a.toNat = s.cfg.vtgBase + off → regAt off = some r →
    r.access ≠ .noAccess →
      hostStep (.read .word a) s = .next { s with readData := readReg s r } ∧
      (r.access = .wo → readReg s r = 0#32)) ∧
  (∀ (s : State) (z : ElemSize) (a : Word), s.irq.fbh = .armed → s.cfg.Admissible →
    (a.toNat % z.bytes = 0 →
      s.inProgram a.toNat z.bytes = true ∨ s.inFramebuffer a.toNat z.bytes = true →
        ∃ v : Word, hostStep (.read z a) s = .next { s with readData := v } ∧
          v.toNat = ((List.range z.bytes).map fun i => (s.ram.read (a.toNat + i)).toNat * 256 ^ i).sum) ∧
    (inRam s.cfg a.toNat 1 = true → a.toNat % z.bytes ≠ 0 → hostStep (.read z a) s = .fault .hostMisaligned) ∧
    (inRam s.cfg a.toNat 1 = true → a.toNat % z.bytes = 0 →
      s.inProgram a.toNat z.bytes = false → s.inFramebuffer a.toNat z.bytes = false →
        hostStep (.read z a) s = .refused .hostRamRead) ∧
    (inRam s.cfg a.toNat 1 = false → inRegisterSpace s.cfg a.toNat = false →
      hostStep (.read z a) s = .fault .hostUnmapped))

/-- The pattern window (R38): word `j` of the pattern of mode `m` and kind `k` is at `VTG_BASE + 0x100 + 0x20 m + 0x10 k + 4 j`
and its fourth word reads 0; the host and the pixel channel read it; a host write to it is a fault that changes nothing
else. That the pixel channel reads it with no session too is the model's choice (log 11). -/
def Obligations.PatternWindowIsReadable : Prop :=
  ∀ (s : State) (m : OutputMode) (k : PatternKind) (j : Nat) (v : Word),
    s.irq.fbh = .armed → s.cfg.Admissible → j < 4 →
      patAddr s.cfg m k = s.cfg.vtgBase + 0x100 + 0x20 * m.number + 0x10 * k.number ∧
      hostStep (.read .word (toReg (patAddr s.cfg m k + 4 * j))) s =
        .next { s with readData := toReg (patternWord s.cfg m k j) } ∧
      s.readPix (toReg (patAddr s.cfg m k + 4 * j)).toNat .word = some (patternWord s.cfg m k j) ∧
      (j = 3 → patternWord s.cfg m k j = 0) ∧
      hostStep (.write .word (toReg (patAddr s.cfg m k + 4 * j)) v) s =
        .next { s with faults := s.faults.set .badAccess }

/-- The operand latches (R26): a host write stores the word and has no other effect, whatever the session's state, and no
instruction writes them. A host write is a step only while the handler is armed (R233). -/
def Obligations.ArgumentLatchesHoldWhatTheHostWrites : Prop :=
  (∀ (s : State) (a v : Word), s.irq.fbh = .armed → s.cfg.vtgBase % 4096 = 0 →
    (a.toNat = s.cfg.vtgBase + 0x00C →
      hostStep (.write .word a v) s = .next { s with args := { s.args with width := v } }) ∧
    (a.toNat = s.cfg.vtgBase + 0x010 →
      hostStep (.write .word a v) s = .next { s with args := { s.args with height := v } }) ∧
    (a.toNat = s.cfg.vtgBase + 0x014 →
      hostStep (.write .word a v) s = .next { s with args := { s.args with depth := v } }) ∧
    (a.toNat = s.cfg.vtgBase + 0x018 →
      hostStep (.write .word a v) s = .next { s with args := { s.args with mode := v } }) ∧
    (a.toNat = s.cfg.vtgBase + 0x01C →
      hostStep (.write .word a v) s = .next { s with args := { s.args with hscale := v } })) ∧
  (∀ (i : Instr) (s t : State), exec i s = .next t → t.args = s.args)

/-- The host accesses that break R39 or R40 set `BAD_ACCESS` and change nothing else; a read returns 0. They are: another width
or alignment; the queue port; an unmapped offset; a write to anything but `COMMAND` and the latches. -/
def Obligations.BadAccessSetsItsBit : Prop :=
  ∀ (s : State) (z : ElemSize) (a v : Word),
    s.irq.fbh = .armed → inRegisterSpace s.cfg a.toNat = true →
      ((z ≠ .word ∨ a.toNat % 4 ≠ 0 ∨ regAt (a.toNat - s.cfg.vtgBase) = some .encq ∨
          (regAt (a.toNat - s.cfg.vtgBase) = none ∧
            ¬ (0x100 ≤ a.toNat - s.cfg.vtgBase ∧ a.toNat - s.cfg.vtgBase < 0x140))) →
        hostStep (.read z a) s = .next { s with readData := 0#32, faults := s.faults.set .badAccess }) ∧
      ((z ≠ .word ∨ a.toNat % 4 ≠ 0 ∨ regAt (a.toNat - s.cfg.vtgBase) = none ∨
          (∃ r, regAt (a.toNat - s.cfg.vtgBase) = some r ∧ (r.access = .ro ∨ r.access = .noAccess))) →
        hostStep (.write z a v) s = .next { s with faults := s.faults.set .badAccess })

/-- The fields of the flag registers: `STATUS` (R24), `FAULT` (R25), `ENC_CTRL` (R35), `CMDCH_STAT` (R34), `PIX_STAT` (R31), `IRQ_STAT`
(R36), reserved bits reading 0. -/
def Obligations.FlagRegistersShowTheirBits : Prop :=
  ∀ s : State,
    (((readReg s .status).extractLsb' 0 2).toNat = s.sesState.code ∧
      (readReg s .status).extractLsb' 2 2 = 0#2 ∧
      ((readReg s .status).extractLsb' 4 3).toNat = s.err.code ∧
      (readReg s .status).extractLsb' 7 25 = 0#25) ∧
    ((readReg s .fault).getLsbD 0 = s.faults.illegalCmd ∧ (readReg s .fault).getLsbD 1 = s.faults.badState ∧
      (readReg s .fault).getLsbD 2 = s.faults.pixOverwrite ∧ (readReg s .fault).getLsbD 3 = s.faults.badDesc ∧
      (readReg s .fault).getLsbD 4 = s.faults.busError ∧ (readReg s .fault).getLsbD 5 = s.faults.badAccess ∧
      (readReg s .fault).extractLsb' 6 26 = 0#26) ∧
    ((readReg s .encCtrl).getLsbD 0 = s.enc.en ∧ (readReg s .encCtrl).getLsbD 1 = s.enc.bswap ∧
      (readReg s .encCtrl).extractLsb' 2 30 = 0#30) ∧
    ((readReg s .cmdchStat).getLsbD 0 = s.cmd.trig ∧ (readReg s .cmdchStat).extractLsb' 1 31 = 0#31) ∧
    ((readReg s .pixStat).getLsbD 0 = s.pix.busy ∧ (readReg s .pixStat).extractLsb' 1 31 = 0#31) ∧
    ((readReg s .irqStat).getLsbD 0 = s.irq.pending ∧ (readReg s .irqStat).getLsbD 1 = s.irq.enable ∧
      ((readReg s .irqStat).getLsbD 2 = true ↔ s.irq.fbh = .reloading) ∧
      (readReg s .irqStat).getLsbD 3 = s.irq.activeRef ∧ (readReg s .irqStat).extractLsb' 4 28 = 0#28)

/-! ### Encodings -/

/-- Decoding the bytes of a well-formed instruction gives it back and leaves the rest: every instruction, every operand at every
value its encoding admits (R101, R104, R105, R107, R108). -/
def Obligations.DecodeUndoesEncode : Prop :=
  ∀ (i : Instr) (rest : List Byte), i.wf = true → decode i.format (encode i ++ rest) = .ok (i, rest)

/-- Whatever decodes is a well-formed instruction of that format, and its encoding is the bytes it was read from: no two byte
strings of one format are the same instruction. -/
def Obligations.EncodeUndoesDecode : Prop :=
  ∀ (f : Format) (bs rest : List Byte) (i : Instr), decode f bs = .ok (i, rest) →
    i.wf = true ∧ i.format = f ∧ encode i ++ rest = bs

/-- A few words of each format and the instructions they stand for (R101, R104, R105, R108): a sanity statement. -/
def Obligations.SampleWordsDecode : Prop :=
  decodeTableWord 32 0x00000001 = some .construct ∧ decodeTableWord 32 0x00000006 = some .enccalc ∧
  decodeTableWord 32 0x00000007 = none ∧ decodeTableWord 32 0x00000101 = none ∧
  decodeTableWord 64 0x2004001000000003 = some (.xferS 3#32 0x20040010#32) ∧
  decodeTableWord 64 0x0000000000000000 = some (.termS 0#32) ∧
  decodeTableWord 128 0x2000000400000004400000F0000000D3 =
    some (.xferL .byte 0x400000F0#32 4#32 0x20000004#32) ∧
  decodeTableWord 128 0x0000000000000000400000F0000000DB = some (.termL .word 0x400000F0#32 0#32) ∧
  decodeTableWord 128 0x2000000400000004400000F0000000DF = none

/-- The reserved command words (R102): opcode 0, an opcode from 7 on, or a bit set above bit 7. Writing one sets `ILLEGAL_CMD`,
changes nothing else, and the state it leaves is a fault. A host write is a step only while the handler is armed (R233). -/
def Obligations.ReservedCommandWordFaults : Prop :=
  ∀ (s : State) (a c : Word),
    s.irq.fbh = .armed → s.cfg.vtgBase % 4096 = 0 → a.toNat = s.cfg.vtgBase →
    ((c.extractLsb' 0 8).toNat = 0 ∨ 7 ≤ (c.extractLsb' 0 8).toNat ∨ c.extractLsb' 8 24 ≠ 0#24) →
      hostStep (.write .word a c) s = .next { s with faults := s.faults.set .illegalCmd } ∧
      ∃ b, step { s with faults := s.faults.set .illegalCmd } = .fault (.latched b)

/-- The legal control words, field by field (R108): `EN`, `HIPRI`, `INCR_READ`, `CHAIN_CMD`, `IRQ_ON_NULL` are 1, `INCR_WRITE` and the reserved
bits are 0, `SIZE` is not 3; there is one for each element size, `0xD3`, `0xD7`, `0xDB`, and every other value is
illegal. -/
def Obligations.LegalControlWords : Prop :=
  ∀ w : Word,
    ((ctrlSize w).isSome = true ↔
      w.getLsbD 0 = true ∧ w.getLsbD 1 = true ∧ w.extractLsb' 2 2 ≠ 3#2 ∧ w.getLsbD 4 = true ∧
        w.getLsbD 5 = false ∧ w.getLsbD 6 = true ∧ w.getLsbD 7 = true ∧ w.extractLsb' 8 24 = 0#24) ∧
    (∀ z, ctrlSize w = some z ↔ w = ctrlStd z) ∧
    ctrlStd .byte = 0x000000D3#32 ∧ ctrlStd .half = 0x000000D7#32 ∧ ctrlStd .word = 0x000000DB#32 ∧
    (∀ z, ctrlSize w = some z → z.bytes = 2 ^ (w.extractLsb' 2 2).toNat)

/-! ### Timing table, patterns, encoder parameters -/

/-- Mode selection (R134) on the two active sizes 640 and 720: a width that divides 640 selects mode 0 even when it also
divides 720; one that divides only 720 selects mode 1; 0 and every other width select none. -/
def Obligations.WidthSelectsTheMode : Prop :=
  ∀ (c : Config) (w : Nat), c.Admissible →
    (selectMode c w = some .mode0 ↔ w ∣ 640) ∧
    (selectMode c w = some .mode1 ↔ ¬ w ∣ 640 ∧ w ∣ 720) ∧
    (selectMode c w = none ↔ ¬ w ∣ 640 ∧ ¬ w ∣ 720) ∧
    (∀ x ∈ [1, 2, 4, 5, 8, 10, 16, 20, 40, 80], selectMode c x = some .mode0 ∧ x ∣ 720) ∧
    (∀ x ∈ [720, 360, 240, 180, 144, 120, 90], selectMode c x = some .mode1) ∧
    (∀ x ∈ [0, 641, 719, 721, 1000, 300], selectMode c x = none)

/-- The four bands are consecutive, in this order, and partition the lines of a frame (R133). -/
def Obligations.BandsPartitionTheFrame : Prop :=
  ∀ (t : Timing) (l : Nat), l < t.vTotal →
    (bandOf t l = .frontPorch ↔ l < t.vFrontPorch) ∧
    (bandOf t l = .sync ↔ t.vFrontPorch ≤ l ∧ l < t.vFrontPorch + t.vSyncWidth) ∧
    (bandOf t l = .backPorch ↔
      t.vFrontPorch + t.vSyncWidth ≤ l ∧ l < t.vFrontPorch + t.vSyncWidth + t.vBackPorch) ∧
    (bandOf t l = .active ↔ t.vFrontPorch + t.vSyncWidth + t.vBackPorch ≤ l ∧ l < t.vTotal)

/-- The canned patterns (R139): the three words; their counts add up to `h_total`; the two patterns of a mode differ in bit 17 of
every word and in nothing else; each word is below `2^18`; the worked example. -/
def Obligations.PatternContents : Prop :=
  (∀ (c : Config) (m : OutputMode) (k : PatternKind), (timingOf c m).Admissible →
    let t := timingOf c m
    let ph := (polarityOf c m).hsync.toNat
    let pv := (polarityOf c m).vsync.toNat
    let vs := if k.number = 1 then pv else 1 - pv
    patternWord c m k 0 = t.hFrontPorch + (1 - ph) * 0x10000 + vs * 0x20000 ∧
    patternWord c m k 1 = t.hSyncWidth + ph * 0x10000 + vs * 0x20000 ∧
    patternWord c m k 2 = t.hBackPorch + t.hActive + (1 - ph) * 0x10000 + vs * 0x20000 ∧
    patternWord c m k 0 % 65536 + patternWord c m k 1 % 65536 + patternWord c m k 2 % 65536 = hTotal t ∧
    (∀ j, j < 3 → patternWord c m k j < 2 ^ 18 ∧
      toReg (patternWord c m .asserted j) ^^^ toReg (patternWord c m .released j) = 0x00020000#32)) ∧
  (∀ c : Config, c.tt0.hFrontPorch = 16 → c.tt0.hSyncWidth = 96 → c.tt0.hBackPorch = 48 → c.tt0.hActive = 640 →
    c.pol0 = { hsync := false, vsync := false } →
      (List.range 3).map (patternWord c .mode0 .released) = [0x00030010, 0x00020060, 0x000302B0] ∧
      (List.range 3).map (patternWord c .mode0 .asserted) = [0x00010010, 0x00000060, 0x000102B0])

/-- `TIMING` (R135, R136): for mode 0 or 1 the ten `TQ_*` registers hold the record's numbers and the polarity pair and `ERR` is `OK`; for any
other mode `ERR` is `ConfigurationError` and every `TQ_*` is unchanged. Nothing else changes, no byte of memory, in any session state, and
issuing it again leaves the same state. The command word, and the worked example of mode 0. -/
def Obligations.TimingLatchesTheRecord : Prop :=
  (∀ (s : State) (m : OutputMode), s.args.mode.toNat = m.number →
    ∃ q : TimingQuery,
      exec .timing s = .next { s with tq := q, err := .ok } ∧
      exec .timing { s with tq := q, err := .ok } = .next { s with tq := q, err := .ok } ∧
      (s.cfg.Admissible →
        q.hFrontPorch.toNat = (timingOf s.cfg m).hFrontPorch ∧ q.hSyncWidth.toNat = (timingOf s.cfg m).hSyncWidth ∧
        q.hBackPorch.toNat = (timingOf s.cfg m).hBackPorch ∧ q.hActive.toNat = (timingOf s.cfg m).hActive ∧
        q.vFrontPorch.toNat = (timingOf s.cfg m).vFrontPorch ∧ q.vSyncWidth.toNat = (timingOf s.cfg m).vSyncWidth ∧
        q.vBackPorch.toNat = (timingOf s.cfg m).vBackPorch ∧ q.vActive.toNat = (timingOf s.cfg m).vActive ∧
        q.vTotal.toNat = (timingOf s.cfg m).vFrontPorch + (timingOf s.cfg m).vSyncWidth +
          (timingOf s.cfg m).vBackPorch + (timingOf s.cfg m).vActive ∧
        q.pol.toNat = (polarityOf s.cfg m).hsync.toNat + 2 * (polarityOf s.cfg m).vsync.toNat ∧
        (m = .mode0 → q.hActive = 640#32 ∧ q.vActive = 480#32 ∧
          q.vTotal = q.vFrontPorch + q.vSyncWidth + q.vBackPorch + 480#32))) ∧
  (∀ s : State, 2 ≤ s.args.mode.toNat → exec .timing s = .next { s with err := .configurationError }) ∧
  decode .H (bytesOfWord 0x00000005#32) = .ok (.timing, [])

/-- `enc_params` (R161): when it refuses; what it answers otherwise; and the whole table of its results at scales 1 and 2. -/
def Obligations.EncoderParameters : Prop :=
  ∀ c : Config,
    (∀ d k, encParams c d k = none ↔ d ∉ [1, 2, 4, 8, 16, 32] ∨ k = 0 ∨ 32 ≤ 32 / d % 32 * k) ∧
    (∀ d k p, encParams c d k = some p →
      ∃ e, expansionOf c d = some e ∧
        p.expand = e.l0.rot.toNat + 32 * e.l0.width.toNat + 2 ^ 10 * e.l1.rot.toNat + 2 ^ 15 * e.l1.width.toNat +
          2 ^ 20 * e.l2.rot.toNat + 2 ^ 25 * e.l2.width.toNat ∧
        p.shift = d % 32 + 256 * (32 / d % 32 * k) ∧ p.bswap = decide (d = 16)) ∧
    (encParams c 1 1 = some ⟨0x0390E439, 0x00000001, false⟩ ∧ encParams c 1 2 = some ⟨0x0390E439, 0x00000001, false⟩) ∧
    (encParams c 2 1 = some ⟨0x05A1685A, 0x00001002, false⟩ ∧ encParams c 2 2 = none) ∧
    (encParams c 4 1 = some ⟨packExpand c.expand4, 0x00000804, false⟩ ∧
      encParams c 4 2 = some ⟨packExpand c.expand4, 0x00001004, false⟩) ∧
    (encParams c 8 1 = some ⟨packExpand c.expand8, 0x00000408, false⟩ ∧
      encParams c 8 2 = some ⟨packExpand c.expand8, 0x00000808, false⟩) ∧
    (encParams c 16 1 = some ⟨packExpand c.expand16, 0x00000210, true⟩ ∧
      encParams c 16 2 = some ⟨packExpand c.expand16, 0x00000410, true⟩) ∧
    (encParams c 32 1 = some ⟨packExpand c.expand32, 0x00000100, false⟩ ∧
      encParams c 32 2 = some ⟨packExpand c.expand32, 0x00000200, false⟩) ∧
    (∀ k, 1 ≤ k → encParams c 1 k ≠ none)

/-- The two packed words have the layout of R35: each lane's rotation and width stand in their fields of `ENC_EXPAND`, the shift
amount and the count in theirs of `ENC_SHIFT`, the reserved bits are 0 (R154, R157). -/
def Obligations.EncoderWordFields : Prop :=
  ∀ (c : Config) (d k : Nat) (p : EncParams) (e : Expansion),
    encParams c d k = some p → expansionOf c d = some e →
      (toReg p.expand).extractLsb' 0 5 = e.l0.rot ∧ (toReg p.expand).extractLsb' 5 5 = e.l0.width ∧
      (toReg p.expand).extractLsb' 10 5 = e.l1.rot ∧ (toReg p.expand).extractLsb' 15 5 = e.l1.width ∧
      (toReg p.expand).extractLsb' 20 5 = e.l2.rot ∧ (toReg p.expand).extractLsb' 25 5 = e.l2.width ∧
      (toReg p.expand).extractLsb' 30 2 = 0#2 ∧
      ((toReg p.shift).extractLsb' 0 5).toNat = d % 32 ∧ (toReg p.shift).extractLsb' 5 3 = 0#3 ∧
      ((toReg p.shift).extractLsb' 8 5).toNat = 32 / d % 32 * k ∧ (toReg p.shift).extractLsb' 13 19 = 0#19

/-- `ENCCALC` (R160): the answer of `enc_params` on the two operand latches goes to the `EQ_*` registers with `ERR` `OK`; a refusal
is `ConfigurationError` and leaves them. Nothing else changes, the encoder's own registers included, in any session state. The command word, the
corner cases and the worked example. -/
def Obligations.EnccalcLatchesTheAnswer : Prop :=
  ∀ s : State,
    (∀ p, encParams s.cfg s.args.depth.toNat s.args.hscale.toNat = some p →
      exec .enccalc s =
        .next { s with eq := { expand := toReg p.expand, shift := toReg p.shift, bswap := p.bswap }, err := .ok }) ∧
    (encParams s.cfg s.args.depth.toNat s.args.hscale.toNat = none →
      exec .enccalc s = .next { s with err := .configurationError }) ∧
    (s.args.depth = 1#32 → s.args.hscale = 720#32 →
      ∃ q, exec .enccalc s = .next { s with eq := q, err := .ok } ∧ q.shift = 1#32) ∧
    ((s.args.depth = 32#32 ∧ s.args.hscale = 32#32) ∨ (s.args.depth = 3#32 ∧ s.args.hscale = 1#32) ∨
        (s.args.depth = 8#32 ∧ s.args.hscale = 0#32) →
      exec .enccalc s = .next { s with err := .configurationError }) ∧
    (s.args.depth = 16#32 → s.args.hscale = 2#32 →
      exec .enccalc s = .next
        { s with
          eq := { expand := toReg (packExpand s.cfg.expand16), shift := 0x00000410#32, bswap := true }, err := .ok }) ∧
    decode .H (bytesOfWord 0x00000006#32) = .ok (.enccalc, [])

/-! ### The builder -/

/-- `geometry` (R171): the causes of a refusal, in the rule's words, and that CONSTRUCT makes `ConfigurationError` of it; the record otherwise; and the
bounds that follow. -/
def Obligations.GeometryRecord : Prop :=
  ∀ (c : Config) (w h d : Nat), c.Admissible →
    (geometry c w h d = none ↔
      d ∉ [1, 2, 4, 8, 16, 32] ∨ w = 0 ∨ h = 0 ∨
        (∀ m, selectMode c w = some m →
          (timingOf c m).vActive % h ≠ 0 ∨ (1 < (timingOf c m).hActive / w ∧ d < 8) ∨
            encParams c d ((timingOf c m).hActive / w) = none)) ∧
    (geometry c w h d = none →
      ∀ s : State, s.cfg = c → s.sesState = .none →
        s.args.width.toNat = w → s.args.height.toNat = h → s.args.depth.toNat = d →
          exec .construct s = .next { s with err := .configurationError }) ∧
    (∀ g, geometry c w h d = some g →
      selectMode c w = some g.mode ∧
      g.hScale = (timingOf c g.mode).hActive / w ∧ g.hScale * w = (timingOf c g.mode).hActive ∧
      g.vScale = (timingOf c g.mode).vActive / h ∧ g.vScale * h = (timingOf c g.mode).vActive ∧
      1 ≤ g.hScale ∧ 1 ≤ g.vScale ∧ encParams c d g.hScale = some g.enc ∧
      g.pitch = (w * d + 31) / 32 ∧ g.fbWords = g.pitch * h ∧
      g.descw = (if g.hScale = 1 then 2 else 4) ∧ g.progWords = ((timingOf c g.mode).vTotal + 1) * g.descw ∧
      g.esize.bytes = (if g.hScale = 1 then 4 else d / 8) ∧
      w ≤ 720 ∧ h ≤ 480 ∧ g.pitch ≤ 720 ∧ g.fbWords ≤ 307200 ∧ g.progWords ≤ 2 ^ 18)

/-- The two sizes computed before anything is allocated. The pitch (R172) is the least number of 32-bit words that hold a row, and `fb_words` is the pitch
times the height; the examples. The program (R174) has one descriptor a line and the terminal, `descw` words each, 2 when `h_scale` is 1
and 4 when it is more; the list the builder makes has exactly that many words; the number depends on the mode and on whether `h_scale` is 1, and on
nothing else. -/
def Obligations.SizesAreComputedBeforehand : Prop :=
  (∀ w d : Nat, w * d ≤ 32 * pitchOf w d ∧ ∀ p, w * d ≤ 32 * p → pitchOf w d ≤ p) ∧
  (pitchOf 640 32 = 640 ∧ pitchOf 640 1 = 20 ∧ pitchOf 720 1 = 23 ∧ pitchOf 90 4 = 12 ∧ pitchOf 5 1 = 1) ∧
  (∀ (c : Config) (w h d fb : Nat) (g : Geometry), geometry c w h d = some g →
    g.pitch = pitchOf w d ∧ g.fbWords = g.pitch * h ∧
    (g.hScale = 1 → g.descw = 2) ∧ (1 < g.hScale → g.descw = 4) ∧
    g.progWords = ((timingOf c g.mode).vTotal + 1) * g.descw ∧
    (buildProgram c g w fb).length = g.progWords) ∧
  (∀ (c : Config) (w h d w' h' d' : Nat) (g g' : Geometry),
    geometry c w h d = some g → geometry c w' h' d' = some g' → g.mode = g'.mode →
    (g.hScale = 1 ↔ g'.hScale = 1) → g.progWords = g'.progWords)

/-- Walking a built program in order reproduces the bands (R176, R177, R178, R179, R188): descriptor `l` is the transfer of line
`l`, and the last is the terminal, the only one of length 0. In format S the decoder reads `XFER.S 3` from the pattern of the
line's band, or `XFER.S pitch` from the line's row; in format L the `XFER.L` with the standard control word and the queue port. -/
def Obligations.ProgramReproducesTheBands : Prop :=
  ∀ (c : Config) (w h d : Nat) (fb : Word) (g : Geometry),
    c.Admissible → geometry c w h d = some g →
    let t := timingOf c g.mode
    let words (i : Nat) := ((buildProgram c g w fb.toNat).drop (g.descw * i)).take g.descw
    let row (l : Nat) := toReg (fb.toNat + 4 * g.pitch * ((l - activeStart t) / g.vScale))
    (g.descw = 2 →
      (∀ l, l < t.vTotal → ∃ w0 w1, words l = [w0, w1] ∧ decodeS w0 w1 =
        match bandOf t l with
        | .sync => .xferS 3#32 (toReg (patAddr c g.mode .asserted))
        | .frontPorch | .backPorch => .xferS 3#32 (toReg (patAddr c g.mode .released))
        | .active => .xferS (toReg g.pitch) (row l)) ∧
      words t.vTotal = [0#32, 0#32]) ∧
    (g.descw = 4 →
      (∀ l, l < t.vTotal → ∃ w0 w1 w2 w3, words l = [w0, w1, w2, w3] ∧ decodeL w0 w1 w2 w3 =
        match bandOf t l with
        | .sync => .ok (.xferL .word (encqAddr c) 3#32 (toReg (patAddr c g.mode .asserted)))
        | .frontPorch | .backPorch => .ok (.xferL .word (encqAddr c) 3#32 (toReg (patAddr c g.mode .released)))
        | .active => .ok (.xferL (elemOfDepth d) (encqAddr c) (toReg w) (row l))) ∧
      words t.vTotal = [0x000000DB#32, encqAddr c, 0#32, 0#32])

/-- The active lines (R178, R188 c): they are exactly the lines `active_start + v_scale r + i` with `r` a row and `i` below `v_scale`, and each has source row `r`:
rows `0 .. h - 1` in order, each in `v_scale` consecutive lines. Every byte such a line makes the pixel channel read lies inside the framebuffer, in its own row, and
every row is word-aligned. -/
def Obligations.ActiveLinesReadTheirRows : Prop :=
  ∀ (c : Config) (w h d fb : Nat) (g : Geometry), geometry c w h d = some g →
    let t := timingOf c g.mode
    t.vTotal = activeStart t + h * g.vScale ∧
    (∀ r i, r < h → i < g.vScale →
      activeStart t + g.vScale * r + i < t.vTotal ∧
      bandOf t (activeStart t + g.vScale * r + i) = .active ∧
      sourceRow t g (activeStart t + g.vScale * r + i) = r) ∧
    (∀ l, l < t.vTotal → bandOf t l = .active →
      (∃ r i, r < h ∧ i < g.vScale ∧ l = activeStart t + g.vScale * r + i) ∧
      rowAddr g fb (sourceRow t g l) + g.esize.bytes * lineLength c g w l ≤ rowAddr g fb (sourceRow t g l + 1) ∧
      rowAddr g fb (sourceRow t g l + 1) ≤ fb + 4 * g.fbWords ∧
      (fb % 4 = 0 → rowAddr g fb (sourceRow t g l) % 4 = 0))

/-! ### CONSTRUCT -/

/-- A successful CONSTRUCT (R180, R186): with no session, an accepted geometry and all three requests answered (the answers are the model's lists, log 3), the
next state is this one: the program in RAM, the registers of R186 and no others, both regions in `LIVE`, the three lines of the log,
`SES_STATE` `BUILT`, `ERR` `OK`. -/
def Obligations.ConstructSucceeds : Prop :=
  ∀ (s : State) (g : Geometry) (fb prog : Word) (a b : BitVec 4) (as : List (Option Word))
    (cs : List (Option (BitVec 4 × BitVec 4))),
    s.sesState = .none →
    geometry s.cfg s.args.width.toNat s.args.height.toNat s.args.depth.toNat = some g →
    s.allocs = some fb :: some prog :: as → s.claims = some (a, b) :: cs →
    admissibleAlloc s g.fbWords fb = true → admissibleAlloc s g.progWords prog = true →
    Region.disjoint { base := prog.toNat, words := g.progWords } { base := fb.toNat, words := g.fbWords } = true →
    a ≠ b →
      exec .construct s = .next
        { s with
          sesState := .built
          err := .ok
          ses :=
            { mode := toReg g.mode.number, width := s.args.width, height := s.args.height, depth := s.args.depth
              pitch := toReg g.pitch, hscale := toReg g.hScale, vscale := toReg g.vScale
              fbBase := fb, fbWords := toReg g.fbWords, progBase := prog, progWords := toReg g.progWords
              descw := toReg g.descw, chIds := toReg (a.toNat + 16 * b.toNat + 256) }
          enc := { expand := toReg g.enc.expand, shift := toReg g.enc.shift, en := false, bswap := g.enc.bswap }
          cmd := { s.cmd with ctrl := if g.hScale = 1 then 0x0000007B#32 else 0x000000BB#32 }
          pix := { s.pix with ctrl := 0x000000DB#32, waddr := encqAddr s.cfg }
          ram := s.ram.writeWords prog.toNat (buildProgram s.cfg g s.args.width.toNat fb.toNat)
          live := s.live ++ [{ base := fb.toNat, words := g.fbWords }, { base := prog.toNat, words := g.progWords }]
          envlog := s.envlog ++
            [.alloc fb.toNat g.fbWords, .alloc prog.toNat g.progWords, .claim a b]
          allocs := as
          claims := cs }

/-- CONSTRUCT's checks in the order of R183, each with the state it leaves (R250, R252, R253, R255; the environment's answers are the model's lists, log 3): a session; a refused
geometry; no framebuffer; no program, with the framebuffer freed; no channels, with both freed in reverse order. -/
def Obligations.ConstructChecksInOrder : Prop :=
  ∀ s : State,
    (s.sesState ≠ .none → exec .construct s = .next { s with err := .sessionConflict }) ∧
    (s.sesState = .none →
      (geometry s.cfg s.args.width.toNat s.args.height.toNat s.args.depth.toNat = none →
        exec .construct s = .next { s with err := .configurationError }) ∧
      (∀ g, geometry s.cfg s.args.width.toNat s.args.height.toNat s.args.depth.toNat = some g →
        (∀ as, s.allocs = none :: as →
          exec .construct s = .next
            { s with err := .resourceExhausted, allocs := as, envlog := s.envlog ++ [.allocFail g.fbWords] }) ∧
        (∀ fb, admissibleAlloc s g.fbWords fb = true →
          (∀ as, s.allocs = some fb :: none :: as →
            exec .construct s = .next
              { s with
                err := .resourceExhausted
                allocs := as
                envlog := s.envlog ++
                  [.alloc fb.toNat g.fbWords, .allocFail g.progWords, .free fb.toNat] }) ∧
          (∀ prog as cs, s.allocs = some fb :: some prog :: as → s.claims = none :: cs →
            admissibleAlloc s g.progWords prog = true →
            Region.disjoint { base := prog.toNat, words := g.progWords }
              { base := fb.toNat, words := g.fbWords } = true →
            exec .construct s = .next
              { s with
                err := .channelUnavailable
                allocs := as
                claims := cs
                envlog := s.envlog ++
                  [.alloc fb.toNat g.fbWords, .alloc prog.toNat g.progWords, .claimFail, .free prog.toNat,
                    .free fb.toNat] }))))

/-- A failed CONSTRUCT leaves no trace but `STATUS.ERR` and `ENVLOG` (R187), whatever the environment answers: every register, RAM, `LIVE` and
`SES_STATE` hold what they held, and after `SessionConflict` or `ConfigurationError` the log does too. The answers used up are the model's
own fields (log 3). -/
def Obligations.FailedConstructLeavesNoTrace : Prop :=
  ∀ s t : State, exec .construct s = .next t → t.err ≠ .ok →
    t = { s with err := t.err, envlog := t.envlog, allocs := t.allocs, claims := t.claims, drawn := t.drawn } ∧
    (∃ l, t.envlog = s.envlog ++ l) ∧
    (t.err = .sessionConflict ∨ t.err = .configurationError →
      t = { s with err := t.err })

/-- In the model `exec` answers a next state for every instruction, operand and state. The rules say this of an instruction that completes or ends in an error code; that it also holds of one that
raises a fault (START without a session, the faults of a descriptor), where the rules end the step with the outcome fault (R12, R257), is the model's reading of a raised fault: a next state with the
bit set, and the outcome fault of the step after it (log 5, DEDUCED). This clause does not tell an effect from a raised fault: the statements of the single instructions do.
CONSTRUCT ends with `OK` exactly when it created a session, and otherwise leaves `SES_STATE` as it was, whatever the environment answers (R180). -/
def Obligations.EveryInstructionAnswersANextState : Prop :=
  (∀ (i : Instr) (s : State), ∃ t, exec i s = .next t) ∧
  (∀ s t : State, exec .construct s = .next t →
    (t.err = .ok ↔ s.sesState = .none ∧ t.sesState = .built) ∧ (t.err ≠ .ok → t.sesState = s.sesState))

/-- What CONSTRUCT writes and what it leaves (R180, R184, R185, R186): the operand and result latches, `FAULT`, `IRQ_STAT`, the pointer and the trigger, `PIX_LEN`, `PIX_RADDR`, `PIX_STAT` and
the queue history are unchanged, and when it fails all of RAM; when it succeeds word `j` of the built program is at `PROG_BASE + 4 j` and every byte
outside the program is unchanged. Both regions are word-aligned, inside RAM, and disjoint from each other and from every region that was live (R53, R181). -/
def Obligations.ConstructFrame : Prop :=
  ∀ s t : State, s.ram.wf → exec .construct s = .next t →
    t = { s with
          sesState := t.sesState, err := t.err, ses := t.ses, enc := t.enc
          cmd := { s.cmd with ctrl := t.cmd.ctrl }
          pix := { s.pix with ctrl := t.pix.ctrl, waddr := t.pix.waddr }
          ram := t.ram, live := t.live, envlog := t.envlog
          allocs := t.allocs, claims := t.claims, drawn := t.drawn } ∧
    (t.err ≠ .ok → ∀ a, t.ram.read a = s.ram.read a) ∧
    (t.err = .ok →
      ∃ g, geometry s.cfg s.args.width.toNat s.args.height.toNat s.args.depth.toNat = some g ∧
        (∀ j, j < g.progWords →
          (buildProgram s.cfg g s.args.width.toNat t.ses.fbBase.toNat)[j]? =
            some (BitVec.ofNat 32 (t.ram.readLE (t.ses.progBase.toNat + 4 * j) 4))) ∧
        (∀ a, a < t.ses.progBase.toNat ∨ t.ses.progBase.toNat + 4 * g.progWords ≤ a →
          t.ram.read a = s.ram.read a) ∧
        t.ses.progBase.toNat % 4 = 0 ∧ t.ses.fbBase.toNat % 4 = 0 ∧
        inRam s.cfg t.ses.progBase.toNat (4 * g.progWords) = true ∧
        inRam s.cfg t.ses.fbBase.toNat (4 * g.fbWords) = true ∧
        Region.disjoint { base := t.ses.progBase.toNat, words := g.progWords }
          { base := t.ses.fbBase.toNat, words := g.fbWords } = true ∧
        (∀ q ∈ s.live, Region.disjoint { base := t.ses.progBase.toNat, words := g.progWords } q = true ∧
          Region.disjoint { base := t.ses.fbBase.toNat, words := g.fbWords } q = true))

/-! ### START, STOP, RELOAD -/

/-- `START` (R200, R201, R202): without a session the fault `BAD_STATE` and nothing else; when running `SessionConflict` and nothing else; when
built the six writes and `OK`, and nothing else. In every state a run reaches with a built session `PENDING` is 0 and the handler armed, and START enables the CMD step; so the worked
example's values: after START of a session of depth 32, `CMDCH_RPTR` is `PROG_BASE`, `CMDCH_STAT` 1, `IRQ_STAT` `0xA`, `ENC_CTRL` 1, `STATUS` 2. The command word. -/
def Obligations.StartBeginsPlayback : Prop :=
  decode .H (bytesOfWord 0x00000002#32) = .ok (.start, []) ∧
  (∀ s : State, s.Inv → s.sesState = .built →
    s.irq.pending = false ∧ s.irq.fbh = .armed ∧
    (∃ t, exec .start s = .next t ∧ t.cmdReady = true) ∧
    (s.ses.depth = 32#32 →
      ∃ t, exec .start s = .next t ∧ readReg t .cmdchRptr = s.ses.progBase ∧ readReg t .cmdchStat = 1#32 ∧
        readReg t .irqStat = 0x0000000A#32 ∧ readReg t .encCtrl = 1#32 ∧ readReg t .status = 2#32)) ∧
  ∀ s : State,
    (s.sesState = .none → exec .start s = .next { s with faults := s.faults.set .badState }) ∧
    (s.sesState = .running → exec .start s = .next { s with err := .sessionConflict }) ∧
    (s.sesState = .built →
      exec .start s = .next
        { s with
          enc := { s.enc with en := true }
          irq := { s.irq with activeRef := true, enable := true }
          cmd := { s.cmd with rptr := s.ses.progBase, trig := true }
          sesState := .running
          err := .ok })

/-- `STOP` (R203, R204): without a session `OK` and nothing else; with one, both channels, the interrupt, the encoder and the session registers
are 0, both regions and both channels are returned in the reverse order of their acquisition, and nothing else changes, RAM and
the queue history included. -/
def Obligations.StopReleasesEverything : Prop :=
  ∀ s : State,
    (s.sesState = .none → exec .stop s = .next { s with err := .ok }) ∧
    (s.sesState ≠ .none →
      exec .stop s = .next
        { s with
          cmd := { ctrl := 0, rptr := 0, trig := false }
          pix := { ctrl := 0, waddr := 0, len := 0, raddr := 0, busy := false }
          irq := { pending := false, enable := false, fbh := .armed, activeRef := false }
          enc := { expand := 0, shift := 0, en := false, bswap := false }
          ses :=
            { mode := 0, width := 0, height := 0, depth := 0, pitch := 0, hscale := 0, vscale := 0, fbBase := 0,
              fbWords := 0, progBase := 0, progWords := 0, descw := 0, chIds := 0 }
          sesState := .none
          err := .ok
          live :=
            (s.live.erase { base := s.ses.progBase.toNat, words := s.ses.progWords.toNat }).erase
              { base := s.ses.fbBase.toNat, words := s.ses.fbWords.toNat }
          envlog := s.envlog ++
            [.unclaim (s.ses.chIds.extractLsb' 0 4) (s.ses.chIds.extractLsb' 4 4),
              .free s.ses.progBase.toNat, .free s.ses.fbBase.toNat] })

/-- "After STOP the machine is in the reset state" but for the operand latches, the two result latches, `FAULT`, the histories and RAM (R203),
and, in the model, its own fields. -/
def Obligations.StopReturnsToTheResetState : Prop :=
  ∀ s : State, s.Inv →
    ∃ t, exec .stop s = .next t ∧
      t = { State.resetWith s.cfg s.ram with
            args := s.args, tq := s.tq, eq := s.eq, faults := s.faults, encq := s.encq, envlog := t.envlog
            events := s.events, allocs := s.allocs, claims := s.claims, drawn := s.drawn, readData := s.readData }

/-- `RELOAD` (R205) and the reload action (R232): without a session reference a no-op; with one, `PENDING` 0, the pointer at the program's base,
the trigger set, and nothing else; doing it again, any number of times, changes nothing more. The no-op leaves `PENDING` alone; in every state a run reaches it is
0 then. -/
def Obligations.ReloadIsIdempotent : Prop :=
  (∀ s : State, s.Inv → s.irq.activeRef = false → s.irq.pending = false) ∧
  ∀ s : State,
    (s.irq.activeRef = false → exec .reload s = .next s) ∧
    (s.irq.activeRef = true →
      exec .reload s = .next
        { s with
          irq := { s.irq with pending := false }
          cmd := { s.cmd with rptr := s.ses.progBase, trig := true } }) ∧
    ∀ n, exec .reload (Nat.repeat State.reloadAction (n + 1) s) = .next s.reloadAction

/-- `SES_STATE` moves only by the three commands R55 names, on exactly those paths, and by no step but a host's write to `COMMAND`; and in every state a run
reaches `ACTIVE_REF` is 1 exactly when the session runs. -/
def Obligations.SessionStateMoves : Prop :=
  (∀ (i : Instr) (s t : State), exec i s = .next t →
    t.sesState = s.sesState ∨
    (i = .construct ∧ s.sesState = .none ∧ t.sesState = .built ∧ t.err = .ok) ∨
    (i = .start ∧ s.sesState = .built ∧ t.sesState = .running ∧ t.err = .ok) ∨
    (i = .stop ∧ s.sesState ≠ .none ∧ t.sesState = .none ∧ t.err = .ok)) ∧
  (∀ (s t : State), exec .construct s = .next t → t.err = .ok → s.sesState = .none ∧ t.sesState = .built) ∧
  (∀ (s t : State), exec .start s = .next t → s.sesState = .built → t.sesState = .running) ∧
  (∀ (s t : State), exec .stop s = .next t → t.sesState = .none) ∧
  (∀ (e : Event) (s t : State), agentStep e s = .next t → t.sesState ≠ s.sesState →
    ∃ a v i, e = .host (.write .word a v) ∧ a.toNat = s.cfg.vtgBase ∧ decodeH v = .ok i ∧ exec i s = .next t) ∧
  (∀ s : State, s.Inv → (s.irq.activeRef = true ↔ s.sesState = .running) ∧ (s.hasSession = true ↔ s.sesState ≠ .none))

/-- The whole table of host commands against `SES_STATE` (R207): for each word written to `COMMAND` and each session state, what `STATUS.ERR` and `SES_STATE` are
afterwards, or which fault bit is set. In every state a run reaches. -/
def Obligations.CommandTable : Prop :=
  ∀ (s : State) (c : Word), s.Inv →
    ∃ t, hostCommand c s = .next t ∧
      (c = 1#32 →
        (s.sesState = .none →
          (t.err = .ok ∧ t.sesState = .built) ∨
          ((t.err = .configurationError ∨ t.err = .resourceExhausted ∨ t.err = .channelUnavailable) ∧
            t.sesState = .none)) ∧
        (s.sesState ≠ .none → t.err = .sessionConflict ∧ t.sesState = s.sesState)) ∧
      (c = 2#32 →
        (s.sesState = .none → t = { s with faults := s.faults.set .badState }) ∧
        (s.sesState = .built → t.err = .ok ∧ t.sesState = .running) ∧
        (s.sesState = .running → t.err = .sessionConflict ∧ t.sesState = .running)) ∧
      (c = 3#32 → t.err = .ok ∧ t.sesState = .none) ∧
      (c = 4#32 →
        (s.sesState ≠ .running → t = s) ∧
        (s.sesState = .running → t = s.reloadAction ∧ t.err = s.err ∧ t.sesState = .running)) ∧
      (c = 5#32 ∨ c = 6#32 → (t.err = .ok ∨ t.err = .configurationError) ∧ t.sesState = s.sesState) ∧
      (c.toNat = 0 ∨ 7 ≤ c.toNat → t = { s with faults := s.faults.set .illegalCmd })

/-! ### The four descriptors -/

/-- `XFER.S` and `XFER.L` (R227, R229), the CMD step that loads one, with the pixel channel idle, a length of at least 1 and a source aligned to the element size. `XFER.S`, under a legal
setup-programmed control word and destination, takes `x[2]`, `x[3]` from its two words and advances the pointer by 8; `XFER.L` takes all four registers from its words and
advances it by 16. Both clear the trigger and set `BUSY`; nothing else changes. -/
def Obligations.TransferDescriptorsLoad : Prop :=
  ∀ (s : State) (z : ElemSize) (len raddr : Word),
    s.pix.busy = false → len ≠ 0#32 → raddr.toNat % z.bytes = 0 →
      (s.pix.ctrl = ctrlStd z → s.pix.waddr = encqAddr s.cfg →
        exec (.xferS len raddr) s = .next
          { s with
            cmd := { s.cmd with rptr := s.cmd.rptr + 8#32, trig := false }
            pix := { s.pix with len := len, raddr := raddr, busy := true } }) ∧
      exec (.xferL z (encqAddr s.cfg) len raddr) s = .next
        { s with
          cmd := { s.cmd with rptr := s.cmd.rptr + 16#32, trig := false }
          pix := { ctrl := ctrlStd z, waddr := encqAddr s.cfg, len := len, raddr := raddr, busy := true } }

/-- `TERM.S` and `TERM.L` (R230, R231), the CMD step that loads one, with the pixel channel idle: `x[2]` is 0, `x[3]` is the ignored `RADDR`, unchecked; the pointer advances by 8 or 16, the
trigger is cleared, `PENDING` is set, `BUSY` stays 0; nothing else changes, the queue included. -/
def Obligations.TerminalDescriptorsRaiseTheInterrupt : Prop :=
  ∀ (s : State) (z : ElemSize) (raddr : Word),
    s.pix.busy = false →
      (s.pix.ctrl = ctrlStd z → s.pix.waddr = encqAddr s.cfg →
        exec (.termS raddr) s = .next
          { s with
            cmd := { s.cmd with rptr := s.cmd.rptr + 8#32, trig := false }
            pix := { s.pix with len := 0#32, raddr := raddr, busy := false }
            irq := { s.irq with pending := true } }) ∧
      exec (.termL z (encqAddr s.cfg) raddr) s = .next
        { s with
          cmd := { s.cmd with rptr := s.cmd.rptr + 16#32, trig := false }
          pix := { ctrl := ctrlStd z, waddr := encqAddr s.cfg, len := 0#32, raddr := raddr, busy := false }
          irq := { s.irq with pending := true } }

/-- Where a descriptor faults (R224, R226, R111), each test before the next (R260 d), the state otherwise unchanged: `PIX_OVERWRITE` with a transfer
in flight; `BAD_DESC` for the control word in force or the destination; `BAD_DESC` for a source that is not a multiple of the
element size, of a non-zero length alone. -/
def Obligations.DescriptorFaults : Prop :=
  ∀ (s : State) (z : ElemSize) (waddr len raddr : Word),
    (s.pix.busy = true →
      exec (.xferS len raddr) s = .next { s with faults := s.faults.set .pixOverwrite } ∧
      exec (.termS raddr) s = .next { s with faults := s.faults.set .pixOverwrite } ∧
      exec (.xferL z waddr len raddr) s = .next { s with faults := s.faults.set .pixOverwrite } ∧
      exec (.termL z waddr raddr) s = .next { s with faults := s.faults.set .pixOverwrite }) ∧
    (s.pix.busy = false →
      ((∀ y, s.pix.ctrl ≠ ctrlStd y) ∨ s.pix.waddr ≠ encqAddr s.cfg →
        exec (.xferS len raddr) s = .next { s with faults := s.faults.set .badDesc } ∧
        exec (.termS raddr) s = .next { s with faults := s.faults.set .badDesc }) ∧
      (waddr ≠ encqAddr s.cfg →
        exec (.xferL z waddr len raddr) s = .next { s with faults := s.faults.set .badDesc } ∧
        exec (.termL z waddr raddr) s = .next { s with faults := s.faults.set .badDesc }) ∧
      (len ≠ 0#32 → raddr.toNat % z.bytes ≠ 0 →
        (s.pix.ctrl = ctrlStd z →
          exec (.xferS len raddr) s = .next { s with faults := s.faults.set .badDesc }) ∧
        exec (.xferL z waddr len raddr) s = .next { s with faults := s.faults.set .badDesc }))

/-- The CMD step (R223, R225), by its effect on the numbered registers: when it raises no fault, word `j` of the `n` words at the pointer is in
`x[4 - n + j]`, the registers before `x[4 - n]` are as they were, the pointer is `4 n` further, the trigger is clear, and exactly one of
`BUSY` and a raised `PENDING` tells a transfer from a terminal; nothing else changes. -/
def Obligations.CmdStepLoadsTheWindow : Prop :=
  ∀ (s t : State) (n : Nat),
    s.cmdReady = true → (n = 2 ∨ n = 4) → s.ses.descw = BitVec.ofNat 32 n →
    cmdStep s = .next t → t.faults = FaultBits.clear →
      (∀ (j : Nat) (i : Fin 4), j < n → i.val = 4 - n + j →
        t.pix.x i = BitVec.ofNat 32 (s.ram.readLE (s.cmd.rptr.toNat + 4 * j) 4)) ∧
      (∀ i : Fin 4, i.val < 4 - n → t.pix.x i = s.pix.x i) ∧
      s.pix.busy = false ∧
      t = { s with
            pix := t.pix
            cmd := { s.cmd with rptr := s.cmd.rptr + BitVec.ofNat 32 (4 * n), trig := false }
            irq := { s.irq with pending := s.irq.pending || !t.pix.busy } } ∧
      (t.pix.busy = false ↔ t.pix.len = 0#32)

/-- The order of a CMD step's tests (R260 d): `PIX_OVERWRITE`, then `BUS_ERROR` for a word outside the program region or misaligned, then `BAD_DESC` for an
illegal control word; each leaves the state otherwise unchanged. With no trigger or a disabled channel there is no step (log 2). -/
def Obligations.CmdStepTestsInOrder : Prop :=
  ∀ (s : State) (n : Nat), (n = 2 ∨ n = 4) → s.ses.descw = BitVec.ofNat 32 n →
    (s.cmdReady = false → cmdStep s = .next s) ∧
    (s.cmdReady = true →
      (s.pix.busy = true → cmdStep s = .next { s with faults := s.faults.set .pixOverwrite }) ∧
      (s.pix.busy = false →
        (¬ (s.cmd.rptr.toNat % 4 = 0 ∧ s.inProgram s.cmd.rptr.toNat (4 * n) = true) →
          cmdStep s = .next { s with faults := s.faults.set .busError }) ∧
        (s.cmd.rptr.toNat % 4 = 0 → s.inProgram s.cmd.rptr.toNat (4 * n) = true → n = 4 →
          (∀ z, BitVec.ofNat 32 (s.ram.readLE s.cmd.rptr.toNat 4) ≠ ctrlStd z) →
          cmdStep s = .next { s with faults := s.faults.set .badDesc })))

/-! ### The pixel channel -/

/-- The PIX step (R228): with a transfer in flight and a legal control word, one element is read at `x[3]` and pushed, `x[3]` goes up by its size modulo
`2^32`, `x[2]` down by 1, and the last element clears `BUSY` and triggers the command channel; an inadmissible read is `BUS_ERROR` and nothing
else. With nothing in flight there is no step (log 2). -/
def Obligations.PixStepMovesOneElement : Prop :=
  ∀ (s : State) (z : ElemSize),
    (s.pix.busy = false → pixStep s = .next s) ∧
    (s.pix.busy = true → s.pix.ctrl = ctrlStd z → s.pix.len ≠ 0#32 →
      (s.readPix s.pix.raddr.toNat z = none → pixStep s = .next { s with faults := s.faults.set .busError }) ∧
      (∀ v, s.readPix s.pix.raddr.toNat z = some v →
        pixStep s = .next
          { s with
            encq := s.encq ++ [{ size := z, value := v }]
            pix :=
              { s.pix with
                raddr := s.pix.raddr + BitVec.ofNat 32 z.bytes
                len := s.pix.len - 1#32
                busy := decide (s.pix.len ≠ 1#32) }
            cmd := { s.cmd with trig := s.cmd.trig || decide (s.pix.len = 1#32) } }))

/-- The PIX steps of a whole transfer (R227, R229): with `len` elements left, all readable, `len` PIX steps push them in address order, leave `x[2]` 0 and
`x[3]` past the last, clear `BUSY` and set the trigger; nothing else changes. -/
def Obligations.PixStepsDeliverTheTransfer : Prop :=
  ∀ (s : State) (z : ElemSize) (vs : List Nat) (rest : List Event),
    s.faults = FaultBits.clear → s.pix.busy = true → s.pix.ctrl = ctrlStd z → vs ≠ [] →
    s.pix.len = BitVec.ofNat 32 vs.length → vs.length < 2 ^ 32 →
    (∀ i, i < vs.length →
      s.readPix (s.pix.raddr + BitVec.ofNat 32 (z.bytes * i)).toNat z = vs[i]?) →
    s.events = List.replicate vs.length .pix ++ rest →
      stepN vs.length s = .next
        { s with
          events := rest
          encq := s.encq ++ vs.map (fun v => { size := z, value := v })
          pix :=
            { s.pix with
              len := 0#32, raddr := s.pix.raddr + BitVec.ofNat 32 (z.bytes * vs.length), busy := false }
          cmd := { s.cmd with trig := true } }

/-- What the two channels may read (R72, R73, R74, R75): the command channel an aligned word of the program region; the pixel channel an aligned word of
the pattern window or an aligned element of the framebuffer; the value is the little-endian one; with no session both regions
are empty, and the pattern window is readable still, which is the model's choice (log 11); every other read is refused. -/
def Obligations.ChannelsReadOnlyTheirRegions : Prop :=
  ∀ (s : State) (a : Nat) (z : ElemSize), s.cfg.Admissible →
    (∀ w, s.readCmd a = some w ↔
      a % 4 = 0 ∧ s.sesState ≠ .none ∧ s.ses.progBase.toNat ≤ a ∧
        a + 4 ≤ s.ses.progBase.toNat + 4 * s.ses.progWords.toNat ∧ inRam s.cfg a 4 = true ∧
        w.toNat = s.ram.readLE a 4) ∧
    (∀ v, s.readPix a z = some v ↔
      a % z.bytes = 0 ∧
        ((z = .word ∧ inPatternWindow s.cfg a 4 = true ∧ v = patternAt s.cfg (a - patBase s.cfg)) ∨
          (s.sesState ≠ .none ∧ s.ses.fbBase.toNat ≤ a ∧
            a + z.bytes ≤ s.ses.fbBase.toNat + 4 * s.ses.fbWords.toNat ∧ inRam s.cfg a z.bytes = true ∧
            v = s.ram.readLE a z.bytes)))

/-! ### The frame-boundary handler -/

/-- The handler's two steps (R233, R234, R261, R262): entry, when the interrupt is pending and enabled and the handler armed, changes `FBH_STATE` and nothing else;
the body does the reload action and rearms; while it is reloading the host has no enabled step (log 2). -/
def Obligations.HandlerEntersAndReturns : Prop :=
  ∀ s : State,
    (s.irq.fbh = .armed → s.irq.pending = true → s.irq.enable = true →
      fbhStep s = .next { s with irq := { s.irq with fbh := .reloading } }) ∧
    (s.irq.fbh = .armed → (s.irq.pending = false ∨ s.irq.enable = false) → fbhStep s = .next s) ∧
    (s.irq.fbh = .reloading →
      (s.irq.activeRef = true →
        fbhStep s = .next
          { s with
            irq := { s.irq with pending := false, fbh := .armed }
            cmd := { s.cmd with rptr := s.ses.progBase, trig := true } }) ∧
      (s.irq.activeRef = false → fbhStep s = .next { s with irq := { s.irq with fbh := .armed } }) ∧
      ∀ access, hostStep access s = .next s)

/-! ### RAM -/

/-- The PRODUCER step (R78): while a session exists an aligned write of 1, 2 or 4 bytes inside the framebuffer stores the little-endian bytes of the
value there and changes nothing else. It is confined to that (R74, R78): a write that is misaligned or not wholly inside the framebuffer of a session is no step, which the model answers
with a refusal (log 7); so is every write while no session exists. -/
def Obligations.ProducerWritesItsBytes : Prop :=
  ∀ (s : State) (z : ElemSize) (a v : Word), s.ram.wf →
    (s.inFramebuffer a.toNat z.bytes = true → a.toNat % z.bytes = 0 →
      ∃ m, producerStep z a v s = .next { s with ram := m } ∧ m.wf ∧
        (∀ i, i < z.bytes → m.read (a.toNat + i) = BitVec.ofNat 8 (v.toNat / 256 ^ i)) ∧
        (∀ b, b < a.toNat ∨ a.toNat + z.bytes ≤ b → m.read b = s.ram.read b)) ∧
    (a.toNat % z.bytes ≠ 0 ∨ s.inFramebuffer a.toNat z.bytes = false → producerStep z a v s = .refused .producerWrite) ∧
    (s.sesState = .none → producerStep z a v s = .refused .producerWrite)

/-- Byte order and mixed widths (R71, R89): the `n`-byte value at an address is the sum of its bytes times powers of 256; after a write of any width, a read of
any width sees the written bytes where it covers them and the old bytes elsewhere. -/
def Obligations.ReadsSeeTheLatestBytes : Prop :=
  (∀ (m : Memory) (a n : Nat),
    m.readLE a n = ((List.range n).map fun i => (m.read (a + i)).toNat * 256 ^ i).sum) ∧
  (∀ (m : Memory) (a n v b k : Nat), m.wf →
    (m.writeLE a n v).readLE b k =
      ((List.range k).map fun i =>
        (if a ≤ b + i ∧ b + i < a + n then v / 256 ^ (b + i - a) % 256 else (m.read (b + i)).toNat) * 256 ^ i).sum)

/-! ### Frames and writers -/

/-- What the four descriptors leave unchanged: everything but the pixel channel, the pointer, the trigger, `PENDING` and `FAULT`; format S leaves `x[0]` and `x[1]` too; every byte of
memory, and the queue history. A descriptor's own step pushes nothing. -/
def Obligations.DescriptorsFrame : Prop :=
  ∀ (i : Instr) (s t : State), i.format ≠ .H → exec i s = .next t →
    t = { s with
          pix := t.pix, faults := t.faults
          cmd := { s.cmd with rptr := t.cmd.rptr, trig := t.cmd.trig }
          irq := { s.irq with pending := t.irq.pending } } ∧
    (i.format = .S → t.pix.ctrl = s.pix.ctrl ∧ t.pix.waddr = s.pix.waddr) ∧
    (i.format = .L → t.faults = FaultBits.clear → t.pix.waddr = encqAddr s.cfg ∧ ∃ z, t.pix.ctrl = ctrlStd z) ∧
    (t.faults = s.faults ∨ t.faults = { s.faults with pixOverwrite := true } ∨
      t.faults = { s.faults with badDesc := true }) ∧
    ∀ a, t.ram.read a = s.ram.read a

/-- The program counter moves in exactly the ways of R239: `4 SES_DESCW` further in a CMD step, to `PROG_BASE` by START and by the reload action, to 0 by STOP. -/
def Obligations.ProgramCounterMoves : Prop :=
  ∀ (e : Event) (s t : State), agentStep e s = .next t → t.cmd.rptr ≠ s.cmd.rptr →
    (e = .cmd ∧ t.cmd.rptr = s.cmd.rptr + 4#32 * s.ses.descw) ∨
    (e = .fbh ∧ t.cmd.rptr = s.ses.progBase) ∨
    (∃ a, e = .host (.write .word a 2#32) ∧ a.toNat = s.cfg.vtgBase ∧ t.cmd.rptr = s.ses.progBase) ∨
    (∃ a, e = .host (.write .word a 4#32) ∧ a.toNat = s.cfg.vtgBase ∧ t.cmd.rptr = s.ses.progBase) ∨
    (∃ a, e = .host (.write .word a 3#32) ∧ a.toNat = s.cfg.vtgBase ∧ t.cmd.rptr = 0#32 ∧ t.sesState = .none)

/-- The only writers of RAM (R76): CONSTRUCT and the PRODUCER. And the only writer of the queue history is the pixel channel, one record a step, each fitting its
size (R37, R52); the environment's log only grows (R51). -/
def Obligations.WritersOfRamAndHistories : Prop :=
  ∀ (e : Event) (s t : State), agentStep e s = .next t →
    (t.ram ≠ s.ram →
      (∃ a, e = .host (.write .word a 1#32) ∧ a.toNat = s.cfg.vtgBase ∧ t.err = .ok) ∨
      (∃ z a v, e = .producer z a v)) ∧
    (t.encq = s.encq ∨
      (e = .pix ∧ ∃ z v, t.encq = s.encq ++ [{ size := z, value := v }] ∧
        (s.cfg.Admissible → v < 2 ^ (8 * z.bytes)))) ∧
    (∃ l, t.envlog = s.envlog ++ l)

/-! ### Faults -/

/-- The fault outcome (R257). A step that raises a fault sets one bit that was clear and makes no other change (what a refused host read returns is log 6), and no step clears a
bit of `FAULT` (R25). A state with `FAULT` not 0 is the outcome fault: the step stops, naming a bit that is set, and it stops so in no other state (log 5). -/
def Obligations.FaultsAreStickyAndFinal : Prop :=
  (∀ (e : Event) (s t : State), agentStep e s = .next t →
    (∀ b, s.faults.get b = true → t.faults.get b = true) ∧
    (t.faults ≠ s.faults →
      ∃ b, s.faults.get b = false ∧
        t = { s with faults := s.faults.set b, readData := t.readData } ∧
        (t.readData ≠ s.readData → b = .badAccess ∧ t.readData = 0#32))) ∧
  (∀ s : State, s.faults ≠ FaultBits.clear → ∃ b, step s = .fault (.latched b) ∧ s.faults.get b = true) ∧
  (∀ (s : State) (b : FaultBit), step s = .fault (.latched b) → s.faults.get b = true)

/-! ### One step -/

/-- A step runs the decoded instruction. When its event is a host write of a command word to `COMMAND` (R23), the step is `exec` of the command the word decodes to. When its event is the command
channel's, with the channel ready and no transfer in flight, it is `exec` of the instruction that the bytes at the program counter decode to in the session's format (R106, R223).
In both the event is used up and nothing else is added. -/
def Obligations.StepRunsTheInstruction : Prop :=
  (∀ (s : State) (a c : Word) (i : Instr) (rest : List Event),
    s.faults = FaultBits.clear → s.irq.fbh = .armed → s.cfg.vtgBase % 4096 = 0 → a.toNat = s.cfg.vtgBase →
    s.events = .host (.write .word a c) :: rest → decode .H (bytesOfWord c) = .ok (i, []) →
      step s = exec i { s with events := rest }) ∧
  (∀ (s : State) (f : Format) (n : Nat) (i : Instr) (rest : List Event),
    s.faults = FaultBits.clear → s.events = .cmd :: rest → s.cmdReady = true → s.pix.busy = false →
    (f = .S ∧ n = 2 ∨ f = .L ∧ n = 4) → s.ses.descw = BitVec.ofNat 32 n →
    s.cmd.rptr.toNat % 4 = 0 → s.inProgram s.cmd.rptr.toNat (4 * n) = true →
    decode f ((List.range (4 * n)).map fun k => s.ram.read (s.cmd.rptr.toNat + k)) = .ok (i, []) →
      step s = exec i { s with events := rest })

/-! ### Invariants -/

/-- Every step keeps the invariant, a step that raises a fault included (R27, R30, R32, R33, R53, R55, R185). -/
def Obligations.StepKeepsTheInvariant : Prop :=
  ∀ s t : State, s.Inv → step s = .next t → t.Inv

/-- What the invariant says of the registers: no session, all session registers 0 (R27); the command channel's configuration is one of three words (R33); the program
counter is a multiple of 4 (R32); the two handles differ (R27); the two regions are live, disjoint, inside RAM and word-aligned (R53); there is a geometry of the session's width, height and
depth, the session, encoder and channel registers hold what CONSTRUCT computed from it (R186; `EN` is 1 once the session runs, R200), and RAM holds the program built from it at
`PROG_BASE` (R184). -/
def Obligations.InvariantOfTheRegisters : Prop :=
  ∀ s : State, s.Inv →
    (s.sesState = .none → s.ses = Session.zero ∧ s.live = []) ∧
    (s.cmd.ctrl = 0#32 ∨ s.cmd.ctrl = 0x0000007B#32 ∨ s.cmd.ctrl = 0x000000BB#32) ∧
    (s.cmd.ctrl = 0#32 ↔ s.sesState = .none) ∧
    s.cmd.rptr.toNat % 4 = 0 ∧
    (s.sesState ≠ .none →
      s.ses.chIds.extractLsb' 0 4 ≠ s.ses.chIds.extractLsb' 4 4 ∧ s.ses.chIds.getLsbD 8 = true ∧
      s.ses.chIds.extractLsb' 9 23 = 0#23 ∧
      s.fbRegion ∈ s.live ∧ s.progRegion ∈ s.live ∧ s.fbRegion.disjoint s.progRegion = true ∧
      inRam s.cfg s.fbRegion.base (4 * s.fbRegion.words) = true ∧
      inRam s.cfg s.progRegion.base (4 * s.progRegion.words) = true ∧
      s.fbRegion.base % 4 = 0 ∧ s.progRegion.base % 4 = 0 ∧
      s.ses.fbWords.toNat = s.ses.pitch.toNat * s.ses.height.toNat ∧
      s.ses.width.toNat * s.ses.depth.toNat ≤ 32 * s.ses.pitch.toNat ∧
      (s.ses.descw = 2#32 ∧ s.ses.hscale = 1#32 ∨ s.ses.descw = 4#32 ∧ 2 ≤ s.ses.hscale.toNat) ∧
      s.pix.waddr = encqAddr s.cfg ∧ (∃ z, s.pix.ctrl = ctrlStd z) ∧ (s.sesState = .built → s.pix.ctrl = ctrlStd .word) ∧
      ∃ g, geometry s.cfg s.ses.width.toNat s.ses.height.toNat s.ses.depth.toNat = some g ∧
        s.ses = { s.ses with
                  mode := toReg g.mode.number
                  pitch := toReg g.pitch, hscale := toReg g.hScale, vscale := toReg g.vScale
                  fbWords := toReg g.fbWords, progWords := toReg g.progWords, descw := toReg g.descw } ∧
        s.enc = { expand := toReg g.enc.expand, shift := toReg g.enc.shift
                  en := decide (s.sesState = .running), bswap := g.enc.bswap } ∧
        (g.descw = 2 → s.cmd.ctrl = 0x0000007B#32) ∧ (g.descw = 4 → s.cmd.ctrl = 0x000000BB#32) ∧
        s.ram.wordsAt s.ses.progBase.toNat g.progWords =
          buildProgram s.cfg g s.ses.width.toNat s.ses.fbBase.toNat) ∧
    (s.irq.pending = true → s.sesState = .running ∧ s.irq.activeRef = true) ∧
    (s.pix.busy = true → 1 ≤ s.pix.len.toNat)

/-- The geometry and the program of a session never change while it lasts (R27, R85, R185, R289, R295): a step that begins and ends with a session leaves every session register, every byte of
the program region and the two live regions as they were. -/
def Obligations.SessionIsImmutable : Prop :=
  ∀ s t : State, s.Inv → step s = .next t → s.sesState ≠ .none → t.sesState ≠ .none →
    t.ses = s.ses ∧ t.live = s.live ∧
    (∀ a, s.progRegion.covers a 1 = true → t.ram.read a = s.ram.read a)

/-- In a state of R258 with a running session exactly one of the three agents that play the frame has an enabled step: the command channel, the pixel channel, the handler (R235). -/
def Obligations.ExactlyOneAgentPlays : Prop :=
  ∀ s : State, s.Good → s.sesState = .running →
    (s.cmdReady = true ∧ s.pix.busy = false ∧ s.fbhEntryReady = false ∧ s.irq.fbh = .armed) ∨
    (s.cmdReady = false ∧ s.pix.busy = true ∧ s.fbhEntryReady = false ∧ s.irq.fbh = .armed) ∨
    (s.cmdReady = false ∧ s.pix.busy = false ∧ (s.fbhEntryReady = true ∨ s.irq.fbh = .reloading))

/-- The step lemma of R258: from every state of R258, one that no run reaches included, a step on a polite event goes on, raises no fault, and leaves such a state. -/
def Obligations.PoliteStepsNeverFault : Prop :=
  ∀ s : State, s.Good → s.Polite s.takeEvent.1 → ∃ t, step s = .next t ∧ t.Good

/-- "no fault is ever raised" from reset (R258), the corollary of `ResetIsGood` and `PoliteStepsNeverFault`: for every admissible configuration, every RAM, every interleaving and every answer of the environment, as long as the host and the producer keep to what R258 allows; and the command channel is never triggered while the pixel channel is busy. -/
def Obligations.NoFaultFromReset : Prop :=
  ∀ (c : Config) (ram : Memory) (es : List Event) (as : List (Option Word))
    (cs : List (Option (BitVec 4 × BitVec 4))) (n : Nat),
    c.Admissible → ram.wf → (∀ x ∈ ram, inRam c x.1 1 = true) →
    State.PoliteFor n { State.resetWith c ram with events := es, allocs := as, claims := cs } →
      ∃ t, stepN n { State.resetWith c ram with events := es, allocs := as, claims := cs } = .next t ∧
        t.faults = FaultBits.clear ∧ t.Good

/-! ### A frame, end to end -/

/-- One frame (R235): from a frame start, the steps R235 lists lead to the frame boundary, and the queue has gained exactly the frame's records: the pattern of its band for each
blanking line, and for each active line the elements of its source row as RAM holds them. RAM, the session and the log are unchanged. -/
def Obligations.FrameDeliversThePicture : Prop :=
  ∀ (s : State) (g : Geometry) (rest : List Event),
    s.Good → s.Bound g → s.FrameStart → s.events = frameEvents s.cfg g s.ses.width.toNat ++ rest →
      ∃ t, stepN (frameEvents s.cfg g s.ses.width.toNat).length s = .next t ∧
        t.FrameBoundary ∧ t.encq = s.encq ++ frameRecords s g ∧
        t.ram = s.ram ∧ t.ses = s.ses ∧ t.envlog = s.envlog ∧ t.events = rest ∧ t.Good

/-- The reload closes the ring (R233, R234, R235, R236): from a frame boundary, the handler's entry and its body lead back to a frame start, with RAM, the session and the queue
as they were, so the frame repeats. -/
def Obligations.HandlerClosesTheRing : Prop :=
  ∀ (s : State) (rest : List Event),
    s.Good → s.FrameBoundary → s.events = .fbh :: .fbh :: rest →
      ∃ t, stepN 2 s = .next t ∧ t.FrameStart ∧ t.Good ∧ t.events = rest ∧
        t.encq = s.encq ∧ t.ram = s.ram ∧ t.ses = s.ses

/-- Only the program steers the machine: two states that differ at most in RAM outside the program region, in the values already delivered and in the host's last read answer
every step alike, stop for stop, and go on to states that differ no further. So no pixel reaches a register, an address, a fault or the order of the transfers. -/
def Obligations.PixelsDoNotSteer : Prop :=
  ∀ s t : State, s.ram.wf → t.ram.wf → s.SameButPixels t → AgreeButPixels (step s) (step t)
end

