-- ==== Sys2Proof/Laws/Decode.lean ====
section
/-! SUPPORT. The laws of the decoder and the encoder: bytes and words (`20_memory.md` R71), the control word (`30_encoding.md`
R108), and what each format's decoder can answer. -/

namespace Sys2Proof

/-! ### Bytes and words -/

theorem wordOfBytes_getLsbD (a b c d : Byte) (i : Nat) :
    (wordOfBytes a b c d).getLsbD i =
      if i < 8 then a.getLsbD i else if i < 16 then b.getLsbD (i - 8) else if i < 24 then c.getLsbD (i - 16)
      else d.getLsbD (i - 24) := by
  have h : (wordOfBytes a b c d).getLsbD i =
      if i < 8 then a.getLsbD i else if i - 8 < 8 then b.getLsbD (i - 8) else
        if i - 8 - 8 < 8 then c.getLsbD (i - 8 - 8) else d.getLsbD (i - 8 - 8 - 8) := by
    simp only [wordOfBytes, BitVec.getLsbD_append]
  rw [h]
  by_cases h1 : i < 8
  · simp [h1]
  by_cases h2 : i < 16
  · simp [h1, h2, show i - 8 < 8 by omega]
  rw [show i - 8 - 8 - 8 = i - 24 by omega, show i - 8 - 8 = i - 16 by omega]
  by_cases h3 : i < 24
  · simp [h1, h2, h3, show ¬ i - 8 < 8 by omega, show i - 16 < 8 by omega]
  · simp [h1, h2, h3, show ¬ i - 8 < 8 by omega, show ¬ i - 16 < 8 by omega]

/-- A word is the word of its bytes. -/
theorem wordOfBytes_bytes (w : Word) :
    wordOfBytes (w.extractLsb' 0 8) (w.extractLsb' 8 8) (w.extractLsb' 16 8) (w.extractLsb' 24 8) = w := by
  apply BitVec.eq_of_getLsbD_eq
  intro i hi
  rw [wordOfBytes_getLsbD]
  simp only [BitVec.getLsbD_extractLsb']
  by_cases h1 : i < 8
  · simp [h1]
  by_cases h2 : i < 16
  · simp [h1, h2, show i - 8 < 8 by omega, show 8 + (i - 8) = i by omega]
  by_cases h3 : i < 24
  · simp [h1, h2, h3, show i - 16 < 8 by omega, show 16 + (i - 16) = i by omega]
  · simp [h1, h2, h3, show i - 24 < 8 by omega, show 24 + (i - 24) = i by omega]

/-- The bytes of a word are the bytes it was made of. -/
theorem bytesOfWord_wordOfBytes (a b c d : Byte) : bytesOfWord (wordOfBytes a b c d) = [a, b, c, d] := by
  simp only [bytesOfWord, List.cons.injEq, and_true]
  refine ⟨?_, ?_, ?_, ?_⟩ <;>
  · apply BitVec.eq_of_getLsbD_eq
    intro i hi
    rw [BitVec.getLsbD_extractLsb', wordOfBytes_getLsbD]
    first
      | (simp [hi]; done)
      | (simp [hi, show ¬ 8 + i < 8 by omega, show 8 + i < 16 by omega, show 8 + i - 8 = i by omega]; done)
      | (simp [hi, show ¬ 16 + i < 8 by omega, show ¬ 16 + i < 16 by omega, show 16 + i < 24 by omega,
          show 16 + i - 16 = i by omega]; done)
      | (simp [hi, show ¬ 24 + i < 8 by omega, show ¬ 24 + i < 16 by omega, show ¬ 24 + i < 24 by omega,
          show 24 + i - 24 = i by omega])

/-- The value of a word is the little-endian number of its bytes (R71). -/
theorem wordOfBytes_toNat (a b c d : Byte) :
    (wordOfBytes a b c d).toNat = a.toNat + 256 * (b.toNat + 256 * (c.toNat + 256 * d.toNat)) := by
  have append_toNat : ∀ {n : Nat} (x : BitVec n) (y : Byte), (x ++ y).toNat = y.toNat + 256 * x.toNat := by
    intro n x y
    rw [BitVec.toNat_append, ← Nat.shiftLeft_add_eq_or_of_lt y.isLt, Nat.shiftLeft_eq]
    omega
  show (d ++ c ++ b ++ a).toNat = _
  rw [append_toNat, append_toNat, append_toNat]

@[simp] theorem bytesOfWord_length (w : Word) : (bytesOfWord w).length = 4 := rfl

/-! ### The control word -/

/-- The legal control words are the standard ones (R108). -/
theorem ctrlSize_eq_some {w : Word} {z : ElemSize} : ctrlSize w = some z ↔ w = ctrlStd z := by
  unfold ctrlSize
  constructor
  · intro h
    split at h
    · cases h; assumption
    split at h
    · cases h; assumption
    split at h
    · cases h; assumption
    · cases h
  · rintro rfl
    cases z <;> rfl

@[simp] theorem ctrlSize_ctrlStd (z : ElemSize) : ctrlSize (ctrlStd z) = some z := by
  cases z <;> rfl

@[simp] theorem sizeField_ctrlStd (z : ElemSize) : sizeField (ctrlStd z) = some z := by
  cases z <;> rfl

/-- In a legal control word the `SIZE` field is the size it stands for. -/
theorem sizeField_of_ctrlSize {w : Word} {z : ElemSize} (h : ctrlSize w = some z) : sizeField w = some z := by
  rw [ctrlSize_eq_some.mp h, sizeField_ctrlStd]

theorem ElemSize.bytes_pos (z : ElemSize) : 0 < z.bytes := by
  cases z <;> decide

/-- The alignment test is divisibility by the element size. -/
theorem alignedFor_iff (z : ElemSize) (a : Word) : alignedFor z a = true ↔ a.toNat % z.bytes = 0 := by
  cases z <;> simp [alignedFor, ElemSize.bytes, Nat.mod_one]

/-! ### What the decoders can answer -/

/-- A command word decodes to a command exactly when it is one of 1 to 6 (R101). -/
theorem decodeH_ok {c : Word} {i : Instr} (h : decodeH c = .ok i) :
    (c = 1#32 ∧ i = .construct) ∨ (c = 2#32 ∧ i = .start) ∨ (c = 3#32 ∧ i = .stop) ∨
      (c = 4#32 ∧ i = .reload) ∨ (c = 5#32 ∧ i = .timing) ∨ (c = 6#32 ∧ i = .enccalc) := by
  unfold decodeH at h
  split at h
  · cases h
  · rename_i hz
    have hz' : c.toNat / 256 % 2 ^ 24 = 0 := by
      have := congrArg BitVec.toNat (Decidable.not_not.mp hz)
      simpa [BitVec.extractLsb'_toNat, Nat.shiftRight_eq_div_pow] using this
    have hlo : (c.extractLsb' 0 8).toNat = c.toNat % 256 := by
      simp [BitVec.extractLsb'_toNat]
    have hc := c.isLt
    have key : ∀ k, c.toNat % 256 = k → c = BitVec.ofNat 32 k := by
      intro k hk
      apply BitVec.eq_of_toNat_eq
      rw [BitVec.toNat_ofNat]
      omega
    rw [hlo] at h
    split at h <;> first | (cases h; have := key _ (by assumption); simp [this]) | cases h

/-- A format S descriptor is the terminal exactly when its length word is 0 (R107). -/
theorem decodeS_cases (w0 w1 : Word) :
    (w0 = 0#32 ∧ decodeS w0 w1 = .termS w1) ∨ (w0 ≠ 0#32 ∧ decodeS w0 w1 = .xferS w0 w1) := by
  unfold decodeS
  by_cases h : w0 = 0#32 <;> simp [h]

/-- What a format L descriptor decodes to (R107, R108). -/
theorem decodeL_ok {w0 w1 w2 w3 : Word} {i : Instr} (h : decodeL w0 w1 w2 w3 = .ok i) :
    ∃ z, w0 = ctrlStd z ∧
      ((w2 = 0#32 ∧ i = .termL z w1 w3) ∨ (w2 ≠ 0#32 ∧ i = .xferL z w1 w2 w3)) := by
  unfold decodeL at h
  split at h
  · cases h
  · rename_i z hz
    refine ⟨z, ctrlSize_eq_some.mp hz, ?_⟩
    by_cases h2 : w2 = 0#32
    · rw [if_pos h2] at h; cases h; exact .inl ⟨h2, rfl⟩
    · rw [if_neg h2] at h; cases h; exact .inr ⟨h2, rfl⟩

/-- A format L descriptor with a standard control word. -/
theorem decodeL_ctrlStd (z : ElemSize) (w1 w2 w3 : Word) :
    decodeL (ctrlStd z) w1 w2 w3 = .ok (if w2 = 0#32 then .termL z w1 w3 else .xferL z w1 w2 w3) := by
  simp [decodeL]

/-- A format L descriptor is rejected exactly for its control word (R111 a). -/
theorem decodeL_error {w0 w1 w2 w3 : Word} {e : DecodeReject} (h : decodeL w0 w1 w2 w3 = .error e) :
    ctrlSize w0 = none := by
  unfold decodeL at h
  split at h
  · assumption
  · cases h

end Sys2Proof
end

