-- ==== Sys2Proof/Laws/Memory.lean ====
section
/-! SUPPORT. The laws of RAM: every operation keeps the canonical form, a read after a write, little-endian numbers and runs of
words (`20_memory.md` R71, R72, R76, R89). -/

namespace Sys2Proof.Machine

/-- Addresses strictly rising: the first half of the canonical form. -/
abbrev Memory.Sorted (m : Memory) : Prop :=
  m.Pairwise (fun c d => c.1 < d.1)

/-! ### One byte -/

@[simp] theorem Memory.read_nil (a : Nat) : Memory.read [] a = unlistedByte := rfl

theorem Memory.read_cons_eq (k : Nat) (b : Byte) (m : Memory) (a : Nat) :
    Memory.read ((k, b) :: m) a = if k = a then b else Memory.read m a := rfl

theorem Memory.read_of_above {m : Memory} {a : Nat} (h : ∀ c ∈ m, a < c.1) : m.read a = unlistedByte := by
  induction m with
  | nil => rfl
  | cons c m ih =>
    obtain ⟨k, b⟩ := c
    have hk : a < k := h (k, b) (by simp)
    rw [Memory.read_cons_eq, if_neg (by omega), ih (fun d hd => h d (by simp [hd]))]

/-- A read of an entry put in front of a memory that lies above it. -/
theorem Memory.read_consEntry {m : Memory} {a : Nat} (v : Byte) (h : ∀ c ∈ m, a < c.1) (b : Nat) :
    (Memory.cons a v m).read b = if b = a then v else m.read b := by
  unfold Memory.cons
  by_cases hv : v = unlistedByte
  · rw [if_pos hv]
    by_cases hb : b = a
    · subst hb; rw [if_pos rfl, Memory.read_of_above h, hv]
    · rw [if_neg hb]
  · rw [if_neg hv, Memory.read_cons_eq]
    by_cases hb : b = a
    · subst hb; simp
    · rw [if_neg hb, if_neg (fun hc => hb hc.symm)]

/-- A read after a write: the byte written at its address, the old byte everywhere else. -/
theorem Memory.read_write {m : Memory} (hs : m.Sorted) (a : Nat) (v : Byte) (b : Nat) :
    (m.write a v).read b = if b = a then v else m.read b := by
  induction m with
  | nil => exact Memory.read_consEntry v (by simp) b
  | cons c m ih =>
    obtain ⟨k, w⟩ := c
    obtain ⟨hc, hm⟩ := List.pairwise_cons.mp hs
    unfold Memory.write
    split
    · rename_i hlt
      refine Memory.read_consEntry v ?_ b
      intro d hd
      rcases List.mem_cons.mp hd with rfl | hd
      · exact hlt
      · exact Nat.lt_trans hlt (hc d hd)
    · split
      · rename_i heq
        subst heq
        rw [Memory.read_consEntry v hc b, Memory.read_cons_eq]
        by_cases hb : b = a
        · simp [hb]
        · rw [if_neg hb, if_neg hb, if_neg (fun h => hb h.symm)]
      · rename_i hlt hne
        rw [Memory.read_cons_eq, Memory.read_cons_eq, ih hm]
        by_cases hk : k = b
        · subst hk
          rw [if_pos rfl, if_pos rfl, if_neg (fun h => hne h.symm)]
        · rw [if_neg hk, if_neg hk]

/-- What a memory lists after a write was listed before, or is the written address. -/
theorem Memory.mem_write {m : Memory} {a : Nat} {v : Byte} {c : Host.Cell} (h : c ∈ m.write a v) :
    c.1 = a ∨ c ∈ m := by
  have cons_mem : ∀ (l : Memory), c ∈ Memory.cons a v l → c.1 = a ∨ c ∈ l := by
    intro l hl
    unfold Memory.cons at hl
    split at hl
    · exact .inr hl
    · rcases List.mem_cons.mp hl with rfl | hl
      · exact .inl rfl
      · exact .inr hl
  induction m with
  | nil => exact cons_mem [] h
  | cons d m ih =>
    obtain ⟨k, w⟩ := d
    unfold Memory.write at h
    split at h
    · exact cons_mem _ h
    · split at h
      · rcases cons_mem _ h with h | h
        · exact .inl h
        · exact .inr (List.mem_cons_of_mem _ h)
      · rcases List.mem_cons.mp h with rfl | h
        · exact .inr (by simp)
        · rcases ih h with h | h
          · exact .inl h
          · exact .inr (List.mem_cons_of_mem _ h)

theorem Memory.cons_wf {m : Memory} (hm : m.wf) {a : Nat} (v : Byte) (h : ∀ c ∈ m, a < c.1) :
    (Memory.cons a v m).wf := by
  unfold Memory.cons
  split
  · exact hm
  · rename_i hv
    refine ⟨List.pairwise_cons.mpr ⟨h, hm.1⟩, ?_⟩
    intro c hc
    rcases List.mem_cons.mp hc with rfl | hc
    · exact hv
    · exact hm.2 c hc

/-- A write keeps the canonical form. -/
theorem Memory.write_wf {m : Memory} (hm : m.wf) (a : Nat) (v : Byte) : (m.write a v).wf := by
  induction m with
  | nil => exact Memory.cons_wf ⟨List.Pairwise.nil, by simp⟩ v (by simp)
  | cons c m ih =>
    obtain ⟨k, w⟩ := c
    obtain ⟨hc, hs⟩ := List.pairwise_cons.mp hm.1
    have htail : Memory.wf m := ⟨hs, fun d hd => hm.2 d (List.mem_cons_of_mem _ hd)⟩
    unfold Memory.write
    split
    · rename_i hlt
      refine Memory.cons_wf hm v ?_
      intro d hd
      rcases List.mem_cons.mp hd with rfl | hd
      · exact hlt
      · exact Nat.lt_trans hlt (hc d hd)
    · split
      · rename_i heq
        subst heq
        exact Memory.cons_wf htail v hc
      · rename_i hlt hne
        have hrest := ih htail
        refine ⟨List.pairwise_cons.mpr ⟨?_, hrest.1⟩, ?_⟩
        · intro d hd
          rcases Memory.mem_write hd with h | h
          · show k < d.1
            omega
          · exact hc d h
        · intro d hd
          rcases List.mem_cons.mp hd with rfl | hd
          · exact hm.2 _ (by simp)
          · exact hrest.2 d hd

/-- In canonical form, memories that read the same at every address are the same list. -/
theorem Memory.eq_of_read_eq {m n : Memory} (hm : m.wf) (hn : n.wf) (h : ∀ a, m.read a = n.read a) : m = n := by
  induction m generalizing n with
  | nil =>
    cases n with
    | nil => rfl
    | cons d n =>
      have := h d.1
      rw [Memory.read_nil, Memory.read_cons_eq, if_pos rfl] at this
      exact absurd this.symm (hn.2 d (by simp))
  | cons c m ih =>
    obtain ⟨k, v⟩ := c
    obtain ⟨hc, hms⟩ := List.pairwise_cons.mp hm.1
    have hv : v ≠ unlistedByte := hm.2 (k, v) (by simp)
    have hmt : Memory.wf m := ⟨hms, fun d hd => hm.2 d (List.mem_cons_of_mem _ hd)⟩
    cases n with
    | nil =>
      have := h k
      rw [Memory.read_nil, Memory.read_cons_eq, if_pos rfl] at this
      exact absurd this hv
    | cons d n =>
      obtain ⟨l, w⟩ := d
      obtain ⟨hd, hns⟩ := List.pairwise_cons.mp hn.1
      have hw : w ≠ unlistedByte := hn.2 (l, w) (by simp)
      have hnt : Memory.wf n := ⟨hns, fun d hd => hn.2 d (List.mem_cons_of_mem _ hd)⟩
      have hkl : k = l := by
        rcases Nat.lt_trichotomy k l with hlt | heq | hgt
        · have hk := h k
          rw [Memory.read_cons_eq, if_pos rfl, Memory.read_of_above] at hk
          · exact absurd hk hv
          · intro c hcm
            rcases List.mem_cons.mp hcm with rfl | hcm
            · exact hlt
            · exact Nat.lt_trans hlt (hd c hcm)
        · exact heq
        · have hl := h l
          rw [Memory.read_cons_eq (k := l), if_pos rfl, Memory.read_of_above] at hl
          · exact absurd hl.symm hw
          · intro c hcm
            rcases List.mem_cons.mp hcm with rfl | hcm
            · exact hgt
            · exact Nat.lt_trans hgt (hc c hcm)
      subst hkl
      have hvw : v = w := by simpa [Memory.read_cons_eq] using h k
      subst hvw
      rw [ih hmt hnt]
      intro a
      by_cases ha : k = a
      · subst ha
        rw [Memory.read_of_above hc, Memory.read_of_above hd]
      · simpa [Memory.read_cons_eq, ha] using h a

/-! ### Little-endian numbers -/

theorem Memory.readLE_succ (m : Memory) (a n : Nat) :
    m.readLE a (n + 1) = (m.read a).toNat + 256 * m.readLE (a + 1) n := rfl

/-- An `n`-byte number is below `256^n`. -/
theorem Memory.readLE_lt (m : Memory) (a n : Nat) : m.readLE a n < 256 ^ n := by
  induction n generalizing a with
  | zero => simp [Memory.readLE]
  | succ n ih =>
    rw [Memory.readLE_succ, Nat.pow_succ]
    have h1 := (m.read a).isLt
    have h2 := ih (a + 1)
    omega

/-- A number depends on its own bytes alone (R89). -/
theorem Memory.readLE_congr {m m' : Memory} {a n : Nat} (h : ∀ b, a ≤ b → b < a + n → m.read b = m'.read b) :
    m.readLE a n = m'.readLE a n := by
  induction n generalizing a with
  | zero => rfl
  | succ n ih =>
    rw [Memory.readLE_succ, Memory.readLE_succ, h a (Nat.le_refl a) (by omega),
      ih (fun b h1 h2 => h b (by omega) (by omega))]

theorem Memory.writeLE_wf {m : Memory} (hm : m.wf) (a n v : Nat) : (m.writeLE a n v).wf := by
  induction n generalizing m a v with
  | zero => exact hm
  | succ n ih => exact ih (Memory.write_wf hm a _) (a + 1) (v / 256)

/-- A read after an `n`-byte write: byte `b - a` of the number inside, the old byte outside (R76, R89). -/
theorem Memory.read_writeLE {m : Memory} (hm : m.wf) (a n v b : Nat) :
    (m.writeLE a n v).read b =
      if a ≤ b ∧ b < a + n then BitVec.ofNat 8 (v / 256 ^ (b - a)) else m.read b := by
  induction n generalizing m a v with
  | zero => rw [if_neg (by omega)]; rfl
  | succ n ih =>
    show (Memory.writeLE (m.write a (BitVec.ofNat 8 v)) (a + 1) n (v / 256)).read b = _
    rw [ih (Memory.write_wf hm a _), Memory.read_write hm.1]
    by_cases h1 : a + 1 ≤ b ∧ b < a + 1 + n
    · rw [if_pos h1, if_pos (by omega)]
      obtain ⟨k, rfl⟩ : ∃ k, b = a + 1 + k := ⟨b - (a + 1), by omega⟩
      rw [Nat.div_div_eq_div_mul, show a + 1 + k - (a + 1) = k by omega, show a + 1 + k - a = k + 1 by omega,
        Nat.pow_succ, Nat.mul_comm (256 ^ k)]
    · rw [if_neg h1]
      by_cases h2 : b = a
      · subst h2
        rw [if_pos rfl, if_pos (by omega)]
        simp
      · rw [if_neg h2, if_neg (by omega)]

theorem Memory.mem_writeLE {m : Memory} {a n v : Nat} {c : Host.Cell} (h : c ∈ m.writeLE a n v) :
    (a ≤ c.1 ∧ c.1 < a + n) ∨ c ∈ m := by
  induction n generalizing m a v with
  | zero => exact .inr h
  | succ n ih =>
    rcases ih (m := m.write a (BitVec.ofNat 8 v)) (a := a + 1) (v := v / 256) h with h | h
    · exact .inl (by omega)
    · rcases Memory.mem_write h with h | h
      · exact .inl (by omega)
      · exact .inr h

/-- A number read where it was written (R71). -/
theorem Memory.readLE_writeLE {m : Memory} (hm : m.wf) (a n v : Nat) :
    (m.writeLE a n v).readLE a n = v % 256 ^ n := by
  have key : ∀ k, k ≤ n →
      (m.writeLE a n v).readLE (a + (n - k)) k = v / 256 ^ (n - k) % 256 ^ k := by
    intro k
    induction k with
    | zero => intro _; simp [Memory.readLE, Nat.mod_one]
    | succ k ih =>
      intro hk
      rw [Memory.readLE_succ, show a + (n - (k + 1)) + 1 = a + (n - k) by omega, ih (by omega),
        Memory.read_writeLE hm, if_pos (by omega), show a + (n - (k + 1)) - a = n - (k + 1) by omega,
        BitVec.toNat_ofNat, show n - k = n - (k + 1) + 1 by omega]
      have hq : v / 256 ^ (n - (k + 1) + 1) = v / 256 ^ (n - (k + 1)) / 256 := by
        rw [Nat.div_div_eq_div_mul, ← Nat.pow_succ]
      rw [hq, show (256 : Nat) ^ (k + 1) = 256 * 256 ^ k by rw [Nat.pow_succ, Nat.mul_comm], Nat.mod_mul]
  have := key n (Nat.le_refl n)
  simpa using this

/-- A number read away from an `n`-byte write. -/
theorem Memory.readLE_writeLE_apart {m : Memory} (hm : m.wf) {a n v b k : Nat} (h : b + k ≤ a ∨ a + n ≤ b) :
    (m.writeLE a n v).readLE b k = m.readLE b k := by
  apply Memory.readLE_congr
  intro x h1 h2
  rw [Memory.read_writeLE hm, if_neg (by omega)]

/-! ### Runs of words -/

theorem Memory.writeWords_wf {m : Memory} (hm : m.wf) (a : Nat) (ws : List Word) : (m.writeWords a ws).wf := by
  induction ws generalizing m a with
  | nil => exact hm
  | cons w ws ih => exact ih (Memory.writeLE_wf hm a 4 _) (a + 4)

/-- A byte outside a run of written words is unchanged (R185). -/
theorem Memory.read_writeWords_outside {m : Memory} (hm : m.wf) {a b : Nat} {ws : List Word}
    (h : b < a ∨ a + 4 * ws.length ≤ b) : (m.writeWords a ws).read b = m.read b := by
  induction ws generalizing m a with
  | nil => rfl
  | cons w ws ih =>
    simp only [List.length_cons] at h
    show (Memory.writeWords (m.writeLE a 4 w.toNat) (a + 4) ws).read b = _
    rw [ih (Memory.writeLE_wf hm a 4 _) (by omega), Memory.read_writeLE hm, if_neg (by omega)]

/-- A byte inside a run of written words does not depend on what memory held before. -/
theorem Memory.read_writeWords_inside {m m' : Memory} (hm : m.wf) (hm' : m'.wf) {a b : Nat} {ws : List Word}
    (h1 : a ≤ b) (h2 : b < a + 4 * ws.length) : (m.writeWords a ws).read b = (m'.writeWords a ws).read b := by
  induction ws generalizing m m' a with
  | nil => simp at h2; omega
  | cons w ws ih =>
    simp only [List.length_cons] at h2
    show (Memory.writeWords (m.writeLE a 4 w.toNat) (a + 4) ws).read b =
      (Memory.writeWords (m'.writeLE a 4 w.toNat) (a + 4) ws).read b
    by_cases h : a + 4 ≤ b
    · exact ih (Memory.writeLE_wf hm a 4 _) (Memory.writeLE_wf hm' a 4 _) h (by omega)
    · rw [Memory.read_writeWords_outside (Memory.writeLE_wf hm a 4 _) (.inl (by omega)),
        Memory.read_writeWords_outside (Memory.writeLE_wf hm' a 4 _) (.inl (by omega)),
        Memory.read_writeLE hm, Memory.read_writeLE hm', if_pos (by omega), if_pos (by omega)]

theorem Memory.mem_writeWords {m : Memory} {a : Nat} {ws : List Word} {c : Host.Cell} (h : c ∈ m.writeWords a ws) :
    (a ≤ c.1 ∧ c.1 < a + 4 * ws.length) ∨ c ∈ m := by
  induction ws generalizing m a with
  | nil => exact .inr h
  | cons w ws ih =>
    simp only [List.length_cons]
    rcases ih (m := m.writeLE a 4 w.toNat) (a := a + 4) h with h | h
    · exact .inl (by omega)
    · rcases Memory.mem_writeLE h with h | h
      · exact .inl (by omega)
      · exact .inr h

@[simp] theorem Memory.wordsAt_length (m : Memory) (a n : Nat) : (m.wordsAt a n).length = n := by
  induction n generalizing a with
  | zero => rfl
  | succ n ih => simp [Memory.wordsAt, ih]

/-- Word `j` of a run. -/
theorem Memory.wordsAt_get (m : Memory) (a n : Nat) {j : Nat} (h : j < n) :
    (m.wordsAt a n)[j]? = some (BitVec.ofNat 32 (m.readLE (a + 4 * j) 4)) := by
  induction n generalizing a j with
  | zero => omega
  | succ n ih =>
    cases j with
    | zero => simp [Memory.wordsAt]
    | succ j =>
      simp only [Memory.wordsAt, List.getElem?_cons_succ]
      rw [ih (a + 4) (by omega), show a + 4 + 4 * j = a + 4 * (j + 1) by omega]

theorem Memory.wordsAt_drop (m : Memory) (a n i : Nat) : (m.wordsAt a n).drop i = m.wordsAt (a + 4 * i) (n - i) := by
  induction i generalizing a n with
  | zero => simp
  | succ i ih =>
    cases n with
    | zero => simp [Memory.wordsAt]
    | succ n =>
      simp only [Memory.wordsAt, List.drop_succ_cons]
      rw [ih, show a + 4 + 4 * i = a + 4 * (i + 1) by omega, show n + 1 - (i + 1) = n - i by omega]

theorem Memory.wordsAt_take (m : Memory) (a n i : Nat) (h : i ≤ n) : (m.wordsAt a n).take i = m.wordsAt a i := by
  induction i generalizing a n with
  | zero => rfl
  | succ i ih =>
    cases n with
    | zero => omega
    | succ n =>
      simp only [Memory.wordsAt, List.take_succ_cons]
      rw [ih _ _ (by omega)]

/-- A run of words depends on its own bytes alone. -/
theorem Memory.wordsAt_congr {m m' : Memory} {a n : Nat} (h : ∀ b, a ≤ b → b < a + 4 * n → m.read b = m'.read b) :
    m.wordsAt a n = m'.wordsAt a n := by
  induction n generalizing a with
  | zero => rfl
  | succ n ih =>
    simp only [Memory.wordsAt]
    rw [Memory.readLE_congr (fun b h1 h2 => h b h1 (by omega)), ih (fun b h1 h2 => h b (by omega) (by omega))]

/-- A run of words read where it was written (R184). -/
theorem Memory.wordsAt_writeWords {m : Memory} (hm : m.wf) (a : Nat) (ws : List Word) :
    (m.writeWords a ws).wordsAt a ws.length = ws := by
  induction ws generalizing m a with
  | nil => rfl
  | cons w ws ih =>
    show (BitVec.ofNat 32 ((Memory.writeWords (m.writeLE a 4 w.toNat) (a + 4) ws).readLE a 4) ::
      (Memory.writeWords (m.writeLE a 4 w.toNat) (a + 4) ws).wordsAt (a + 4) ws.length) = _
    have hw := Memory.writeLE_wf hm a 4 w.toNat
    rw [ih hw, Memory.readLE_congr (m' := m.writeLE a 4 w.toNat)
      (fun b h1 h2 => Memory.read_writeWords_outside hw (.inl (by omega))), Memory.readLE_writeLE hm]
    congr 1
    apply BitVec.eq_of_toNat_eq
    have := w.isLt
    simp only [BitVec.toNat_ofNat]
    omega

end Sys2Proof.Machine
end

