-- ==== Sys2Proof/Laws/State.lean ====
section
/-! SUPPORT. One lemma for each field after each named update of a state, so that no later proof unfolds an update. -/

namespace Sys2Proof.Machine

variable (s : State)

/-! ### `State.log` -/

@[simp] theorem State.log_cfg (e : EnvEvent) : (s.log e).cfg = s.cfg := rfl
@[simp] theorem State.log_sesState (e : EnvEvent) : (s.log e).sesState = s.sesState := rfl
@[simp] theorem State.log_err (e : EnvEvent) : (s.log e).err = s.err := rfl
@[simp] theorem State.log_faults (e : EnvEvent) : (s.log e).faults = s.faults := rfl
@[simp] theorem State.log_args (e : EnvEvent) : (s.log e).args = s.args := rfl
@[simp] theorem State.log_ses (e : EnvEvent) : (s.log e).ses = s.ses := rfl
@[simp] theorem State.log_tq (e : EnvEvent) : (s.log e).tq = s.tq := rfl
@[simp] theorem State.log_eq (e : EnvEvent) : (s.log e).eq = s.eq := rfl
@[simp] theorem State.log_enc (e : EnvEvent) : (s.log e).enc = s.enc := rfl
@[simp] theorem State.log_cmd (e : EnvEvent) : (s.log e).cmd = s.cmd := rfl
@[simp] theorem State.log_pix (e : EnvEvent) : (s.log e).pix = s.pix := rfl
@[simp] theorem State.log_irq (e : EnvEvent) : (s.log e).irq = s.irq := rfl
@[simp] theorem State.log_ram (e : EnvEvent) : (s.log e).ram = s.ram := rfl
@[simp] theorem State.log_encq (e : EnvEvent) : (s.log e).encq = s.encq := rfl
@[simp] theorem State.log_live (e : EnvEvent) : (s.log e).live = s.live := rfl
@[simp] theorem State.log_envlog (e : EnvEvent) : (s.log e).envlog = s.envlog ++ [e] := rfl
@[simp] theorem State.log_events (e : EnvEvent) : (s.log e).events = s.events := rfl
@[simp] theorem State.log_allocs (e : EnvEvent) : (s.log e).allocs = s.allocs := rfl
@[simp] theorem State.log_claims (e : EnvEvent) : (s.log e).claims = s.claims := rfl
@[simp] theorem State.log_drawn (e : EnvEvent) : (s.log e).drawn = s.drawn := rfl
@[simp] theorem State.log_readData (e : EnvEvent) : (s.log e).readData = s.readData := rfl

/-! ### `State.acquire` -/

@[simp] theorem State.acquire_cfg (r : Region) : (s.acquire r).cfg = s.cfg := rfl
@[simp] theorem State.acquire_sesState (r : Region) : (s.acquire r).sesState = s.sesState := rfl
@[simp] theorem State.acquire_err (r : Region) : (s.acquire r).err = s.err := rfl
@[simp] theorem State.acquire_faults (r : Region) : (s.acquire r).faults = s.faults := rfl
@[simp] theorem State.acquire_args (r : Region) : (s.acquire r).args = s.args := rfl
@[simp] theorem State.acquire_ses (r : Region) : (s.acquire r).ses = s.ses := rfl
@[simp] theorem State.acquire_tq (r : Region) : (s.acquire r).tq = s.tq := rfl
@[simp] theorem State.acquire_eq (r : Region) : (s.acquire r).eq = s.eq := rfl
@[simp] theorem State.acquire_enc (r : Region) : (s.acquire r).enc = s.enc := rfl
@[simp] theorem State.acquire_cmd (r : Region) : (s.acquire r).cmd = s.cmd := rfl
@[simp] theorem State.acquire_pix (r : Region) : (s.acquire r).pix = s.pix := rfl
@[simp] theorem State.acquire_irq (r : Region) : (s.acquire r).irq = s.irq := rfl
@[simp] theorem State.acquire_ram (r : Region) : (s.acquire r).ram = s.ram := rfl
@[simp] theorem State.acquire_encq (r : Region) : (s.acquire r).encq = s.encq := rfl
@[simp] theorem State.acquire_live (r : Region) : (s.acquire r).live = s.live ++ [r] := rfl
@[simp] theorem State.acquire_envlog (r : Region) : (s.acquire r).envlog = s.envlog ++ [.alloc r.base r.words] := rfl
@[simp] theorem State.acquire_events (r : Region) : (s.acquire r).events = s.events := rfl
@[simp] theorem State.acquire_allocs (r : Region) : (s.acquire r).allocs = s.allocs := rfl
@[simp] theorem State.acquire_claims (r : Region) : (s.acquire r).claims = s.claims := rfl
@[simp] theorem State.acquire_drawn (r : Region) : (s.acquire r).drawn = s.drawn := rfl
@[simp] theorem State.acquire_readData (r : Region) : (s.acquire r).readData = s.readData := rfl

/-! ### `State.release` -/

@[simp] theorem State.release_cfg (r : Region) : (s.release r).cfg = s.cfg := rfl
@[simp] theorem State.release_sesState (r : Region) : (s.release r).sesState = s.sesState := rfl
@[simp] theorem State.release_err (r : Region) : (s.release r).err = s.err := rfl
@[simp] theorem State.release_faults (r : Region) : (s.release r).faults = s.faults := rfl
@[simp] theorem State.release_args (r : Region) : (s.release r).args = s.args := rfl
@[simp] theorem State.release_ses (r : Region) : (s.release r).ses = s.ses := rfl
@[simp] theorem State.release_tq (r : Region) : (s.release r).tq = s.tq := rfl
@[simp] theorem State.release_eq (r : Region) : (s.release r).eq = s.eq := rfl
@[simp] theorem State.release_enc (r : Region) : (s.release r).enc = s.enc := rfl
@[simp] theorem State.release_cmd (r : Region) : (s.release r).cmd = s.cmd := rfl
@[simp] theorem State.release_pix (r : Region) : (s.release r).pix = s.pix := rfl
@[simp] theorem State.release_irq (r : Region) : (s.release r).irq = s.irq := rfl
@[simp] theorem State.release_ram (r : Region) : (s.release r).ram = s.ram := rfl
@[simp] theorem State.release_encq (r : Region) : (s.release r).encq = s.encq := rfl
@[simp] theorem State.release_live (r : Region) : (s.release r).live = s.live.erase r := rfl
@[simp] theorem State.release_envlog (r : Region) : (s.release r).envlog = s.envlog ++ [.free r.base] := rfl
@[simp] theorem State.release_events (r : Region) : (s.release r).events = s.events := rfl
@[simp] theorem State.release_allocs (r : Region) : (s.release r).allocs = s.allocs := rfl
@[simp] theorem State.release_claims (r : Region) : (s.release r).claims = s.claims := rfl
@[simp] theorem State.release_drawn (r : Region) : (s.release r).drawn = s.drawn := rfl
@[simp] theorem State.release_readData (r : Region) : (s.release r).readData = s.readData := rfl

/-! ### `State.raiseFrameIrq` -/

@[simp] theorem State.raiseFrameIrq_cfg : (s.raiseFrameIrq).cfg = s.cfg := rfl
@[simp] theorem State.raiseFrameIrq_sesState : (s.raiseFrameIrq).sesState = s.sesState := rfl
@[simp] theorem State.raiseFrameIrq_err : (s.raiseFrameIrq).err = s.err := rfl
@[simp] theorem State.raiseFrameIrq_faults : (s.raiseFrameIrq).faults = s.faults := rfl
@[simp] theorem State.raiseFrameIrq_args : (s.raiseFrameIrq).args = s.args := rfl
@[simp] theorem State.raiseFrameIrq_ses : (s.raiseFrameIrq).ses = s.ses := rfl
@[simp] theorem State.raiseFrameIrq_tq : (s.raiseFrameIrq).tq = s.tq := rfl
@[simp] theorem State.raiseFrameIrq_eq : (s.raiseFrameIrq).eq = s.eq := rfl
@[simp] theorem State.raiseFrameIrq_enc : (s.raiseFrameIrq).enc = s.enc := rfl
@[simp] theorem State.raiseFrameIrq_cmd : (s.raiseFrameIrq).cmd = s.cmd := rfl
@[simp] theorem State.raiseFrameIrq_pix : (s.raiseFrameIrq).pix = s.pix := rfl
@[simp] theorem State.raiseFrameIrq_irq : (s.raiseFrameIrq).irq = { s.irq with pending := true } := rfl
@[simp] theorem State.raiseFrameIrq_ram : (s.raiseFrameIrq).ram = s.ram := rfl
@[simp] theorem State.raiseFrameIrq_encq : (s.raiseFrameIrq).encq = s.encq := rfl
@[simp] theorem State.raiseFrameIrq_live : (s.raiseFrameIrq).live = s.live := rfl
@[simp] theorem State.raiseFrameIrq_envlog : (s.raiseFrameIrq).envlog = s.envlog := rfl
@[simp] theorem State.raiseFrameIrq_events : (s.raiseFrameIrq).events = s.events := rfl
@[simp] theorem State.raiseFrameIrq_allocs : (s.raiseFrameIrq).allocs = s.allocs := rfl
@[simp] theorem State.raiseFrameIrq_claims : (s.raiseFrameIrq).claims = s.claims := rfl
@[simp] theorem State.raiseFrameIrq_drawn : (s.raiseFrameIrq).drawn = s.drawn := rfl
@[simp] theorem State.raiseFrameIrq_readData : (s.raiseFrameIrq).readData = s.readData := rfl

/-! ### `State.fbhEnter` -/

@[simp] theorem State.fbhEnter_cfg : (s.fbhEnter).cfg = s.cfg := rfl
@[simp] theorem State.fbhEnter_sesState : (s.fbhEnter).sesState = s.sesState := rfl
@[simp] theorem State.fbhEnter_err : (s.fbhEnter).err = s.err := rfl
@[simp] theorem State.fbhEnter_faults : (s.fbhEnter).faults = s.faults := rfl
@[simp] theorem State.fbhEnter_args : (s.fbhEnter).args = s.args := rfl
@[simp] theorem State.fbhEnter_ses : (s.fbhEnter).ses = s.ses := rfl
@[simp] theorem State.fbhEnter_tq : (s.fbhEnter).tq = s.tq := rfl
@[simp] theorem State.fbhEnter_eq : (s.fbhEnter).eq = s.eq := rfl
@[simp] theorem State.fbhEnter_enc : (s.fbhEnter).enc = s.enc := rfl
@[simp] theorem State.fbhEnter_cmd : (s.fbhEnter).cmd = s.cmd := rfl
@[simp] theorem State.fbhEnter_pix : (s.fbhEnter).pix = s.pix := rfl
@[simp] theorem State.fbhEnter_irq : (s.fbhEnter).irq = { s.irq with fbh := .reloading } := rfl
@[simp] theorem State.fbhEnter_ram : (s.fbhEnter).ram = s.ram := rfl
@[simp] theorem State.fbhEnter_encq : (s.fbhEnter).encq = s.encq := rfl
@[simp] theorem State.fbhEnter_live : (s.fbhEnter).live = s.live := rfl
@[simp] theorem State.fbhEnter_envlog : (s.fbhEnter).envlog = s.envlog := rfl
@[simp] theorem State.fbhEnter_events : (s.fbhEnter).events = s.events := rfl
@[simp] theorem State.fbhEnter_allocs : (s.fbhEnter).allocs = s.allocs := rfl
@[simp] theorem State.fbhEnter_claims : (s.fbhEnter).claims = s.claims := rfl
@[simp] theorem State.fbhEnter_drawn : (s.fbhEnter).drawn = s.drawn := rfl
@[simp] theorem State.fbhEnter_readData : (s.fbhEnter).readData = s.readData := rfl

/-! ### `State.startPlayback` -/

@[simp] theorem State.startPlayback_cfg : (s.startPlayback).cfg = s.cfg := rfl
@[simp] theorem State.startPlayback_sesState : (s.startPlayback).sesState = .running := rfl
@[simp] theorem State.startPlayback_err : (s.startPlayback).err = s.err := rfl
@[simp] theorem State.startPlayback_faults : (s.startPlayback).faults = s.faults := rfl
@[simp] theorem State.startPlayback_args : (s.startPlayback).args = s.args := rfl
@[simp] theorem State.startPlayback_ses : (s.startPlayback).ses = s.ses := rfl
@[simp] theorem State.startPlayback_tq : (s.startPlayback).tq = s.tq := rfl
@[simp] theorem State.startPlayback_eq : (s.startPlayback).eq = s.eq := rfl
@[simp] theorem State.startPlayback_enc : (s.startPlayback).enc = { s.enc with en := true } := rfl
@[simp] theorem State.startPlayback_cmd :
    (s.startPlayback).cmd = { s.cmd with rptr := s.ses.progBase, trig := true } := rfl
@[simp] theorem State.startPlayback_pix : (s.startPlayback).pix = s.pix := rfl
@[simp] theorem State.startPlayback_irq :
    (s.startPlayback).irq = { s.irq with activeRef := true, enable := true } := rfl
@[simp] theorem State.startPlayback_ram : (s.startPlayback).ram = s.ram := rfl
@[simp] theorem State.startPlayback_encq : (s.startPlayback).encq = s.encq := rfl
@[simp] theorem State.startPlayback_live : (s.startPlayback).live = s.live := rfl
@[simp] theorem State.startPlayback_envlog : (s.startPlayback).envlog = s.envlog := rfl
@[simp] theorem State.startPlayback_events : (s.startPlayback).events = s.events := rfl
@[simp] theorem State.startPlayback_allocs : (s.startPlayback).allocs = s.allocs := rfl
@[simp] theorem State.startPlayback_claims : (s.startPlayback).claims = s.claims := rfl
@[simp] theorem State.startPlayback_drawn : (s.startPlayback).drawn = s.drawn := rfl
@[simp] theorem State.startPlayback_readData : (s.startPlayback).readData = s.readData := rfl

/-! ### `State.clearSession` -/

@[simp] theorem State.clearSession_cfg : (s.clearSession).cfg = s.cfg := rfl
@[simp] theorem State.clearSession_sesState : (s.clearSession).sesState = .none := rfl
@[simp] theorem State.clearSession_err : (s.clearSession).err = s.err := rfl
@[simp] theorem State.clearSession_faults : (s.clearSession).faults = s.faults := rfl
@[simp] theorem State.clearSession_args : (s.clearSession).args = s.args := rfl
@[simp] theorem State.clearSession_ses : (s.clearSession).ses = Session.zero := rfl
@[simp] theorem State.clearSession_tq : (s.clearSession).tq = s.tq := rfl
@[simp] theorem State.clearSession_eq : (s.clearSession).eq = s.eq := rfl
@[simp] theorem State.clearSession_enc : (s.clearSession).enc = Encoder.zero := rfl
@[simp] theorem State.clearSession_cmd : (s.clearSession).cmd = CmdChannel.zero := rfl
@[simp] theorem State.clearSession_pix : (s.clearSession).pix = PixChannel.zero := rfl
@[simp] theorem State.clearSession_irq : (s.clearSession).irq = Irq.zero := rfl
@[simp] theorem State.clearSession_ram : (s.clearSession).ram = s.ram := rfl
@[simp] theorem State.clearSession_encq : (s.clearSession).encq = s.encq := rfl
@[simp] theorem State.clearSession_live : (s.clearSession).live = s.live := rfl
@[simp] theorem State.clearSession_envlog : (s.clearSession).envlog = s.envlog := rfl
@[simp] theorem State.clearSession_events : (s.clearSession).events = s.events := rfl
@[simp] theorem State.clearSession_allocs : (s.clearSession).allocs = s.allocs := rfl
@[simp] theorem State.clearSession_claims : (s.clearSession).claims = s.claims := rfl
@[simp] theorem State.clearSession_drawn : (s.clearSession).drawn = s.drawn := rfl
@[simp] theorem State.clearSession_readData : (s.clearSession).readData = s.readData := rfl

/-! ### `State.install` -/

@[simp] theorem State.install_cfg (g : Geometry) (fb prog : Word) (a b : BitVec 4) :
    (s.install g fb prog a b).cfg = s.cfg := rfl
@[simp] theorem State.install_sesState (g : Geometry) (fb prog : Word) (a b : BitVec 4) :
    (s.install g fb prog a b).sesState = .built := rfl
@[simp] theorem State.install_err (g : Geometry) (fb prog : Word) (a b : BitVec 4) :
    (s.install g fb prog a b).err = s.err := rfl
@[simp] theorem State.install_faults (g : Geometry) (fb prog : Word) (a b : BitVec 4) :
    (s.install g fb prog a b).faults = s.faults := rfl
@[simp] theorem State.install_args (g : Geometry) (fb prog : Word) (a b : BitVec 4) :
    (s.install g fb prog a b).args = s.args := rfl
@[simp] theorem State.install_tq (g : Geometry) (fb prog : Word) (a b : BitVec 4) :
    (s.install g fb prog a b).tq = s.tq := rfl
@[simp] theorem State.install_eq (g : Geometry) (fb prog : Word) (a b : BitVec 4) :
    (s.install g fb prog a b).eq = s.eq := rfl
@[simp] theorem State.install_enc (g : Geometry) (fb prog : Word) (a b : BitVec 4) :
    (s.install g fb prog a b).enc = { expand := toReg g.enc.expand, shift := toReg g.enc.shift, en := false, bswap := g.enc.bswap } := rfl
@[simp] theorem State.install_cmd (g : Geometry) (fb prog : Word) (a b : BitVec 4) :
    (s.install g fb prog a b).cmd = { s.cmd with ctrl := cmdCtrlWord g.descw } := rfl
@[simp] theorem State.install_pix (g : Geometry) (fb prog : Word) (a b : BitVec 4) :
    (s.install g fb prog a b).pix = { s.pix with ctrl := ctrlStd .word, waddr := encqAddr s.cfg } := rfl
@[simp] theorem State.install_irq (g : Geometry) (fb prog : Word) (a b : BitVec 4) :
    (s.install g fb prog a b).irq = s.irq := rfl
@[simp] theorem State.install_ram (g : Geometry) (fb prog : Word) (a b : BitVec 4) :
    (s.install g fb prog a b).ram = s.ram.writeWords prog.toNat (buildProgram s.cfg g (argWidth s) fb.toNat) := rfl
@[simp] theorem State.install_encq (g : Geometry) (fb prog : Word) (a b : BitVec 4) :
    (s.install g fb prog a b).encq = s.encq := rfl
@[simp] theorem State.install_live (g : Geometry) (fb prog : Word) (a b : BitVec 4) :
    (s.install g fb prog a b).live = s.live := rfl
@[simp] theorem State.install_envlog (g : Geometry) (fb prog : Word) (a b : BitVec 4) :
    (s.install g fb prog a b).envlog = s.envlog := rfl
@[simp] theorem State.install_events (g : Geometry) (fb prog : Word) (a b : BitVec 4) :
    (s.install g fb prog a b).events = s.events := rfl
@[simp] theorem State.install_allocs (g : Geometry) (fb prog : Word) (a b : BitVec 4) :
    (s.install g fb prog a b).allocs = s.allocs := rfl
@[simp] theorem State.install_claims (g : Geometry) (fb prog : Word) (a b : BitVec 4) :
    (s.install g fb prog a b).claims = s.claims := rfl
@[simp] theorem State.install_drawn (g : Geometry) (fb prog : Word) (a b : BitVec 4) :
    (s.install g fb prog a b).drawn = s.drawn := rfl
@[simp] theorem State.install_readData (g : Geometry) (fb prog : Word) (a b : BitVec 4) :
    (s.install g fb prog a b).readData = s.readData := rfl

/-! ### The session registers after `State.install` -/

@[simp] theorem State.install_ses_mode (g : Geometry) (fb prog : Word) (a b : BitVec 4) :
    (s.install g fb prog a b).ses.mode = toReg g.mode.number := rfl
@[simp] theorem State.install_ses_width (g : Geometry) (fb prog : Word) (a b : BitVec 4) :
    (s.install g fb prog a b).ses.width = s.args.width := rfl
@[simp] theorem State.install_ses_height (g : Geometry) (fb prog : Word) (a b : BitVec 4) :
    (s.install g fb prog a b).ses.height = s.args.height := rfl
@[simp] theorem State.install_ses_depth (g : Geometry) (fb prog : Word) (a b : BitVec 4) :
    (s.install g fb prog a b).ses.depth = s.args.depth := rfl
@[simp] theorem State.install_ses_pitch (g : Geometry) (fb prog : Word) (a b : BitVec 4) :
    (s.install g fb prog a b).ses.pitch = toReg g.pitch := rfl
@[simp] theorem State.install_ses_hscale (g : Geometry) (fb prog : Word) (a b : BitVec 4) :
    (s.install g fb prog a b).ses.hscale = toReg g.hScale := rfl
@[simp] theorem State.install_ses_vscale (g : Geometry) (fb prog : Word) (a b : BitVec 4) :
    (s.install g fb prog a b).ses.vscale = toReg g.vScale := rfl
@[simp] theorem State.install_ses_fbBase (g : Geometry) (fb prog : Word) (a b : BitVec 4) :
    (s.install g fb prog a b).ses.fbBase = fb := rfl
@[simp] theorem State.install_ses_fbWords (g : Geometry) (fb prog : Word) (a b : BitVec 4) :
    (s.install g fb prog a b).ses.fbWords = toReg g.fbWords := rfl
@[simp] theorem State.install_ses_progBase (g : Geometry) (fb prog : Word) (a b : BitVec 4) :
    (s.install g fb prog a b).ses.progBase = prog := rfl
@[simp] theorem State.install_ses_progWords (g : Geometry) (fb prog : Word) (a b : BitVec 4) :
    (s.install g fb prog a b).ses.progWords = toReg g.progWords := rfl
@[simp] theorem State.install_ses_descw (g : Geometry) (fb prog : Word) (a b : BitVec 4) :
    (s.install g fb prog a b).ses.descw = toReg g.descw := rfl
@[simp] theorem State.install_ses_chIds (g : Geometry) (fb prog : Word) (a b : BitVec 4) :
    (s.install g fb prog a b).ses.chIds = chIdsWord a b := rfl

/-! ### `State.reloadAction`: the interrupt state and the command channel, and nothing else -/

@[simp] theorem State.reloadAction_cfg : s.reloadAction.cfg = s.cfg := by
  unfold State.reloadAction; split <;> rfl
@[simp] theorem State.reloadAction_sesState : s.reloadAction.sesState = s.sesState := by
  unfold State.reloadAction; split <;> rfl
@[simp] theorem State.reloadAction_err : s.reloadAction.err = s.err := by
  unfold State.reloadAction; split <;> rfl
@[simp] theorem State.reloadAction_faults : s.reloadAction.faults = s.faults := by
  unfold State.reloadAction; split <;> rfl
@[simp] theorem State.reloadAction_args : s.reloadAction.args = s.args := by
  unfold State.reloadAction; split <;> rfl
@[simp] theorem State.reloadAction_ses : s.reloadAction.ses = s.ses := by
  unfold State.reloadAction; split <;> rfl
@[simp] theorem State.reloadAction_tq : s.reloadAction.tq = s.tq := by
  unfold State.reloadAction; split <;> rfl
@[simp] theorem State.reloadAction_eq : s.reloadAction.eq = s.eq := by
  unfold State.reloadAction; split <;> rfl
@[simp] theorem State.reloadAction_enc : s.reloadAction.enc = s.enc := by
  unfold State.reloadAction; split <;> rfl
@[simp] theorem State.reloadAction_pix : s.reloadAction.pix = s.pix := by
  unfold State.reloadAction; split <;> rfl
@[simp] theorem State.reloadAction_ram : s.reloadAction.ram = s.ram := by
  unfold State.reloadAction; split <;> rfl
@[simp] theorem State.reloadAction_encq : s.reloadAction.encq = s.encq := by
  unfold State.reloadAction; split <;> rfl
@[simp] theorem State.reloadAction_live : s.reloadAction.live = s.live := by
  unfold State.reloadAction; split <;> rfl
@[simp] theorem State.reloadAction_envlog : s.reloadAction.envlog = s.envlog := by
  unfold State.reloadAction; split <;> rfl
@[simp] theorem State.reloadAction_events : s.reloadAction.events = s.events := by
  unfold State.reloadAction; split <;> rfl
@[simp] theorem State.reloadAction_allocs : s.reloadAction.allocs = s.allocs := by
  unfold State.reloadAction; split <;> rfl
@[simp] theorem State.reloadAction_claims : s.reloadAction.claims = s.claims := by
  unfold State.reloadAction; split <;> rfl
@[simp] theorem State.reloadAction_drawn : s.reloadAction.drawn = s.drawn := by
  unfold State.reloadAction; split <;> rfl
@[simp] theorem State.reloadAction_readData : s.reloadAction.readData = s.readData := by
  unfold State.reloadAction; split <;> rfl

theorem State.reloadAction_active (h : s.irq.activeRef = true) :
    s.reloadAction =
      { s with
        irq := { s.irq with pending := false }
        cmd := { s.cmd with rptr := s.ses.progBase, trig := true } } := by
  simp [State.reloadAction, h]

theorem State.reloadAction_absent (h : s.irq.activeRef = false) : s.reloadAction = s := by
  simp [State.reloadAction, h]

/-! ### `State.fbhReturn` -/

@[simp] theorem State.fbhReturn_cfg : s.fbhReturn.cfg = s.cfg := by
  simp [State.fbhReturn]
@[simp] theorem State.fbhReturn_sesState : s.fbhReturn.sesState = s.sesState := by
  simp [State.fbhReturn]
@[simp] theorem State.fbhReturn_err : s.fbhReturn.err = s.err := by
  simp [State.fbhReturn]
@[simp] theorem State.fbhReturn_faults : s.fbhReturn.faults = s.faults := by
  simp [State.fbhReturn]
@[simp] theorem State.fbhReturn_args : s.fbhReturn.args = s.args := by
  simp [State.fbhReturn]
@[simp] theorem State.fbhReturn_ses : s.fbhReturn.ses = s.ses := by
  simp [State.fbhReturn]
@[simp] theorem State.fbhReturn_tq : s.fbhReturn.tq = s.tq := by
  simp [State.fbhReturn]
@[simp] theorem State.fbhReturn_eq : s.fbhReturn.eq = s.eq := by
  simp [State.fbhReturn]
@[simp] theorem State.fbhReturn_enc : s.fbhReturn.enc = s.enc := by
  simp [State.fbhReturn]
@[simp] theorem State.fbhReturn_cmd : s.fbhReturn.cmd = s.reloadAction.cmd := by
  simp [State.fbhReturn]
@[simp] theorem State.fbhReturn_pix : s.fbhReturn.pix = s.pix := by
  simp [State.fbhReturn]
@[simp] theorem State.fbhReturn_ram : s.fbhReturn.ram = s.ram := by
  simp [State.fbhReturn]
@[simp] theorem State.fbhReturn_encq : s.fbhReturn.encq = s.encq := by
  simp [State.fbhReturn]
@[simp] theorem State.fbhReturn_live : s.fbhReturn.live = s.live := by
  simp [State.fbhReturn]
@[simp] theorem State.fbhReturn_envlog : s.fbhReturn.envlog = s.envlog := by
  simp [State.fbhReturn]
@[simp] theorem State.fbhReturn_events : s.fbhReturn.events = s.events := by
  simp [State.fbhReturn]
@[simp] theorem State.fbhReturn_allocs : s.fbhReturn.allocs = s.allocs := by
  simp [State.fbhReturn]
@[simp] theorem State.fbhReturn_claims : s.fbhReturn.claims = s.claims := by
  simp [State.fbhReturn]
@[simp] theorem State.fbhReturn_drawn : s.fbhReturn.drawn = s.drawn := by
  simp [State.fbhReturn]
@[simp] theorem State.fbhReturn_readData : s.fbhReturn.readData = s.readData := by
  simp [State.fbhReturn]

@[simp] theorem State.fbhReturn_irq : s.fbhReturn.irq = { s.reloadAction.irq with fbh := .armed } := rfl

/-! ### `State.deliver`: the queue, the pixel channel and the trigger, and nothing else -/

@[simp] theorem State.deliver_cfg (size : ElemSize) (v : Nat) : (s.deliver size v).cfg = s.cfg := by
  simp only [State.deliver]; split <;> rfl
@[simp] theorem State.deliver_sesState (size : ElemSize) (v : Nat) : (s.deliver size v).sesState = s.sesState := by
  simp only [State.deliver]; split <;> rfl
@[simp] theorem State.deliver_err (size : ElemSize) (v : Nat) : (s.deliver size v).err = s.err := by
  simp only [State.deliver]; split <;> rfl
@[simp] theorem State.deliver_faults (size : ElemSize) (v : Nat) : (s.deliver size v).faults = s.faults := by
  simp only [State.deliver]; split <;> rfl
@[simp] theorem State.deliver_args (size : ElemSize) (v : Nat) : (s.deliver size v).args = s.args := by
  simp only [State.deliver]; split <;> rfl
@[simp] theorem State.deliver_ses (size : ElemSize) (v : Nat) : (s.deliver size v).ses = s.ses := by
  simp only [State.deliver]; split <;> rfl
@[simp] theorem State.deliver_tq (size : ElemSize) (v : Nat) : (s.deliver size v).tq = s.tq := by
  simp only [State.deliver]; split <;> rfl
@[simp] theorem State.deliver_eq (size : ElemSize) (v : Nat) : (s.deliver size v).eq = s.eq := by
  simp only [State.deliver]; split <;> rfl
@[simp] theorem State.deliver_enc (size : ElemSize) (v : Nat) : (s.deliver size v).enc = s.enc := by
  simp only [State.deliver]; split <;> rfl
@[simp] theorem State.deliver_irq (size : ElemSize) (v : Nat) : (s.deliver size v).irq = s.irq := by
  simp only [State.deliver]; split <;> rfl
@[simp] theorem State.deliver_ram (size : ElemSize) (v : Nat) : (s.deliver size v).ram = s.ram := by
  simp only [State.deliver]; split <;> rfl
@[simp] theorem State.deliver_live (size : ElemSize) (v : Nat) : (s.deliver size v).live = s.live := by
  simp only [State.deliver]; split <;> rfl
@[simp] theorem State.deliver_envlog (size : ElemSize) (v : Nat) : (s.deliver size v).envlog = s.envlog := by
  simp only [State.deliver]; split <;> rfl
@[simp] theorem State.deliver_events (size : ElemSize) (v : Nat) : (s.deliver size v).events = s.events := by
  simp only [State.deliver]; split <;> rfl
@[simp] theorem State.deliver_allocs (size : ElemSize) (v : Nat) : (s.deliver size v).allocs = s.allocs := by
  simp only [State.deliver]; split <;> rfl
@[simp] theorem State.deliver_claims (size : ElemSize) (v : Nat) : (s.deliver size v).claims = s.claims := by
  simp only [State.deliver]; split <;> rfl
@[simp] theorem State.deliver_drawn (size : ElemSize) (v : Nat) : (s.deliver size v).drawn = s.drawn := by
  simp only [State.deliver]; split <;> rfl
@[simp] theorem State.deliver_readData (size : ElemSize) (v : Nat) : (s.deliver size v).readData = s.readData := by
  simp only [State.deliver]; split <;> rfl
@[simp] theorem State.deliver_encq (size : ElemSize) (v : Nat) :
    (s.deliver size v).encq = s.encq ++ [{ size := size, value := v }] := by
  simp only [State.deliver]; split <;> rfl

/-- The last element of a transfer ends it and triggers the command channel (R228 lines 6 to 8). -/
theorem State.deliver_last (size : ElemSize) (v : Nat) (h : s.pix.len = 1#32) :
    s.deliver size v =
      { s with
        encq := s.encq ++ [{ size := size, value := v }]
        pix := { s.pix.advance size.bytes with busy := false }
        cmd := { s.cmd with trig := true } } := by
  simp [State.deliver, PixChannel.advance, h]

/-- Any other element leaves the transfer in flight. -/
theorem State.deliver_more (size : ElemSize) (v : Nat) (h : s.pix.len ≠ 1#32) :
    s.deliver size v =
      { s with encq := s.encq ++ [{ size := size, value := v }], pix := s.pix.advance size.bytes } := by
  have h' : s.pix.len - 1#32 ≠ 0#32 := by
    intro hc
    apply h
    bv_omega
  simp [State.deliver, PixChannel.advance, h']

end Sys2Proof.Machine
end

