-- ==== Sys2Proof/Laws/Ops.lean ====
section
/-! SUPPORT. One lemma for each shared operation that says everything it can do: the fault bits, the regions, the environment's
answers, the reads of the channels, loading a descriptor. -/

namespace Sys2Proof.Machine

/-! ### The fault bits -/

theorem FaultBits.get_set (f : FaultBits) (b c : FaultBit) : (f.set b).get c = (decide (c = b) || f.get c) := by
  cases b <;> cases c <;> simp [FaultBits.set, FaultBits.get]

theorem FaultBits.lowest_eq_none {f : FaultBits} : f.lowest = none ↔ f = FaultBits.clear := by
  obtain ⟨a, b, c, d, e, g⟩ := f
  cases a <;> cases b <;> cases c <;> cases d <;> cases e <;> cases g <;> simp [FaultBits.lowest, FaultBits.clear]

@[simp] theorem FaultBits.lowest_clear : FaultBits.clear.lowest = none := rfl

theorem FaultBits.lowest_isSome {f : FaultBits} (h : f ≠ FaultBits.clear) : ∃ b, f.lowest = some b ∧ f.get b = true := by
  obtain ⟨a, b, c, d, e, g⟩ := f
  cases a <;> cases b <;> cases c <;> cases d <;> cases e <;> cases g <;>
    simp_all [FaultBits.lowest, FaultBits.clear, FaultBits.get]

/-- A bit set is set, so the result is not clear. -/
theorem FaultBits.set_ne_clear (f : FaultBits) (b : FaultBit) : f.set b ≠ FaultBits.clear := by
  cases b <;> simp [FaultBits.set, FaultBits.clear]

/-- A step from a state with no fault is the step of the next event's agent. -/
theorem step_of_noFault {s : State} (h : s.faults = FaultBits.clear) :
    step s = agentStep s.takeEvent.1 s.takeEvent.2 := by
  simp [step, h]

/-- The next event is the head of the list, when there is one. -/
theorem State.takeEvent_cons {s : State} {e : Event} {rest : List Event} (h : s.events = e :: rest) :
    s.takeEvent = (e, { s with events := rest }) := by
  simp [State.takeEvent, h]

/-- Taking the next event changes the list of events and the counter, and nothing else. -/
theorem State.takeEvent_frame (s : State) :
    s.takeEvent.2 = { s with events := s.takeEvent.2.events, drawn := s.takeEvent.2.drawn } := by
  unfold State.takeEvent
  split <;> rfl

/-! ### Regions -/

theorem Region.covers_iff {r : Region} {a n : Nat} :
    r.covers a n = true ↔ r.base ≤ a ∧ a + n ≤ r.base + 4 * r.words := by
  simp [Region.covers]

theorem Region.disjoint_iff {r q : Region} :
    r.disjoint q = true ↔ r.base + 4 * r.words ≤ q.base ∨ q.base + 4 * q.words ≤ r.base := by
  simp [Region.disjoint]

theorem inRam_iff {c : Config} {a n : Nat} :
    inRam c a n = true ↔ c.memBase ≤ a ∧ a + n ≤ c.memBase + c.memSize := by
  simp [inRam]

theorem inPatternWindow_iff {c : Config} {a n : Nat} :
    inPatternWindow c a n = true ↔ patBase c ≤ a ∧ a + n ≤ patBase c + 0x40 := by
  simp [inPatternWindow]

theorem inRegisterSpace_iff {c : Config} {a : Nat} :
    inRegisterSpace c a = true ↔ c.vtgBase ≤ a ∧ a < c.vtgBase + 4096 := by
  simp [inRegisterSpace]

theorem State.hasSession_iff {s : State} : s.hasSession = true ↔ s.sesState ≠ .none := by
  simp [State.hasSession]

theorem State.inProgram_iff {s : State} {a n : Nat} :
    s.inProgram a n = true ↔
      s.sesState ≠ .none ∧ (s.ses.progBase.toNat ≤ a ∧ a + n ≤ s.ses.progBase.toNat + 4 * s.ses.progWords.toNat) ∧
        (s.cfg.memBase ≤ a ∧ a + n ≤ s.cfg.memBase + s.cfg.memSize) := by
  simp [State.inProgram, State.hasSession_iff, Region.covers_iff, inRam_iff, State.progRegion, and_assoc]

theorem State.inFramebuffer_iff {s : State} {a n : Nat} :
    s.inFramebuffer a n = true ↔
      s.sesState ≠ .none ∧ (s.ses.fbBase.toNat ≤ a ∧ a + n ≤ s.ses.fbBase.toNat + 4 * s.ses.fbWords.toNat) ∧
        (s.cfg.memBase ≤ a ∧ a + n ≤ s.cfg.memBase + s.cfg.memSize) := by
  simp [State.inFramebuffer, State.hasSession_iff, Region.covers_iff, inRam_iff, State.fbRegion, and_assoc]

/-! ### The environment's answers -/

theorem admissibleAlloc_iff {s : State} {n : Nat} {a : Word} :
    admissibleAlloc s n a = true ↔
      a.toNat % 4 = 0 ∧ (s.cfg.memBase ≤ a.toNat ∧ a.toNat + 4 * n ≤ s.cfg.memBase + s.cfg.memSize) ∧
        ∀ r ∈ s.live, a.toNat + 4 * n ≤ r.base ∨ r.base + 4 * r.words ≤ a.toNat := by
  simp [admissibleAlloc, inRam_iff, Region.disjoint_iff, and_assoc]

/-- A request uses up one answer, or one free value, changes nothing else, and what it answers is admissible (R181). -/
theorem State.drawAlloc_spec (s : State) (n : Nat) :
    (s.drawAlloc n).2 = { s with allocs := (s.drawAlloc n).2.allocs, drawn := (s.drawAlloc n).2.drawn } ∧
      ∀ a, (s.drawAlloc n).1 = some a → admissibleAlloc s n a = true := by
  unfold State.drawAlloc
  split
  · refine ⟨rfl, fun a h => ?_⟩
    exact (Option.filter_eq_some_iff.mp h).2
  · refine ⟨rfl, fun a h => ?_⟩
    exact (Option.filter_eq_some_iff.mp h).2

/-- A request answered from the list. -/
theorem State.drawAlloc_cons {s : State} {n : Nat} {a : Word} {rest : List (Option Word)}
    (h : s.allocs = some a :: rest) (ha : admissibleAlloc s n a = true) :
    s.drawAlloc n = (some a, { s with allocs := rest }) := by
  simp [State.drawAlloc, h, Option.filter, ha]

/-- A request refused from the list. -/
theorem State.drawAlloc_none {s : State} {n : Nat} {rest : List (Option Word)} (h : s.allocs = none :: rest) :
    s.drawAlloc n = (none, { s with allocs := rest }) := by
  simp [State.drawAlloc, h]

/-- A channel claim, as for allocations (R182). -/
theorem State.drawClaim_spec (s : State) :
    s.drawClaim.2 = { s with claims := s.drawClaim.2.claims, drawn := s.drawClaim.2.drawn } ∧
      ∀ p, s.drawClaim.1 = some p → p.1 ≠ p.2 := by
  unfold State.drawClaim
  split
  · refine ⟨rfl, fun p h => ?_⟩
    simpa [admissibleClaim] using (Option.filter_eq_some_iff.mp h).2
  · refine ⟨rfl, fun p h => ?_⟩
    simpa [admissibleClaim] using (Option.filter_eq_some_iff.mp h).2

/-- A claim answered from the list. -/
theorem State.drawClaim_cons {s : State} {a b : BitVec 4} {rest : List (Option (BitVec 4 × BitVec 4))}
    (h : s.claims = some (a, b) :: rest) (hab : a ≠ b) :
    s.drawClaim = (some (a, b), { s with claims := rest }) := by
  simp [State.drawClaim, h, Option.filter, admissibleClaim, hab]

/-! ### The reads of the channels -/

theorem State.readCmd_eq_some {s : State} {a : Nat} {w : Word} :
    s.readCmd a = some w ↔
      a % 4 = 0 ∧ s.inProgram a 4 = true ∧ w = BitVec.ofNat 32 (s.ram.readLE a 4) := by
  unfold State.readCmd
  split <;> rename_i h
  · simp [h.1, h.2, eq_comm]
  · simp only [reduceCtorEq, false_iff]
    exact fun hc => h ⟨hc.1, hc.2.1⟩

/-- A fetch that succeeds reads the words of the program region (R223 line 3). -/
theorem State.fetchWords_eq_some {s : State} {a n : Nat} {ws : List Word} (h : s.fetchWords a n = some ws) :
    ws = s.ram.wordsAt a n ∧ ∀ j, j < n → (a + 4 * j) % 4 = 0 ∧ s.inProgram (a + 4 * j) 4 = true := by
  induction n generalizing a ws with
  | zero => cases h; exact ⟨rfl, fun j hj => absurd hj (by omega)⟩
  | succ n ih =>
    unfold State.fetchWords at h
    split at h
    · cases h
    · rename_i w hw
      obtain ⟨ha, hp, rfl⟩ := State.readCmd_eq_some.mp hw
      cases hrest : s.fetchWords (a + 4) n with
      | none => rw [hrest] at h; cases h
      | some rest =>
        rw [hrest] at h
        cases h
        obtain ⟨rfl, hj⟩ := ih hrest
        refine ⟨rfl, fun j hlt => ?_⟩
        cases j with
        | zero => exact ⟨ha, hp⟩
        | succ j =>
          have := hj j (by omega)
          rwa [show a + 4 + 4 * j = a + 4 * (j + 1) by omega] at this

/-- A fetch of aligned words of the program region succeeds. -/
theorem State.fetchWords_of_inProgram {s : State} {a n : Nat}
    (h : ∀ j, j < n → (a + 4 * j) % 4 = 0 ∧ s.inProgram (a + 4 * j) 4 = true) :
    s.fetchWords a n = some (s.ram.wordsAt a n) := by
  induction n generalizing a with
  | zero => rfl
  | succ n ih =>
    have h0 := h 0 (by omega)
    have hr : s.readCmd a = some (BitVec.ofNat 32 (s.ram.readLE a 4)) :=
      State.readCmd_eq_some.mpr ⟨h0.1, h0.2, rfl⟩
    have hrest := ih (a := a + 4) (fun j hj => by
      have := h (j + 1) (by omega)
      rwa [show a + 4 * (j + 1) = a + 4 + 4 * j by omega] at this)
    simp [State.fetchWords, hr, hrest, Memory.wordsAt]

/-- What the pixel channel's read can do: a word of the pattern window, or an element of the framebuffer (R72 to R74). -/
theorem State.readPix_eq_some {s : State} {a : Nat} {z : ElemSize} {v : Nat} (h : s.readPix a z = some v) :
    a % z.bytes = 0 ∧
      ((inPatternWindow s.cfg a z.bytes = true ∧ z = .word ∧ v = patternAt s.cfg (a - patBase s.cfg)) ∨
        (inPatternWindow s.cfg a z.bytes = false ∧ s.inFramebuffer a z.bytes = true ∧
          v = s.ram.readLE a z.bytes)) := by
  unfold State.readPix at h
  split at h
  · cases h
  · rename_i ha
    refine ⟨by omega, ?_⟩
    split at h
    · rename_i hw
      split at h
      · rename_i hz
        cases h
        exact .inl ⟨hw, hz, rfl⟩
      · cases h
    · rename_i hw
      split at h
      · rename_i hf
        cases h
        exact .inr ⟨by simpa using hw, hf, rfl⟩
      · cases h

/-- A word of the pattern window is readable (R73). -/
theorem State.readPix_pattern {s : State} {a : Nat} (ha : a % 4 = 0) (hw : inPatternWindow s.cfg a 4 = true) :
    s.readPix a .word = some (patternAt s.cfg (a - patBase s.cfg)) := by
  simp [State.readPix, ElemSize.bytes, ha, hw]

/-- An aligned element of the framebuffer, outside the pattern window, is readable (R74). -/
theorem State.readPix_framebuffer {s : State} {a : Nat} {z : ElemSize} (ha : a % z.bytes = 0)
    (hw : inPatternWindow s.cfg a z.bytes = false) (hf : s.inFramebuffer a z.bytes = true) :
    s.readPix a z = some (s.ram.readLE a z.bytes) := by
  simp [State.readPix, ha, hw, hf]

/-! ### Loading a descriptor -/

/-- Everything `loadDescriptor` can do (R223 to R226). -/
theorem loadDescriptor_cases (n : Nat) (p : PixChannel) (s : State) :
    (s.pix.busy = true ∧ loadDescriptor n p s = raise .pixOverwrite s) ∨
    (s.pix.busy = false ∧ (ctrlSize p.ctrl = none ∨ p.waddr ≠ encqAddr s.cfg) ∧
      loadDescriptor n p s = raise .badDesc s) ∨
    (s.pix.busy = false ∧ p.waddr = encqAddr s.cfg ∧ ∃ z, ctrlSize p.ctrl = some z ∧
      ((p.len = 0#32 ∧
          loadDescriptor n p s =
            .next { s with cmd := s.cmd.consume n, pix := p, irq := { s.irq with pending := true } }) ∨
        (p.len ≠ 0#32 ∧ alignedFor z p.raddr = true ∧
          loadDescriptor n p s = .next { s with cmd := s.cmd.consume n, pix := { p with busy := true } }) ∨
        (p.len ≠ 0#32 ∧ alignedFor z p.raddr = false ∧ loadDescriptor n p s = raise .badDesc s))) := by
  unfold loadDescriptor
  by_cases hb : s.pix.busy = true
  · exact .inl ⟨hb, by simp [hb]⟩
  · have hb' : s.pix.busy = false := by simpa using hb
    refine .inr ?_
    cases hz : ctrlSize p.ctrl with
    | none => exact .inl ⟨hb', .inl rfl, by simp [hb']⟩
    | some z =>
      by_cases hw : p.waddr = encqAddr s.cfg
      · refine .inr ⟨hb', hw, z, rfl, ?_⟩
        by_cases hl : p.len = 0#32
        · exact .inl ⟨hl, by simp [hb', hw, hl, State.raiseFrameIrq]⟩
        · by_cases ha : alignedFor z p.raddr = true
          · exact .inr (.inl ⟨hl, ha, by simp [hb', hw, hl, ha]⟩)
          · have ha' : alignedFor z p.raddr = false := by simpa using ha
            exact .inr (.inr ⟨hl, ha', by simp [hb', hw, hl, ha']⟩)
      · exact .inl ⟨hb', .inr hw, by simp [hb', hw]⟩

/-- Loading a descriptor always answers a next state. -/
theorem loadDescriptor_next (n : Nat) (p : PixChannel) (s : State) : ∃ t, loadDescriptor n p s = .next t := by
  rcases loadDescriptor_cases n p s with ⟨_, h⟩ | ⟨_, _, h⟩ | ⟨_, _, z, _, ⟨_, h⟩ | ⟨_, _, h⟩ | ⟨_, _, h⟩⟩ <;>
    exact ⟨_, h⟩

end Sys2Proof.Machine
end

