-- ==== Sys2Proof/Laws/Builder.lean ====
section
/-! SUPPORT. The laws of the builder: what a geometry record is, its bounds, the length and the descriptors of a program
(`42_program_builder.md` R171 to R179). -/

namespace Sys2Proof.Machine

/-! ### The geometry record -/

/-- A mode is selected only where the width divides its active-pixel count (R134). -/
theorem selectMode_some {c : Config} {w : Nat} {m : OutputMode} (h : selectMode c w = some m) :
    w ≠ 0 ∧ (timingOf c m).hActive % w = 0 := by
  unfold selectMode at h
  split at h
  · cases h
  · rename_i hw
    split at h
    · cases h; exact ⟨hw, ‹_›⟩
    · split at h
      · cases h; exact ⟨hw, ‹_›⟩
      · cases h

/-- The depths with an expansion are the six of R159. -/
theorem expansionOf_isSome {c : Config} {d : Nat} {e : Expansion} (h : expansionOf c d = some e) :
    d = 1 ∨ d = 2 ∨ d = 4 ∨ d = 8 ∨ d = 16 ∨ d = 32 := by
  unfold expansionOf at h
  split at h <;> first | cases h; done | omega

/-- What `encParams` answers, when it answers (R161). -/
theorem encParams_some {c : Config} {d k : Nat} {p : EncParams} (h : encParams c d k = some p) :
    ∃ e, expansionOf c d = some e ∧ k ≠ 0 ∧ nShifts d k < 32 ∧
      p = { expand := packExpand e, shift := packShift d k, bswap := byteSwap d } := by
  unfold encParams at h
  split at h
  · cases h
  · rename_i e he
    split at h
    · cases h
    · split at h
      · cases h
      · cases h
        exact ⟨e, he, by assumption, by omega, rfl⟩

/-- Everything a geometry record says of its operands (R171). -/
structure Geometry.Of (c : Config) (w h d : Nat) (g : Geometry) : Prop where
  depth : d = 1 ∨ d = 2 ∨ d = 4 ∨ d = 8 ∨ d = 16 ∨ d = 32
  width : w ≠ 0
  height : h ≠ 0
  mode : selectMode c w = some g.mode
  hDivides : (timingOf c g.mode).hActive = g.hScale * w
  vDivides : (timingOf c g.mode).vActive = g.vScale * h
  deep : g.hScale ≤ 1 ∨ 8 ≤ d
  enc : encParams c d g.hScale = some g.enc
  pitch : g.pitch = (w * d + 31) / 32
  fbWords : g.fbWords = g.pitch * h
  descw : g.descw = if g.hScale = 1 then 2 else 4
  progWords : g.progWords = ((timingOf c g.mode).vTotal + 1) * g.descw
  esize : g.esize = if g.hScale = 1 then .word else elemOfDepth d

theorem geometry_some {c : Config} {w h d : Nat} {g : Geometry} (hg : geometry c w h d = some g) :
    Geometry.Of c w h d g := by
  unfold geometry at hg
  split at hg
  · cases hg
  rename_i e he
  split at hg
  · cases hg
  rename_i hwh
  split at hg
  · cases hg
  rename_i m hm
  dsimp only at hg
  split at hg
  · cases hg
  rename_i hv
  split at hg
  · cases hg
  rename_i hd
  split at hg
  · cases hg
  rename_i p hp
  cases hg
  obtain ⟨hw0, hdiv⟩ := selectMode_some hm
  refine ⟨expansionOf_isSome he, hw0, fun h0 => hwh (.inr h0), hm, ?_, ?_, ?_, hp, rfl, rfl, rfl, rfl, rfl⟩
  · exact (Nat.div_mul_cancel (Nat.dvd_of_mod_eq_zero hdiv)).symm
  · exact (Nat.div_mul_cancel (Nat.dvd_of_mod_eq_zero (by simpa using hv))).symm
  · show (timingOf c m).hActive / w ≤ 1 ∨ 8 ≤ d
    omega

theorem Geometry.Of.descw_cases {c : Config} {w h d : Nat} {g : Geometry} (hg : Geometry.Of c w h d g) :
    (g.hScale = 1 ∧ g.descw = 2) ∨ (g.hScale ≠ 1 ∧ g.descw = 4) := by
  have := hg.descw
  split at this
  · exact .inl ⟨by assumption, this⟩
  · exact .inr ⟨by assumption, this⟩

theorem Geometry.Of.depthPos {c : Config} {w h d : Nat} {g : Geometry} (hg : Geometry.Of c w h d g) : 1 ≤ d ∧ d ≤ 32 := by
  have := hg.depth
  omega

theorem Geometry.Of.pitchPos {c : Config} {w h d : Nat} {g : Geometry} (hg : Geometry.Of c w h d g) : 1 ≤ g.pitch := by
  have h1 := hg.pitch
  have h2 : 1 ≤ w * d := Nat.mul_pos (Nat.pos_of_ne_zero hg.width) hg.depthPos.1
  omega

theorem Geometry.Of.fbWordsPos {c : Config} {w h d : Nat} {g : Geometry} (hg : Geometry.Of c w h d g) : 1 ≤ g.fbWords := by
  rw [hg.fbWords]
  exact Nat.mul_pos hg.pitchPos (Nat.pos_of_ne_zero hg.height)

theorem Geometry.Of.descwPos {c : Config} {w h d : Nat} {g : Geometry} (hg : Geometry.Of c w h d g) : 2 ≤ g.descw := by
  rcases hg.descw_cases with h | h <;> omega

theorem Geometry.Of.progWordsPos {c : Config} {w h d : Nat} {g : Geometry} (hg : Geometry.Of c w h d g) :
    2 ≤ g.progWords := by
  rw [hg.progWords, Nat.add_mul, Nat.one_mul]
  have := hg.descwPos
  omega

/-- A row's pixels fit its pitch (R172). -/
theorem Geometry.Of.rowFits {c : Config} {w h d : Nat} {g : Geometry} (hg : Geometry.Of c w h d g) :
    w * d ≤ 32 * g.pitch := by
  have := hg.pitch
  omega

/-- With horizontal scaling an element is one pixel (R173). -/
theorem Geometry.Of.esize_scaled {c : Config} {w h d : Nat} {g : Geometry} (hg : Geometry.Of c w h d g)
    (hs : g.hScale ≠ 1) : 8 * g.esize.bytes = d ∧ 8 ≤ d := by
  have h0 : g.hScale ≠ 0 := by
    intro h0
    obtain ⟨e, -, hk, -⟩ := encParams_some hg.enc
    exact hk h0
  have hd8 : 8 ≤ d := by
    have := hg.deep
    omega
  have he := hg.esize
  rw [if_neg hs] at he
  refine ⟨?_, hd8⟩
  rw [he]
  rcases hg.depth with h | h | h | h | h | h <;> subst h <;> first | omega | rfl

/-! ### Bounds (R171) -/

/-- The active sizes of an admissible configuration. -/
theorem Config.Admissible.timing {c : Config} (hc : c.Admissible) (m : OutputMode) :
    (timingOf c m).Admissible ∧ ((timingOf c m).hActive = 640 ∧ (timingOf c m).vActive = 480 ∨
      (timingOf c m).hActive = 720 ∧ (timingOf c m).vActive = 400) := by
  cases m
  · exact ⟨hc.timing0, .inl ⟨hc.hActive0, hc.vActive0⟩⟩
  · exact ⟨hc.timing1, .inr ⟨hc.hActive1, hc.vActive1⟩⟩

/-- "Bounds that follow" (R171). -/
theorem Geometry.Of.bounds {c : Config} (hc : c.Admissible) {w h d : Nat} {g : Geometry} (hg : Geometry.Of c w h d g) :
    w ≤ 720 ∧ h ≤ 480 ∧ g.pitch ≤ 720 ∧ g.fbWords ≤ 307200 ∧ g.progWords ≤ 2 ^ 18 ∧
      1 ≤ g.hScale ∧ g.hScale ≤ 720 ∧ 1 ≤ g.vScale ∧ g.vScale ≤ 480 := by
  obtain ⟨ht, hsz⟩ := Config.Admissible.timing hc g.mode
  have hd := hg.depthPos
  have hw := hg.width
  have hh := hg.height
  have hv := hg.vDivides
  have hhd := hg.hDivides
  have hvpos := ht.vActivePos
  have hhpos := ht.hActivePos
  have hs1 : 1 ≤ g.hScale := by
    rcases Nat.eq_zero_or_pos g.hScale with h0 | h0
    · rw [h0] at hhd; omega
    · exact h0
  have vs1 : 1 ≤ g.vScale := by
    rcases Nat.eq_zero_or_pos g.vScale with h0 | h0
    · rw [h0] at hv; omega
    · exact h0
  have hwle : w ≤ (timingOf c g.mode).hActive := by rw [hhd]; exact Nat.le_mul_of_pos_left w hs1
  have hsle : g.hScale ≤ (timingOf c g.mode).hActive := by
    rw [hhd]; exact Nat.le_mul_of_pos_right g.hScale (Nat.pos_of_ne_zero hw)
  have hhle : h ≤ (timingOf c g.mode).vActive := by rw [hv]; exact Nat.le_mul_of_pos_left h vs1
  have vsle : g.vScale ≤ (timingOf c g.mode).vActive := by
    rw [hv]; exact Nat.le_mul_of_pos_right g.vScale (Nat.pos_of_ne_zero hh)
  have hp : g.pitch ≤ w := by
    have h1 := hg.pitch
    have h2 : w * d ≤ w * 32 := Nat.mul_le_mul_left w hd.2
    omega
  have hfb : g.fbWords ≤ (timingOf c g.mode).hActive * (timingOf c g.mode).vActive := by
    rw [hg.fbWords]
    exact Nat.mul_le_mul (by omega) hhle
  have hpw : g.progWords ≤ 65536 * 4 := by
    rw [hg.progWords]
    have h1 := ht.vTotalFits
    exact Nat.mul_le_mul (by omega) (by rcases hg.descw_cases with h | h <;> omega)
  rcases hsz with ⟨h1, h2⟩ | ⟨h1, h2⟩ <;> rw [h1, h2] at hfb <;> omega

/-! ### Lengths -/

theorem descWords_length {c : Config} {g : Geometry} (hg : g.descw = 2 ∨ g.descw = 4) (z : ElemSize) (len raddr : Nat) :
    (descWords c g z len raddr).length = g.descw := by
  unfold descWords
  rcases hg with h | h <;> simp [h]

theorem segment_length {c : Config} {g : Geometry} (hg : g.descw = 2 ∨ g.descw = 4) (w fb l : Nat) :
    (segment c g w fb l).length = g.descw := by
  unfold segment
  dsimp only
  split
  · exact descWords_length hg ..
  · exact descWords_length hg ..
  · exact descWords_length hg ..
  · split <;> exact descWords_length hg ..

/-- A list of equally long pieces, joined: its length and its pieces. -/
theorem flatMap_pieces {α : Type} (f : Nat → List α) (n k : Nat) (hf : ∀ i, i < k → (f i).length = n) :
    ((List.range k).flatMap f).length = k * n ∧
      ∀ i, i < k → (((List.range k).flatMap f).drop (n * i)).take n = f i := by
  induction k with
  | zero => exact ⟨by simp, fun i hi => absurd hi (by omega)⟩
  | succ k ih =>
    obtain ⟨hlen, hget⟩ := ih (fun i hi => hf i (by omega))
    have hk := hf k (by omega)
    rw [List.range_succ, List.flatMap_append]
    simp only [List.flatMap_cons, List.flatMap_nil, List.append_nil]
    refine ⟨by rw [List.length_append, hlen, hk, Nat.add_mul, Nat.one_mul], fun i hi => ?_⟩
    by_cases hik : i = k
    · subst hik
      rw [List.drop_append, hlen, List.drop_eq_nil_of_le (Nat.le_of_eq (by rw [hlen, Nat.mul_comm]))]
      simp [Nat.mul_comm, ← hk]
    · have hlt : i < k := by omega
      have hle : n * i + n ≤ k * n := by
        have : n * (i + 1) ≤ n * k := Nat.mul_le_mul_left n hlt
        rw [Nat.mul_add, Nat.mul_one, Nat.mul_comm n k] at this
        exact this
      rw [List.drop_append_of_le_length (by omega), List.take_append_of_le_length (by rw [List.length_drop]; omega)]
      exact hget i hlt

/-- "The length of the result is `g.prog_words`" (R175). -/
theorem buildProgram_length {c : Config} {g : Geometry} (hg : g.descw = 2 ∨ g.descw = 4) (w fb : Nat) :
    (buildProgram c g w fb).length = ((timingOf c g.mode).vTotal + 1) * g.descw := by
  unfold buildProgram
  rw [List.length_append, descWords_length hg,
    (flatMap_pieces (segment c g w fb) g.descw _ (fun i _ => segment_length hg w fb i)).1, Nat.add_mul, Nat.one_mul]

/-- Descriptor `l` of a program is the segment of line `l` (R176). -/
theorem buildProgram_segment {c : Config} {g : Geometry} (hg : g.descw = 2 ∨ g.descw = 4) (w fb : Nat) {l : Nat}
    (hl : l < (timingOf c g.mode).vTotal) :
    ((buildProgram c g w fb).drop (g.descw * l)).take g.descw = segment c g w fb l := by
  have hp := flatMap_pieces (segment c g w fb) g.descw (timingOf c g.mode).vTotal (fun i _ => segment_length hg w fb i)
  have hle : g.descw * l + g.descw ≤ (timingOf c g.mode).vTotal * g.descw := by
    have : g.descw * (l + 1) ≤ g.descw * (timingOf c g.mode).vTotal := Nat.mul_le_mul_left _ hl
    rw [Nat.mul_add, Nat.mul_one, Nat.mul_comm g.descw (timingOf c g.mode).vTotal] at this
    exact this
  unfold buildProgram
  rw [List.drop_append_of_le_length (by rw [hp.1]; omega),
    List.take_append_of_le_length (by rw [List.length_drop, hp.1]; omega)]
  exact hp.2 l hl

/-- The last descriptor of a program is the terminal (R179). -/
theorem buildProgram_terminal {c : Config} {g : Geometry} (hg : g.descw = 2 ∨ g.descw = 4) (w fb : Nat) :
    (buildProgram c g w fb).drop (g.descw * (timingOf c g.mode).vTotal) = descWords c g .word 0 0 := by
  have hp := flatMap_pieces (segment c g w fb) g.descw (timingOf c g.mode).vTotal (fun i _ => segment_length hg w fb i)
  unfold buildProgram
  rw [List.drop_append, List.drop_eq_nil_of_le (Nat.le_of_eq (by rw [hp.1, Nat.mul_comm])), hp.1,
    Nat.mul_comm, Nat.sub_self]
  rfl

theorem Geometry.Of.buildProgram_length {c : Config} {w h d : Nat} {g : Geometry} (hg : Geometry.Of c w h d g)
    (fb : Nat) : (buildProgram c g w fb).length = g.progWords := by
  have h24 : g.descw = 2 ∨ g.descw = 4 := by
    rcases hg.descw_cases with h | h
    · exact .inl h.2
    · exact .inr h.2
  rw [Machine.buildProgram_length h24, hg.progWords]

end Sys2Proof.Machine
end

