-- ==== Sys2Proof/Laws/Construct.lean ====
section
/-! SUPPORT. One lemma that says everything CONSTRUCT can do (`42_program_builder.md` R180, R187): it fails and leaves no trace but the code
and the log, or it installs a session in memory the environment may give. -/

namespace Sys2Proof.Machine

/-- A failed CONSTRUCT: nothing differs but `STATUS.ERR`, the log, and the model's record of the environment's answers. -/
def State.FailedConstruct (s t : State) : Prop :=
  t.err ≠ .ok ∧ (∃ l, t.envlog = s.envlog ++ l) ∧
    t = { s with err := t.err, envlog := t.envlog, allocs := t.allocs, claims := t.claims, drawn := t.drawn } ∧
    (t.err = .sessionConflict ∨ t.err = .configurationError → t = { s with err := t.err })

/-- The state a successful CONSTRUCT leaves, but for the model's record of the environment's answers. -/
def State.constructed (s : State) (g : Geometry) (fb prog : Word) (a b : BitVec 4) : State :=
  { (((s.acquire { base := fb.toNat, words := g.fbWords }).acquire
      { base := prog.toNat, words := g.progWords }).log (.claim a b)).install g fb prog a b with err := .ok }

/-- A successful CONSTRUCT. -/
structure State.Constructed (s t : State) (g : Geometry) (fb prog : Word) (a b : BitVec 4) : Prop where
  idle : s.sesState = .none
  geom : geometry s.cfg s.args.width.toNat s.args.height.toNat s.args.depth.toNat = some g
  fbOk : admissibleAlloc s g.fbWords fb = true
  progOk : admissibleAlloc s g.progWords prog = true
  apart : Region.disjoint { base := prog.toNat, words := g.progWords } { base := fb.toNat, words := g.fbWords } = true
  handles : a ≠ b
  result : t = { s.constructed g fb prog a b with allocs := t.allocs, claims := t.claims, drawn := t.drawn }

/-- A region put at the end of a list it is not in and taken out again. -/
theorem erase_append_self {l : List Region} {r : Region} (h : r ∉ l) : (l ++ [r]).erase r = l := by
  rw [List.erase_append_right _ h]
  simp

/-- A region of at least one word is not in a list of regions it is disjoint from. -/
theorem not_mem_of_disjoint {l : List Region} {r : Region} (hr : 1 ≤ r.words)
    (h : ∀ q ∈ l, r.base + 4 * r.words ≤ q.base ∨ q.base + 4 * q.words ≤ r.base) : r ∉ l := by
  intro hm
  have := h r hm
  omega

/-- Everything CONSTRUCT can do. -/
theorem execConstruct_cases (s : State) :
    ∃ t, execConstruct s = .next t ∧
      (s.FailedConstruct t ∨ ∃ g fb prog a b, s.Constructed t g fb prog a b) := by
  unfold execConstruct
  by_cases hs : s.hasSession = true
  · exact ⟨_, by rw [if_pos hs]; rfl, .inl ⟨by simp, ⟨[], by simp⟩, rfl, fun _ => rfl⟩⟩
  rw [if_neg hs]
  have hnone : s.sesState = .none := by simpa [State.hasSession] using hs
  cases hg : geometry s.cfg (argWidth s) (argHeight s) (argDepth s) with
  | none => exact ⟨_, rfl, .inl ⟨by simp, ⟨[], by simp⟩, rfl, fun _ => rfl⟩⟩
  | some g =>
    dsimp only
    have hof := geometry_some hg
    unfold constructFramebuffer
    obtain ⟨hf1, hf2⟩ := s.drawAlloc_spec g.fbWords
    cases hd : s.drawAlloc g.fbWords with
    | mk r1 s1 =>
    rw [hd] at hf1 hf2
    dsimp only at hf1 hf2
    cases r1 with
    | none =>
      refine ⟨_, rfl, .inl ⟨by simp, ⟨[.allocFail g.fbWords], ?_⟩, ?_, by simp⟩⟩
      · show s1.envlog ++ _ = _
        rw [hf1]
      · show ({ s1.log _ with err := _ } : State) = _
        rw [hf1]
        rfl
    | some fb =>
      dsimp only
      have hfb := hf2 fb rfl
      obtain ⟨hfa, hfr, hfd⟩ := admissibleAlloc_iff.mp hfb
      have hfbNot : ({ base := fb.toNat, words := g.fbWords } : Region) ∉ s.live :=
        not_mem_of_disjoint hof.fbWordsPos hfd
      unfold constructProgram
      obtain ⟨hp1, hp2⟩ := (s1.acquire { base := fb.toNat, words := g.fbWords }).drawAlloc_spec g.progWords
      cases hd2 : (s1.acquire { base := fb.toNat, words := g.fbWords }).drawAlloc g.progWords with
      | mk r2 s2 =>
      rw [hd2] at hp1 hp2
      dsimp only at hp1 hp2
      cases r2 with
      | none =>
        refine ⟨_, rfl, .inl ⟨by simp, ⟨[.alloc fb.toNat g.fbWords, .allocFail g.progWords, .free fb.toNat], ?_⟩, ?_,
          by simp⟩⟩
        · show ((s2.envlog ++ _) ++ _) = _
          rw [hp1, hf1]
          simp
        · show ({ (s2.log _).release _ with err := _ } : State) = _
          rw [hp1, hf1]
          simp [State.release, State.log, State.acquire, erase_append_self hfbNot]
      | some prog =>
        dsimp only
        have hprog := hp2 prog rfl
        have hlive1 : (s1.acquire { base := fb.toNat, words := g.fbWords }).live =
            s.live ++ [{ base := fb.toNat, words := g.fbWords }] := by rw [hf1]; rfl
        have hcfg1 : (s1.acquire { base := fb.toNat, words := g.fbWords }).cfg = s.cfg := by rw [hf1]; rfl
        obtain ⟨hpa, hpr, hpd⟩ := admissibleAlloc_iff.mp hprog
        rw [hlive1] at hpd
        rw [hcfg1] at hpr
        have hprogOk : admissibleAlloc s g.progWords prog = true :=
          admissibleAlloc_iff.mpr ⟨hpa, hpr, fun r hr => hpd r (by simp [hr])⟩
        have hapart := hpd { base := fb.toNat, words := g.fbWords } (by simp)
        have hprogNot : ({ base := prog.toNat, words := g.progWords } : Region) ∉
            s.live ++ [{ base := fb.toNat, words := g.fbWords }] :=
          not_mem_of_disjoint (by have := hof.progWordsPos; show 1 ≤ g.progWords; omega) hpd
        have hlive2 : s2.live = s.live ++ [{ base := fb.toNat, words := g.fbWords }] := by rw [hp1]; exact hlive1
        unfold constructClaim
        obtain ⟨hc1, hc2⟩ := (s2.acquire { base := prog.toNat, words := g.progWords }).drawClaim_spec
        cases hd3 : (s2.acquire { base := prog.toNat, words := g.progWords }).drawClaim with
        | mk r3 s3 =>
        rw [hd3] at hc1 hc2
        dsimp only at hc1 hc2
        cases r3 with
        | none =>
          refine ⟨_, rfl, .inl ⟨by simp, ⟨[.alloc fb.toNat g.fbWords, .alloc prog.toNat g.progWords, .claimFail,
            .free prog.toNat, .free fb.toNat], ?_⟩, ?_, by simp⟩⟩
          · show (((s3.envlog ++ _) ++ _) ++ _) = _
            rw [hc1, hp1, hf1]
            simp
          · show ({ ((s3.log _).release _).release _ with err := _ } : State) = _
            rw [hc1, hp1, hf1]
            simp [State.release, State.log, State.acquire]
            rw [show ∀ x y : Region, s.live ++ [x, y] = (s.live ++ [x]) ++ [y] by intro x y; simp,
              erase_append_self hprogNot, erase_append_self hfbNot]
        | some p =>
          obtain ⟨a, b⟩ := p
          refine ⟨_, rfl, .inr ⟨g, fb, prog, a, b, hnone, hg, hfb, hprogOk, Region.disjoint_iff.mpr hapart, hc2 _ rfl, ?_⟩⟩
          show ({ (s3.log _).install g fb prog a b with err := _ } : State) = _
          rw [hc1, hp1, hf1]
          rfl

end Sys2Proof.Machine
end

