-- ==== Sys2Proof/Laws/PerInstr.lean ====
section
/-! SUPPORT. The laws stated for each instruction: how many bytes its encoding has (`30_encoding.md` R101, R104, R105). -/

namespace Sys2Proof.Laws.EncodeLength

/-- The bytes of a format. -/
def formatBytes : Format → Nat
  | .H => 4
  | .S => 8
  | .L => 16

/-- The encoding of an instruction is as long as its format. -/
def Statement (i : Instr) : Prop :=
  (encode i).length = formatBytes i.format

theorem construct : Statement .construct := rfl

theorem start : Statement .start := rfl

theorem stop : Statement .stop := rfl

theorem reload : Statement .reload := rfl

theorem timing : Statement .timing := rfl

theorem enccalc : Statement .enccalc := rfl

theorem xferS (len raddr : Word) : Statement (.xferS len raddr) := rfl

theorem termS (raddr : Word) : Statement (.termS raddr) := rfl

theorem xferL (size : ElemSize) (waddr len raddr : Word) : Statement (.xferL size waddr len raddr) := rfl

theorem termL (size : ElemSize) (waddr raddr : Word) : Statement (.termL size waddr raddr) := rfl

end Sys2Proof.Laws.EncodeLength
end

