-- ==== Sys2Proof/Laws/Session.lean ====
section
/-! SUPPORT. The session's invariant at the two commands that begin it: what CONSTRUCT and START leave (`10_state.md` R27, R53;
`42_program_builder.md` R185, R186; `43_session_commands.md` R200). -/

namespace Sys2Proof.Machine

theorem toReg_toNat {n : Nat} (h : n < 2 ^ 32) : (toReg n).toNat = n := by
  simp only [toReg, BitVec.toNat_ofNat]
  exact Nat.mod_eq_of_lt h

/-- The two word counts of a session fit their registers. -/
theorem Geometry.Of.words_toReg {c : Config} (hc : c.Admissible) {w h d : Nat} {g : Geometry} (hg : Geometry.Of c w h d g) :
    (toReg g.fbWords).toNat = g.fbWords ∧ (toReg g.progWords).toNat = g.progWords := by
  obtain ⟨-, -, -, h1, h2, -⟩ := Geometry.Of.bounds hc hg
  exact ⟨toReg_toNat (by omega), toReg_toNat (by omega)⟩

/-- After a successful CONSTRUCT the session is bound and built, and RAM is still in order. -/
theorem State.Constructed.inv {s t : State} {g : Geometry} {fb prog : Word} {a b : BitVec 4}
    (hc : s.cfg.Admissible) (hn : s.NoSession) (hram : s.RamOk) (h : s.Constructed t g fb prog a b) :
    t.Bound g ∧ t.Built ∧ t.RamOk := by
  have hof := geometry_some h.geom
  obtain ⟨hfw, hpw⟩ := Geometry.Of.words_toReg hc hof
  obtain ⟨hfa, hfr, -⟩ := admissibleAlloc_iff.mp h.fbOk
  obtain ⟨hpa, hpr, -⟩ := admissibleAlloc_iff.mp h.progOk
  have hap := Region.disjoint_iff.mp h.apart
  have hlen : (buildProgram s.cfg g s.args.width.toNat fb.toNat).length = g.progWords := hof.buildProgram_length fb.toNat
  have hfbr : t.fbRegion = { base := fb.toNat, words := g.fbWords } := by
    rw [h.result]
    show ({ base := fb.toNat, words := (toReg g.fbWords).toNat } : Region) = _
    rw [hfw]
  have hprr : t.progRegion = { base := prog.toNat, words := g.progWords } := by
    rw [h.result]
    show ({ base := prog.toNat, words := (toReg g.progWords).toNat } : Region) = _
    rw [hpw]
  have hlive : t.live = [{ base := fb.toNat, words := g.fbWords }, { base := prog.toNat, words := g.progWords }] := by
    rw [h.result]
    show (s.live ++ [_]) ++ [_] = _
    rw [hn.live]
    rfl
  have hcfg : t.cfg = s.cfg := by rw [h.result]; rfl
  have htram : t.ram = s.ram.writeWords prog.toNat (buildProgram s.cfg g s.args.width.toNat fb.toNat) := by
    rw [h.result]; rfl
  refine ⟨?_, ?_, ?_⟩
  · refine
      { geom := ?geom, mode := ?mode, pitch := ?pitch, hscale := ?hscale, vscale := ?vscale, fbWords := ?fbWords, progWords := ?progWords, descw := ?descw,
        handles := ⟨a, b, h.handles, ?handles⟩, encExpand := ?encExpand, encShift := ?encShift, encBswap := ?encBswap, cmdCtrl := ?cmdCtrl,
        fbAligned := ?fbAligned, progAligned := ?progAligned, fbInRam := ?fbInRam, progInRam := ?progInRam, disjoint := ?disjoint, live := ?live, program := ?program }
    case geom => rw [h.result]; exact h.geom
    case disjoint =>
      rw [hfbr, hprr]
      exact Region.disjoint_iff.mpr hap.symm
    case live => rw [hfbr, hprr, hlive]
    case program =>
      rw [htram, hcfg, ← hlen]
      have e : t.ses.progBase = prog := by rw [h.result]; rfl
      have e2 : t.ses.width = s.args.width := by rw [h.result]; rfl
      have e3 : t.ses.fbBase = fb := by rw [h.result]; rfl
      rw [e, e2, e3]
      exact Memory.wordsAt_writeWords hram.canonical _ _
    case fbInRam =>
      have e3 : t.ses.fbBase = fb := by rw [h.result]; rfl
      rw [hcfg, e3]
      exact inRam_iff.mpr hfr
    case progInRam =>
      have e : t.ses.progBase = prog := by rw [h.result]; rfl
      rw [hcfg, e]
      exact inRam_iff.mpr hpr
    case fbAligned => rw [h.result]; exact hfa
    case progAligned => rw [h.result]; exact hpa
    all_goals rw [h.result]; rfl
  · refine { state := ?_, encOff := ?_, pc := ?_, trig := ?_, pix := ?_, irq := ?_ }
    · rw [h.result]; rfl
    · rw [h.result]; rfl
    · rw [h.result]; show s.cmd.rptr = _; rw [hn.cmd]; rfl
    · rw [h.result]; show s.cmd.trig = _; rw [hn.cmd]; rfl
    · rw [hcfg, h.result]
      show ({ s.pix with ctrl := _, waddr := _ } : PixChannel) = _
      rw [hn.pix]
      rfl
    · rw [h.result]; exact hn.irq
  · refine ⟨?_, ?_⟩
    · rw [htram]; exact Memory.writeWords_wf hram.canonical _ _
    · intro c hcm
      rw [htram] at hcm
      rw [hcfg]
      rcases Memory.mem_writeWords hcm with ⟨h1, h2⟩ | h1
      · rw [hlen] at h2
        exact inRam_iff.mpr ⟨by omega, by omega⟩
      · exact hram.inside c h1

/-- After START a built session plays from line 0. -/
theorem State.Bound.start {s : State} {g : Geometry} (hb : s.Bound g) (hbu : s.Built) :
    s.startPlayback.Bound g ∧ s.startPlayback.Playing g 0 := by
  have hirq := hbu.irq
  have hpix := hbu.pix
  refine ⟨{ hb with }, ?_⟩
  refine
    { state := rfl, encOn := rfl, enabled := rfl, activeRef := rfl, pc := ?_, inFrame := Nat.zero_le _, moving := .inl rfl,
      trig := fun _ => Nat.zero_le _, busy := fun _ => Nat.zero_le _, pending := ?_, reloading := ?_, waddr := ?_,
      transfer := ⟨.word, ?_, fun _ => rfl, ?_⟩ }
  · show s.ses.progBase = _
    simp
  · intro h
    rw [State.startPlayback_irq] at h
    rw [hirq] at h
    cases h
  · intro h
    rw [State.startPlayback_irq] at h
    rw [hirq] at h
    cases h
  · rw [State.startPlayback_pix, hpix]; rfl
  · rw [State.startPlayback_pix, hpix]; rfl
  · intro h
    rw [State.startPlayback_pix, hpix] at h
    cases h

end Sys2Proof.Machine
end

