-- ==== Sys2Proof/Laws/Playback.lean ====
section
/-! SUPPORT. The laws of playback: what each line of a built program is, what the command channel fetches, and what a CMD step
and a PIX step of a playing session do (`44_ring_sequencer.md` R223, R228, R235). -/

namespace Sys2Proof.Machine

/-! ### A line as a transfer -/

/-- The element size of line `l` (R177, R178). -/
def lineSize (c : Config) (g : Geometry) (l : Nat) : ElemSize :=
  match bandOf (timingOf c g.mode) l with
  | .frontPorch | .sync | .backPorch => .word
  | .active => g.esize

/-- The source address of line `l` (R177, R178). -/
def lineAddr (c : Config) (g : Geometry) (fb l : Nat) : Nat :=
  match bandOf (timingOf c g.mode) l with
  | .sync => patAddr c g.mode .asserted
  | .frontPorch | .backPorch => patAddr c g.mode .released
  | .active => rowAddr g fb (sourceRow (timingOf c g.mode) g l)

/-- A segment is the descriptor of its line's transfer. -/
theorem segment_eq {c : Config} {w h d : Nat} {g : Geometry} (hg : Geometry.Of c w h d g) (fb l : Nat) :
    segment c g w fb l = descWords c g (lineSize c g l) (lineLength c g w l) (lineAddr c g fb l) := by
  unfold segment lineSize lineLength lineAddr
  dsimp only
  split <;> rename_i hband <;> simp only [hband]
  split
  · rename_i h1
    rw [hg.esize, if_pos h1]
  · rfl

theorem bandOf_active {t : Timing} {l : Nat} (hl : l < t.vTotal) (hb : bandOf t l = .active) :
    activeStart t ≤ l ∧ l - activeStart t < t.vActive := by
  unfold bandOf at hb
  unfold Timing.vTotal at hl
  unfold activeStart at *
  split at hb
  · cases hb
  split at hb
  · cases hb
  split at hb
  · cases hb
  · omega

/-- The source row of an active line is a row (R178). -/
theorem Geometry.Of.sourceRow_lt {c : Config} {w h d : Nat} {g : Geometry} (hg : Geometry.Of c w h d g) {l : Nat}
    (hl : l < (timingOf c g.mode).vTotal) (hb : bandOf (timingOf c g.mode) l = .active) :
    sourceRow (timingOf c g.mode) g l < h := by
  obtain ⟨-, h2⟩ := bandOf_active hl hb
  rw [hg.vDivides] at h2
  unfold sourceRow
  rw [Nat.mul_comm] at h2
  exact Nat.div_lt_of_lt_mul (by rw [Nat.mul_comm]; exact h2)

/-- The elements of an active line fit in one row (R178). -/
theorem Geometry.Of.row_bytes {c : Config} {w h d : Nat} {g : Geometry} (hg : Geometry.Of c w h d g) :
    g.esize.bytes * (if g.hScale = 1 then g.pitch else w) ≤ 4 * g.pitch := by
  by_cases h1 : g.hScale = 1
  · rw [if_pos h1, hg.esize, if_pos h1]
    exact Nat.le_refl _
  · rw [if_neg h1]
    have h2 := (hg.esize_scaled h1).1
    have h3 := hg.rowFits
    rw [← h2] at h3
    have h4 : w * (8 * g.esize.bytes) = 8 * (g.esize.bytes * w) := by
      rw [Nat.mul_left_comm, Nat.mul_comm w]
    omega

/-- A row lies inside the framebuffer. -/
theorem Geometry.Of.row_inside {c : Config} {w h d : Nat} {g : Geometry} (hg : Geometry.Of c w h d g) {r : Nat}
    (hr : r < h) : 4 * g.pitch * r + 4 * g.pitch ≤ 4 * g.fbWords := by
  rw [hg.fbWords]
  have h1 : 4 * g.pitch * (r + 1) ≤ 4 * g.pitch * h := Nat.mul_le_mul_left _ hr
  rw [Nat.mul_add, Nat.mul_one, Nat.mul_assoc 4 g.pitch h] at h1
  exact h1

/-- Everything the hardware needs of a line's transfer: at least one element, a word-aligned source, and reads inside the pattern window
or inside the framebuffer (R178, R188 e). -/
theorem Geometry.Of.line_ok {c : Config} (hc : c.Admissible) {w h d : Nat} {g : Geometry} (hg : Geometry.Of c w h d g)
    {fb l : Nat} (hfb : fb % 4 = 0) (hl : l < (timingOf c g.mode).vTotal) :
    1 ≤ lineLength c g w l ∧ lineLength c g w l ≤ 720 ∧ lineAddr c g fb l % 4 = 0 ∧
      (g.descw = 2 → lineSize c g l = .word) ∧
      ((lineSize c g l = .word ∧
          patBase c ≤ lineAddr c g fb l ∧
          lineAddr c g fb l + (lineSize c g l).bytes * lineLength c g w l ≤ patBase c + 0x40) ∨
        (fb ≤ lineAddr c g fb l ∧
          lineAddr c g fb l + (lineSize c g l).bytes * lineLength c g w l ≤ fb + 4 * g.fbWords)) := by
  obtain ⟨hw720, -, hp720, -⟩ := Geometry.Of.bounds hc hg
  have hva := hc.vtgAligned
  have hm : g.mode.number < 2 := by cases g.mode <;> decide
  have hdw : g.descw = 2 → g.esize = .word := by
    intro h2
    rcases hg.descw_cases with ⟨h, -⟩ | ⟨-, h⟩
    · rw [hg.esize, if_pos h]
    · omega
  unfold lineLength lineAddr lineSize
  cases hb : bandOf (timingOf c g.mode) l with
  | frontPorch =>
    dsimp only [patWords, ElemSize.bytes, patAddr, PatternKind.number, patBase]
    exact ⟨by omega, by omega, by omega, fun _ => rfl, .inl ⟨rfl, by omega, by omega⟩⟩
  | sync =>
    dsimp only [patWords, ElemSize.bytes, patAddr, PatternKind.number, patBase]
    exact ⟨by omega, by omega, by omega, fun _ => rfl, .inl ⟨rfl, by omega, by omega⟩⟩
  | backPorch =>
    dsimp only [patWords, ElemSize.bytes, patAddr, PatternKind.number, patBase]
    exact ⟨by omega, by omega, by omega, fun _ => rfl, .inl ⟨rfl, by omega, by omega⟩⟩
  | active =>
    dsimp only
    have hrow := hg.sourceRow_lt hl hb
    have hin := hg.row_inside hrow
    have hby := hg.row_bytes
    unfold rowAddr
    have hpp := hg.pitchPos
    have hw := hg.width
    refine ⟨by split <;> omega, by split <;> omega, ?_, hdw, .inr ⟨Nat.le_add_right _ _, by omega⟩⟩
    rw [Nat.mul_assoc]
    omega

/-! ### What the command channel fetches -/

/-- Descriptor `k` of a bound session's program: the segment of line `k`, or the terminal (R176). -/
def descriptorAt (s : State) (g : Geometry) (k : Nat) : List Word :=
  if k < (timingOf s.cfg g.mode).vTotal then
    descWords s.cfg g (lineSize s.cfg g k) (lineLength s.cfg g s.ses.width.toNat k)
      (lineAddr s.cfg g s.ses.fbBase.toNat k)
  else descWords s.cfg g .word 0 0

theorem State.Bound.of {s : State} {g : Geometry} (hb : s.Bound g) :
    Geometry.Of s.cfg s.ses.width.toNat s.ses.height.toNat s.ses.depth.toNat g :=
  geometry_some hb.geom

theorem State.Bound.progRegion_eq {s : State} {g : Geometry} (hc : s.cfg.Admissible) (hb : s.Bound g) :
    s.progRegion = { base := s.ses.progBase.toNat, words := g.progWords } := by
  unfold State.progRegion
  rw [hb.progWords, (hb.of.words_toReg hc).2]

theorem State.Bound.fbRegion_eq {s : State} {g : Geometry} (hc : s.cfg.Admissible) (hb : s.Bound g) :
    s.fbRegion = { base := s.ses.fbBase.toNat, words := g.fbWords } := by
  unfold State.fbRegion
  rw [hb.fbWords, (hb.of.words_toReg hc).1]

/-- Descriptor `k` lies inside the program, and so below the top of the address space. -/
theorem State.Bound.descriptor_inside {s : State} {g : Geometry} (hb : s.Bound g) {k : Nat}
    (hk : k ≤ (timingOf s.cfg g.mode).vTotal) : g.descw * k + g.descw ≤ g.progWords := by
  rw [hb.of.progWords, Nat.mul_comm _ g.descw, ← Nat.mul_succ]
  exact Nat.mul_le_mul_left _ (by omega)

/-- The words at descriptor `k`'s address (R184). -/
theorem State.Bound.words {s : State} {g : Geometry} (hb : s.Bound g) {k : Nat}
    (hk : k ≤ (timingOf s.cfg g.mode).vTotal) :
    s.ram.wordsAt (s.ses.progBase.toNat + 4 * g.descw * k) g.descw = descriptorAt s g k := by
  have h24 : g.descw = 2 ∨ g.descw = 4 := by
    rcases hb.of.descw_cases with h | h
    · exact .inl h.2
    · exact .inr h.2
  have hin := hb.descriptor_inside hk
  have h1 : s.ram.wordsAt (s.ses.progBase.toNat + 4 * g.descw * k) g.descw =
      ((s.ram.wordsAt s.ses.progBase.toNat g.progWords).drop (g.descw * k)).take g.descw := by
    rw [Memory.wordsAt_drop, Memory.wordsAt_take _ _ _ _ (by omega), Nat.mul_assoc]
  rw [h1, hb.program]
  unfold descriptorAt
  by_cases hlt : k < (timingOf s.cfg g.mode).vTotal
  · rw [if_pos hlt, buildProgram_segment h24 _ _ hlt, segment_eq hb.of]
  · have hk' : k = (timingOf s.cfg g.mode).vTotal := by omega
    rw [if_neg hlt, hk', buildProgram_terminal h24, List.take_of_length_le]
    exact Nat.le_of_eq (descWords_length h24 ..)

/-- The fetch at descriptor `k` succeeds (R74, R223 line 3). -/
theorem State.Bound.fetch {s : State} {g : Geometry} (hc : s.cfg.Admissible) (hb : s.Bound g) (hs : s.sesState ≠ .none)
    {k : Nat} (hk : k ≤ (timingOf s.cfg g.mode).vTotal) :
    s.fetchWords (s.ses.progBase.toNat + 4 * g.descw * k) g.descw = some (descriptorAt s g k) := by
  have hin := hb.descriptor_inside hk
  have hpa := hb.progAligned
  have hr := inRam_iff.mp hb.progInRam
  rw [State.fetchWords_of_inProgram, hb.words hk]
  intro j hj
  rw [Nat.mul_assoc]
  refine ⟨by omega, State.inProgram_iff.mpr ⟨hs, ?_, ?_⟩⟩
  · rw [hb.progWords, (hb.of.words_toReg hc).2]
    omega
  · omega

/-! ### The CMD step of a playing session -/

/-- The pixel channel after descriptor `k` is loaded: the line's transfer in flight, or the terminal's registers. -/
def State.loadLine (s : State) (g : Geometry) (k : Nat) : State :=
  { s with
    cmd := s.cmd.consume g.descw
    pix :=
      { ctrl := if g.descw = 2 then s.pix.ctrl else ctrlStd (lineSize s.cfg g k)
        waddr := encqAddr s.cfg
        len := toReg (lineLength s.cfg g s.ses.width.toNat k)
        raddr := toReg (lineAddr s.cfg g s.ses.fbBase.toNat k)
        busy := true } }

/-- The state after the terminal is loaded. -/
def State.loadTerminal (s : State) (g : Geometry) : State :=
  { s with
    cmd := s.cmd.consume g.descw
    pix :=
      { ctrl := if g.descw = 2 then s.pix.ctrl else ctrlStd .word
        waddr := encqAddr s.cfg
        len := 0#32
        raddr := 0#32
        busy := false }
    irq := { s.irq with pending := true } }

theorem State.Bound.pc {s : State} {g : Geometry} (hc : s.cfg.Admissible) (hb : s.Bound g) {k : Nat}
    (hk : k ≤ (timingOf s.cfg g.mode).vTotal) :
    (BitVec.ofNat 32 (s.ses.progBase.toNat + 4 * g.descw * k)).toNat = s.ses.progBase.toNat + 4 * g.descw * k := by
  have hin := hb.descriptor_inside hk
  have hr := inRam_iff.mp hb.progInRam
  have hm := hc.memFits
  have hd := hb.of.descwPos
  rw [BitVec.toNat_ofNat, Nat.mul_assoc]
  exact Nat.mod_eq_of_lt (by omega)

theorem State.Bound.enabled {s : State} {g : Geometry} (hb : s.Bound g) : cmdEnabled s.cmd.ctrl = true := by
  rw [hb.cmdCtrl]
  unfold cmdCtrlWord
  split <;> decide

/-- A line's source lies below `2^32`. -/
theorem State.Bound.lineAddr_lt {s : State} {g : Geometry} (hc : s.cfg.Admissible) (hb : s.Bound g) {k : Nat}
    (hk : k < (timingOf s.cfg g.mode).vTotal) :
    lineAddr s.cfg g s.ses.fbBase.toNat k +
      (lineSize s.cfg g k).bytes * lineLength s.cfg g s.ses.width.toNat k ≤ 2 ^ 32 := by
  obtain ⟨-, -, -, -, h⟩ := hb.of.line_ok hc hb.fbAligned hk
  have hm := hc.memFits
  have hv := hc.vtgFits
  have hr := inRam_iff.mp hb.fbInRam
  rcases h with ⟨-, -, h⟩ | ⟨-, h⟩
  · unfold patBase at h; omega
  · omega

/-- A CMD step of a playing session with the pixel channel idle (R223, R235): it loads line `k`, or the terminal. -/
theorem State.Playing.cmdStep {s : State} {g : Geometry} {k : Nat} (hc : s.cfg.Admissible) (hb : s.Bound g)
    (hp : s.Playing g k) (ht : s.cmd.trig = true) (hidle : s.pix.busy = false) :
    cmdStep s = .next (if k < (timingOf s.cfg g.mode).vTotal then s.loadLine g k else s.loadTerminal g) := by
  have hk := hp.trig ht
  have hs : s.sesState ≠ .none := by rw [hp.state]; simp
  have hready : s.cmdReady = true := by simp [State.cmdReady, hb.enabled, ht]
  have hpc : s.cmd.rptr.toNat = s.ses.progBase.toNat + 4 * g.descw * k := by rw [hp.pc, hb.pc hc hk]
  have hfetch := hb.fetch hc hs hk
  obtain ⟨z, hz, hz2, -⟩ := hp.transfer
  have hw := hp.waddr
  unfold Machine.cmdStep
  rw [if_pos hready, if_neg (by simp [hidle])]
  unfold runDescriptor
  rw [hpc, hb.descw]
  by_cases hlt : k < (timingOf s.cfg g.mode).vTotal
  · rw [if_pos hlt]
    obtain ⟨hl1, hl2, hal, hsz, -⟩ := hb.of.line_ok hc hb.fbAligned hlt
    have hlen : (toReg (lineLength s.cfg g s.ses.width.toNat k)).toNat = lineLength s.cfg g s.ses.width.toNat k :=
      toReg_toNat (by omega)
    have hlen0 : toReg (lineLength s.cfg g s.ses.width.toNat k) ≠ 0#32 := by
      intro h0
      rw [h0] at hlen
      simp at hlen
      omega
    have hub := hb.lineAddr_lt hc hlt
    have hbp := ElemSize.bytes_pos (lineSize s.cfg g k)
    have hpos : 1 ≤ (lineSize s.cfg g k).bytes * lineLength s.cfg g s.ses.width.toNat k := Nat.mul_pos hbp hl1
    have hadr : (toReg (lineAddr s.cfg g s.ses.fbBase.toNat k)).toNat = lineAddr s.cfg g s.ses.fbBase.toNat k :=
      toReg_toNat (by omega)
    have hali : ∀ y, alignedFor y (toReg (lineAddr s.cfg g s.ses.fbBase.toNat k)) = true := by
      intro y
      rw [alignedFor_iff, hadr]
      cases y <;> simp only [ElemSize.bytes] <;> omega
    rcases hb.of.descw_cases with ⟨-, hd⟩ | ⟨-, hd⟩
    · rw [hd] at hfetch
      rw [hd, if_pos (show toReg 2 = 2#32 from rfl), hfetch]
      have hde : descriptorAt s g k = [toReg (lineLength s.cfg g s.ses.width.toNat k),
          toReg (lineAddr s.cfg g s.ses.fbBase.toNat k)] := by
        unfold descriptorAt descWords
        rw [if_pos hlt, if_pos hd]
      rw [hde]
      dsimp only [decodeS]
      rw [if_neg hlen0]
      show loadDescriptor 2 _ s = _
      simp [loadDescriptor, hidle, PixChannel.loadS, hz, hw, hlen0, hali, State.loadLine, hd]
    · rw [hd] at hfetch
      rw [hd, if_neg (show ¬ toReg 4 = 2#32 by decide), if_pos (show toReg 4 = 4#32 from rfl), hfetch]
      have hde : descriptorAt s g k = [ctrlStd (lineSize s.cfg g k), encqAddr s.cfg,
          toReg (lineLength s.cfg g s.ses.width.toNat k), toReg (lineAddr s.cfg g s.ses.fbBase.toNat k)] := by
        unfold descriptorAt descWords
        rw [if_pos hlt, if_neg (by omega)]
      rw [hde]
      simp only [decodeL_ctrlStd, if_neg hlen0]
      show loadDescriptor 4 _ s = _
      simp [loadDescriptor, hidle, PixChannel.loadL, hlen0, hali, State.loadLine, hd]
  · rw [if_neg hlt]
    rcases hb.of.descw_cases with ⟨-, hd⟩ | ⟨-, hd⟩
    · rw [hd] at hfetch
      rw [hd, if_pos (show toReg 2 = 2#32 from rfl), hfetch]
      have hde : descriptorAt s g k = [0#32, 0#32] := by
        unfold descriptorAt descWords
        rw [if_neg hlt, if_pos hd]
        rfl
      rw [hde]
      show loadDescriptor 2 _ s = _
      simp [loadDescriptor, hidle, PixChannel.loadS, hz, hw, State.loadTerminal, hd, State.raiseFrameIrq]
    · rw [hd] at hfetch
      rw [hd, if_neg (show ¬ toReg 4 = 2#32 by decide), if_pos (show toReg 4 = 4#32 from rfl), hfetch]
      have hde : descriptorAt s g k = [ctrlStd .word, encqAddr s.cfg, 0#32, 0#32] := by
        unfold descriptorAt descWords
        rw [if_neg hlt, if_neg (by omega)]
        rfl
      rw [hde]
      simp only [decodeL_ctrlStd, if_true]
      simp [exec, execTermL, loadDescriptor, hidle, PixChannel.loadL, State.loadTerminal, hd, State.raiseFrameIrq]

/-- The pointer after descriptor `k` is at descriptor `k + 1`. -/
theorem CmdChannel.consume_pc {c : CmdChannel} {base n k : Nat} (h : c.rptr = BitVec.ofNat 32 (base + 4 * n * k)) :
    (c.consume n).rptr = BitVec.ofNat 32 (base + 4 * n * (k + 1)) := by
  show c.rptr + BitVec.ofNat 32 (4 * n) = _
  rw [h, ← BitVec.ofNat_add, Nat.mul_add, Nat.mul_one, Nat.add_assoc]

/-- With a trigger pending in the channel, no interrupt is. -/
theorem State.Playing.notPending {s : State} {g : Geometry} {k : Nat} (hp : s.Playing g k) (ht : s.cmd.trig = true) :
    s.irq.pending = false := by
  cases h : s.irq.pending with
  | false => rfl
  | true =>
    have := (hp.pending h).2.1
    rw [ht] at this
    cases this

/-- Loading line `k` keeps the session's invariant. -/
theorem State.Playing.loadLine {s : State} {g : Geometry} {k : Nat} (hc : s.cfg.Admissible) (hb : s.Bound g)
    (hp : s.Playing g k) (ht : s.cmd.trig = true) (hlt : k < (timingOf s.cfg g.mode).vTotal) :
    (s.loadLine g k).Bound g ∧ (s.loadLine g k).Playing g (k + 1) := by
  obtain ⟨z, hz, hz2, -⟩ := hp.transfer
  obtain ⟨hl1, hl2, hal, hsz, hreg⟩ := hb.of.line_ok hc hb.fbAligned hlt
  have hlen : (toReg (lineLength s.cfg g s.ses.width.toNat k)).toNat = lineLength s.cfg g s.ses.width.toNat k :=
    toReg_toNat (by omega)
  have hub := hb.lineAddr_lt hc hlt
  have hbp := ElemSize.bytes_pos (lineSize s.cfg g k)
  have hpos : 1 ≤ (lineSize s.cfg g k).bytes * lineLength s.cfg g s.ses.width.toNat k := Nat.mul_pos hbp hl1
  have hadr : (toReg (lineAddr s.cfg g s.ses.fbBase.toNat k)).toNat = lineAddr s.cfg g s.ses.fbBase.toNat k :=
    toReg_toNat (by omega)
  have hnp := hp.notPending ht
  refine ⟨{ hb with }, ?_⟩
  refine
    { state := hp.state, encOn := hp.encOn, enabled := hp.enabled, activeRef := hp.activeRef
      pc := CmdChannel.consume_pc hp.pc, inFrame := by show k + 1 ≤ (timingOf s.cfg g.mode).vTotal + 1; omega
      moving := .inr (.inl rfl), trig := ?_, busy := fun _ => hlt, pending := ?_, reloading := hp.reloading, waddr := rfl
      transfer := ⟨lineSize s.cfg g k, ?_, hsz, fun _ => ⟨?_, ?_, ?_⟩⟩ }
  · intro h
    exact absurd h (by simp [State.loadLine, CmdChannel.consume])
  · intro h
    have h' : s.irq.pending = true := h
    rw [hnp] at h'
    cases h'
  · show ctrlSize (if g.descw = 2 then s.pix.ctrl else ctrlStd (lineSize s.cfg g k)) = _
    by_cases hd : g.descw = 2
    · rw [if_pos hd, hz, hz2 hd, hsz hd]
    · rw [if_neg hd, ctrlSize_ctrlStd]
  · intro h0
    have h1 : toReg (lineLength s.cfg g s.ses.width.toNat k) = 0#32 := h0
    rw [h1] at hlen
    simp at hlen
    omega
  · show alignedFor _ (toReg (lineAddr s.cfg g s.ses.fbBase.toNat k)) = true
    rw [alignedFor_iff, hadr]
    cases lineSize s.cfg g k <;> simp only [ElemSize.bytes] <;> omega
  · show (_ ∧ inPatternWindow s.cfg (toReg (lineAddr s.cfg g s.ses.fbBase.toNat k)).toNat
        ((lineSize s.cfg g k).bytes * (toReg (lineLength s.cfg g s.ses.width.toNat k)).toNat) = true) ∨
      s.fbRegion.covers (toReg (lineAddr s.cfg g s.ses.fbBase.toNat k)).toNat
        ((lineSize s.cfg g k).bytes * (toReg (lineLength s.cfg g s.ses.width.toNat k)).toNat) = true
    rw [hlen, hadr, hb.fbRegion_eq hc]
    rcases hreg with ⟨h1, h2, h3⟩ | ⟨h1, h2⟩
    · exact .inl ⟨h1, inPatternWindow_iff.mpr ⟨h2, h3⟩⟩
    · exact .inr (Region.covers_iff.mpr ⟨h1, h2⟩)

/-- Loading the terminal keeps the session's invariant. -/
theorem State.Playing.loadTerminal {s : State} {g : Geometry} {k : Nat} (hb : s.Bound g)
    (hp : s.Playing g k) (hk : k = (timingOf s.cfg g.mode).vTotal) :
    (s.loadTerminal g).Bound g ∧ (s.loadTerminal g).Playing g (k + 1) := by
  obtain ⟨z, hz, hz2, -⟩ := hp.transfer
  refine ⟨{ hb with }, ?_⟩
  refine
    { state := hp.state, encOn := hp.encOn, enabled := hp.enabled, activeRef := hp.activeRef
      pc := CmdChannel.consume_pc hp.pc, inFrame := by show k + 1 ≤ (timingOf s.cfg g.mode).vTotal + 1; omega
      moving := .inr (.inr rfl), trig := ?_, busy := ?_
      pending := fun _ => ⟨by show k + 1 = (timingOf s.cfg g.mode).vTotal + 1; omega, rfl, rfl⟩
      reloading := fun _ => rfl, waddr := rfl, transfer := ?_ }
  · intro h
    exact absurd h (by simp [State.loadTerminal, CmdChannel.consume])
  · intro h
    exact absurd h (by simp [State.loadTerminal])
  · by_cases hd : g.descw = 2
    · refine ⟨z, ?_, hz2, fun h => absurd h (by simp [State.loadTerminal])⟩
      show ctrlSize (if g.descw = 2 then s.pix.ctrl else ctrlStd .word) = _
      rw [if_pos hd, hz]
    · refine ⟨.word, ?_, fun _ => rfl, fun h => absurd h (by simp [State.loadTerminal])⟩
      show ctrlSize (if g.descw = 2 then s.pix.ctrl else ctrlStd .word) = _
      rw [if_neg hd, ctrlSize_ctrlStd]

/-! ### The PIX step of a playing session -/

/-- What an admissible read answers fits its size (R52). -/
theorem State.readPix_lt {s : State} {a v : Nat} {z : ElemSize} (hc : s.cfg.Admissible) (h : s.readPix a z = some v) :
    v < 2 ^ (8 * z.bytes) := by
  unfold State.readPix at h
  split at h
  · cases h
  split at h
  · split at h
    · rename_i hz
      cases h
      subst hz
      show patternAt s.cfg (a - patBase s.cfg) < 2 ^ 32
      have h0 := hc.timing0
      have h1 := hc.timing1
      have h01 := h0.hFrontPorchFits
      have h02 := h0.hSyncWidthFits
      have h03 := h0.hRestFits
      have h11 := h1.hFrontPorchFits
      have h12 := h1.hSyncWidthFits
      have h13 := h1.hRestFits
      have hbit : ∀ b : Bool, b.toNat ≤ 1 := by decide
      unfold patternAt patternWord runWord
      dsimp only
      have hrun : ∀ n (x y : Bool), n < 65536 → n + x.toNat * 0x10000 + y.toNat * 0x20000 < 2 ^ 32 := by
        intro n x y hn
        have hx := hbit x
        have hy := hbit y
        omega
      split <;> first | (apply hrun; split <;> assumption) | decide
    · cases h
  split at h
  · cases h
    have h1 := s.ram.readLE_lt a z.bytes
    rwa [show (256 : Nat) = 2 ^ 8 from rfl, ← Nat.pow_mul] at h1
  · cases h

/-- A read of the transfer in flight is admitted (R74, R178). -/
theorem State.TransferOk.read {s : State} {g : Geometry} (hc : s.cfg.Admissible) (hb : s.Bound g)
    (hs : s.sesState ≠ .none) {z : ElemSize} (h : s.TransferOk z) :
    ∃ v, s.readPix s.pix.raddr.toNat z = some v ∧
      (s.fbRegion.covers s.pix.raddr.toNat (z.bytes * s.pix.len.toNat) = true →
        v = s.ram.readLE s.pix.raddr.toNat z.bytes) ∧
      (inPatternWindow s.cfg s.pix.raddr.toNat (z.bytes * s.pix.len.toNat) = true →
        v = patternAt s.cfg (s.pix.raddr.toNat - patBase s.cfg)) := by
  obtain ⟨h0, hal, hreg⟩ := h
  have hal' := (alignedFor_iff z s.pix.raddr).mp hal
  have hlen : 1 ≤ s.pix.len.toNat := by
    rcases Nat.eq_zero_or_pos s.pix.len.toNat with hz | hz
    · exact absurd (BitVec.eq_of_toNat_eq (by simpa using hz)) h0
    · exact hz
  have hbp := ElemSize.bytes_pos z
  have hle : z.bytes ≤ z.bytes * s.pix.len.toNat := Nat.le_mul_of_pos_right _ hlen
  have hfr := inRam_iff.mp hb.fbInRam
  have hdis := hc.disjoint
  have hfb : ∀ n, s.fbRegion.covers s.pix.raddr.toNat n = true → z.bytes ≤ n →
      inPatternWindow s.cfg s.pix.raddr.toNat z.bytes = false ∧ s.inFramebuffer s.pix.raddr.toNat z.bytes = true := by
    intro n hn hzn
    rw [hb.fbRegion_eq hc] at hn
    obtain ⟨h1, h2⟩ := Region.covers_iff.mp hn
    dsimp only at h1 h2
    have hpw : inPatternWindow s.cfg s.pix.raddr.toNat z.bytes = false := by
      rw [← Bool.not_eq_true, inPatternWindow_iff]
      unfold patBase
      omega
    refine ⟨hpw, State.inFramebuffer_iff.mpr ⟨hs, ?_, ?_⟩⟩
    · rw [hb.fbWords, (hb.of.words_toReg hc).1]
      omega
    · omega
  rcases hreg with ⟨rfl, hw⟩ | hw
  · have hw1 : inPatternWindow s.cfg s.pix.raddr.toNat ElemSize.word.bytes = true := by
      have := inPatternWindow_iff.mp hw
      rw [inPatternWindow_iff]
      omega
    refine ⟨patternAt s.cfg (s.pix.raddr.toNat - patBase s.cfg), ?_, ?_, fun _ => rfl⟩
    · unfold State.readPix
      rw [if_neg (by omega), if_pos hw1, if_pos rfl]
    · intro hcv
      have := (hfb _ hcv hle).1
      rw [hw1] at this
      cases this
  · obtain ⟨h1, h2⟩ := hfb _ hw hle
    refine ⟨_, State.readPix_framebuffer hal' h1 h2, fun _ => rfl, ?_⟩
    intro hcv
    have h3 := inPatternWindow_iff.mp hcv
    have : inPatternWindow s.cfg s.pix.raddr.toNat z.bytes = true := inPatternWindow_iff.mpr (by omega)
    rw [h1] at this
    cases this

/-- A PIX step of a playing session with a transfer in flight (R228): one element is delivered. -/
theorem State.Playing.pixStep {s : State} {g : Geometry} {k : Nat} (hc : s.cfg.Admissible) (hb : s.Bound g)
    (hp : s.Playing g k) (hbusy : s.pix.busy = true) :
    ∃ z v, ctrlSize s.pix.ctrl = some z ∧ s.TransferOk z ∧ s.readPix s.pix.raddr.toNat z = some v ∧
      v < 2 ^ (8 * z.bytes) ∧ pixStep s = .next (s.deliver z v) := by
  obtain ⟨z, hz, -, htr⟩ := hp.transfer
  have hok := htr hbusy
  have hs : s.sesState ≠ .none := by rw [hp.state]; simp
  obtain ⟨v, hv, -, -⟩ := hok.read hc hb hs
  refine ⟨z, v, hz, hok, hv, State.readPix_lt hc hv, ?_⟩
  unfold Machine.pixStep
  rw [if_pos hbusy, sizeField_of_ctrlSize hz]
  dsimp only
  rw [if_neg hok.1, hv]

/-- Delivering an element keeps the session's invariant. -/
theorem State.Playing.deliver {s : State} {g : Geometry} {k : Nat} (hc : s.cfg.Admissible) (hb : s.Bound g)
    (hp : s.Playing g k) (hbusy : s.pix.busy = true) {z : ElemSize} (hz : ctrlSize s.pix.ctrl = some z) (v : Nat) :
    (s.deliver z v).Bound g ∧ (s.deliver z v).Playing g k := by
  obtain ⟨z', hz', hd, htr⟩ := hp.transfer
  rw [hz] at hz'
  cases hz'
  obtain ⟨h0, hal, hreg⟩ := htr hbusy
  have hnp : s.irq.pending = false := by
    cases h : s.irq.pending with
    | false => rfl
    | true =>
      have := (hp.pending h).2.2
      rw [hbusy] at this
      cases this
  have hk := hp.busy hbusy
  have hbp := ElemSize.bytes_pos z
  have hlen : 1 ≤ s.pix.len.toNat := by
    rcases Nat.eq_zero_or_pos s.pix.len.toNat with hz | hz
    · exact absurd (BitVec.eq_of_toNat_eq (by simpa using hz)) h0
    · exact hz
  have hlen' : (s.pix.len - 1#32).toNat = s.pix.len.toNat - 1 := by
    have := s.pix.len.isLt
    rw [BitVec.toNat_sub]
    simp only [BitVec.toNat_ofNat]
    omega
  unfold State.deliver
  dsimp only
  by_cases hl : (s.pix.advance z.bytes).len = 0#32
  · rw [if_pos hl]
    refine ⟨{ hb with }, ?_⟩
    exact
      { state := hp.state, encOn := hp.encOn, enabled := hp.enabled, activeRef := hp.activeRef, pc := hp.pc
        inFrame := hp.inFrame, moving := .inl rfl, trig := fun _ => hk, busy := fun h => absurd h (by simp)
        pending := fun h => by
          have h' : s.irq.pending = true := h
          rw [hnp] at h'
          cases h'
        reloading := hp.reloading, waddr := hp.waddr, transfer := ⟨z, hz, hd, fun h => absurd h (by simp)⟩ }
  · rw [if_neg hl]
    have hlen2 : 2 ≤ s.pix.len.toNat := by
      rcases Nat.lt_or_ge s.pix.len.toNat 2 with h | h
      · refine absurd (BitVec.eq_of_toNat_eq ?_) hl
        show (s.pix.len - 1#32).toNat = _
        rw [hlen']
        simp
        omega
      · exact h
    have hmul : z.bytes * (s.pix.len.toNat - 1) + z.bytes = z.bytes * s.pix.len.toNat := by
      obtain ⟨n, hn⟩ : ∃ n, s.pix.len.toNat = n + 1 := ⟨s.pix.len.toNat - 1, by omega⟩
      rw [hn, Nat.add_sub_cancel, Nat.mul_succ]
    have hlow : z.bytes ≤ z.bytes * (s.pix.len.toNat - 1) := Nat.le_mul_of_pos_right _ (by omega)
    have htop : s.pix.raddr.toNat + z.bytes * s.pix.len.toNat ≤ 2 ^ 32 := by
      have hm := hc.memFits
      have hv := hc.vtgFits
      have hr := inRam_iff.mp hb.fbInRam
      rcases hreg with ⟨-, h⟩ | h
      · have := inPatternWindow_iff.mp h
        unfold patBase at this
        omega
      · rw [hb.fbRegion_eq hc] at h
        have := Region.covers_iff.mp h
        dsimp only at this
        omega
    have hadr : (s.pix.raddr + BitVec.ofNat 32 z.bytes).toNat = s.pix.raddr.toNat + z.bytes := by
      rw [BitVec.toNat_add, BitVec.toNat_ofNat]
      omega
    refine ⟨{ hb with }, ?_⟩
    exact
      { state := hp.state, encOn := hp.encOn, enabled := hp.enabled, activeRef := hp.activeRef, pc := hp.pc
        inFrame := hp.inFrame, moving := .inr (.inl hbusy), trig := hp.trig, busy := fun _ => hk
        pending := fun h => by
          have h' : s.irq.pending = true := h
          rw [hnp] at h'
          cases h'
        reloading := hp.reloading, waddr := hp.waddr
        transfer := ⟨z, hz, hd, fun _ => ⟨hl, by
            show alignedFor z (s.pix.raddr + BitVec.ofNat 32 z.bytes) = true
            rw [alignedFor_iff, hadr, Nat.add_mod_right]
            exact (alignedFor_iff _ _).mp hal, by
            show (_ ∧ inPatternWindow s.cfg (s.pix.raddr + BitVec.ofNat 32 z.bytes).toNat
                (z.bytes * (s.pix.len - 1#32).toNat) = true) ∨
              s.fbRegion.covers (s.pix.raddr + BitVec.ofNat 32 z.bytes).toNat
                (z.bytes * (s.pix.len - 1#32).toNat) = true
            rw [hlen', hadr]
            rcases hreg with ⟨h1, h2⟩ | h2
            · have := inPatternWindow_iff.mp h2
              exact .inl ⟨h1, inPatternWindow_iff.mpr (by omega)⟩
            · have := Region.covers_iff.mp h2
              exact .inr (Region.covers_iff.mpr (by omega))⟩⟩ }

end Sys2Proof.Machine
end

