-- ==== Sys2Proof/Tests/Slice0.lean ====
section
/-! SUPPORT. Tests: the ill-formed terms that the checks refuse, words written out from the encodings of the spec, single steps with
results from `95_test_vectors.md`, and for each statement with hypotheses a state and operands that meet them together. -/

namespace Sys2Proof.Machine.Tests

/-! ### Well-formedness -/

theorem test_wf_refuses_xferS_of_length_0 : (Instr.xferS 0#32 0x20000000#32).wf = false := by decide
theorem test_wf_refuses_xferL_of_length_0 : (Instr.xferL .byte 0x400000F0#32 0#32 0x20000000#32).wf = false := by
  decide
theorem test_wf_accepts_length_1 : (Instr.xferS 1#32 0x20000000#32).wf = true := by decide
theorem test_legal_refuses_length_0 : (Instr.xferS 0#32 0x20000000#32).legal 0x400000F0#32 = false ∧
    (Instr.xferL .word 0x400000F0#32 0#32 0x20000000#32).legal 0x400000F0#32 = false := by decide
theorem test_legal_refuses_misaligned_word : (Instr.xferS 1#32 0x20000002#32).legal 0x400000F0#32 = false := by decide
theorem test_legal_refuses_misaligned_half :
    (Instr.xferL .half 0x400000F0#32 2#32 0x20000005#32).legal 0x400000F0#32 = false := by decide
theorem test_legal_refuses_wrong_destination :
    (Instr.xferL .word 0x20000000#32 1#32 0x20000000#32).legal 0x400000F0#32 = false ∧
    (Instr.termL .word 0x20000000#32 0#32).legal 0x400000F0#32 = false := by decide
theorem test_legal_accepts_odd_byte : (Instr.xferL .byte 0x400000F0#32 1#32 0x20000005#32).legal 0x400000F0#32 = true := by
  decide

/-! ### Decoding: words written out from the encodings (R101, R104, R105, R108) -/

theorem test_decode_construct : decodeTableWord 32 0b00000000000000000000000000000001 = some .construct := by decide
theorem test_decode_start : decodeTableWord 32 0b00000000000000000000000000000010 = some .start := by decide
theorem test_decode_stop : decodeTableWord 32 0b00000000000000000000000000000011 = some .stop := by decide
theorem test_decode_reload : decodeTableWord 32 0b00000000000000000000000000000100 = some .reload := by decide
theorem test_decode_timing : decodeTableWord 32 0b00000000000000000000000000000101 = some .timing := by decide
theorem test_decode_enccalc : decodeTableWord 32 0b00000000000000000000000000000110 = some .enccalc := by decide

/-- Opcode 0, opcodes from 7 on, and a bit in 31:8 (R102; section 2.4 of the vectors). -/
theorem test_decode_refuses_reserved_commands :
    [0x00000000, 0x00000007, 0x000000FF, 0x00000101, 0x80000002].all (fun w => decodeTableWord 32 w == none) = true := by
  decide

/-- `XFER.S 3, PAT_ADDR(0, 1)` (section 2.5): W0 is 3, W1 is `0x40000110`, W0 in the low bits. -/
theorem test_decode_xferS : decodeTableWord 64 0x4000011000000003 = some (.xferS 3#32 0x40000110#32) := by decide

/-- A length word of 0 is the terminal, whatever `RADDR` (R107). -/
theorem test_decode_termS : decodeTableWord 64 0x1234567900000000 = some (.termS 0x12345679#32) := by decide

/-- `XFER.L 1, 4, 0x20000004` (section 2.5), its control word bit by bit: `CHAIN_CMD`, `IRQ_ON_NULL`, `INCR_READ`, `HIPRI`, `EN`, `SIZE` 0. -/
theorem test_decode_xferL :
    decodeTableWord 128 (0b11010011 + 0x400000F0 * 2 ^ 32 + 4 * 2 ^ 64 + 0x20000004 * 2 ^ 96) =
      some (.xferL .byte 0x400000F0#32 4#32 0x20000004#32) := by decide

/-- `TERM.L` with `SIZE` 2 (section 2.5). -/
theorem test_decode_termL :
    decodeTableWord 128 (0b11011011 + 0x400000F0 * 2 ^ 32) = some (.termL .word 0x400000F0#32 0#32) := by decide

/-- `SIZE` 3, `IRQ_ON_NULL` 0, a reserved bit (section 2.5, R111 a). -/
theorem test_decode_refuses_illegal_control_words :
    [0xDF, 0x5B, 0x1DB].all (fun w =>
      decodeTableWord 128 (w + 0x400000F0 * 2 ^ 32 + 1 * 2 ^ 64 + 0x20000000 * 2 ^ 96) == none) = true := by decide

/-- A width no row has. -/
theorem test_decode_refuses_other_widths : decodeTableWord 48 1 = none := by decide

/-! ### The configuration of the vectors (`93_implementation_defined.md` G1, G2) -/

def expansion (w0 r0 w1 r1 w2 r2 : BitVec 5) : Expansion :=
  { l0 := ⟨w0, r0⟩, l1 := ⟨w1, r1⟩, l2 := ⟨w2, r2⟩ }

/-- `CFG_GK`; depth 4, which it leaves open, has three lanes of width 4. -/
def cfg : Config :=
  { tt0 := ⟨16, 96, 48, 640, 10, 2, 33, 480⟩
    tt1 := ⟨18, 108, 54, 720, 12, 2, 35, 400⟩
    pol0 := ⟨false, false⟩
    pol1 := ⟨false, true⟩
    expand4 := expansion 4 0 4 0 4 0
    expand8 := expansion 2 26 3 29 3 0
    expand16 := expansion 5 29 6 3 5 8
    expand32 := expansion 8 0 8 8 8 16
    vtgBase := 0x40000000
    memBase := 0x20000000
    memSize := 0x00200000 }

theorem cfg_admissible : cfg.Admissible := by
  constructor <;> first | rfl | decide | (constructor <;> decide)

/-- After reset, with nothing in RAM. -/
def clean : State := State.resetWith cfg []

/-- The operands (640, 240, 32), and answers for both regions and the channels (section 2.3). -/
def idle : State :=
  { clean with
    args := { Args.zero with width := 640, height := 240, depth := 32 }
    allocs := [some 0x20100000#32, some 0x20040000#32]
    claims := [some (2#4, 5#4)] }

/-- The geometry of (640, 240, 32) (section 2.3). -/
def geom : Geometry :=
  { mode := .mode0, hScale := 1, vScale := 2, pitch := 640, fbWords := 153600, descw := 2, progWords := 1052, esize := .word
    enc := { expand := 0x11042100, shift := 0x100, bswap := false } }

theorem geom_eq : geometry cfg 640 240 32 = some geom := by decide

/-- What CONSTRUCT leaves. -/
def built : State := { idle.constructed geom 0x20100000#32 0x20040000#32 2#4 5#4 with allocs := [], claims := [] }

theorem built_constructed : idle.Constructed built geom 0x20100000#32 0x20040000#32 2#4 5#4 :=
  { idle := rfl, geom := geom_eq, fbOk := by decide, progOk := by decide, apart := by decide, handles := by decide
    result := rfl }

theorem no_records {s : State} (h : s.encq = []) : s.QueueOk := by
  intro r hr
  rw [h] at hr
  cases hr

theorem no_ram {s : State} (h : s.ram = []) : s.RamOk :=
  ⟨by rw [h]; exact ⟨List.Pairwise.nil, by simp⟩, by rw [h]; simp⟩

theorem clean_noSession : clean.NoSession := ⟨rfl, rfl, rfl, rfl, rfl, rfl, rfl⟩

theorem clean_ramOk : clean.RamOk := (no_ram rfl)

theorem clean_inv : clean.Inv := ⟨cfg_admissible, clean_ramOk, no_records rfl, .inl clean_noSession⟩

theorem built_ok : built.Bound geom ∧ built.Built ∧ built.RamOk :=
  built_constructed.inv cfg_admissible ⟨rfl, rfl, rfl, rfl, rfl, rfl, rfl⟩
    (no_ram rfl)

theorem built_inv : built.Inv :=
  ⟨cfg_admissible, built_ok.2.2, no_records rfl, .inr ⟨geom, built_ok.1, .inl built_ok.2.1⟩⟩

/-- A state with the same RAM and queue, bound and playing. -/
theorem playing_inv {s t : State} {g : Geometry} {k : Nat} (h : s.Inv) (hc : t.cfg = s.cfg) (hr : t.ram = s.ram)
    (hq : t.encq = s.encq) (hb : t.Bound g) (hp : t.Playing g k) : t.Inv :=
  ⟨hc ▸ h.config, ⟨hr ▸ h.ram.canonical, by rw [hr, hc]; exact h.ram.inside⟩, by unfold State.QueueOk; rw [hq]; exact h.queue,
    .inr ⟨g, hb, .inr ⟨k, hp⟩⟩⟩

/-- After START: the frame start. -/
def running : State := built.startPlayback

theorem running_ok : running.Bound geom ∧ running.Playing geom 0 := built_ok.1.start built_ok.2.1

theorem running_inv : running.Inv :=
  playing_inv built_inv (State.startPlayback_cfg built) (State.startPlayback_ram built) (State.startPlayback_encq built)
    running_ok.1 running_ok.2

theorem running_noFault : running.faults = FaultBits.clear := rfl

theorem running_idle : running.pix.busy = false := rfl

theorem running_good : running.Good := ⟨running_inv, running_noFault, fun _ => running_idle⟩

theorem running_frameStart : running.FrameStart := ⟨rfl, rfl, rfl, rfl, rfl, rfl⟩

/-- With line 0 in flight. -/
def inFlight : State := running.loadLine geom 0

theorem inFlight_ok : inFlight.Bound geom ∧ inFlight.Playing geom 1 :=
  running_ok.2.loadLine cfg_admissible running_ok.1 rfl (by decide)

/-- Loading a line leaves the configuration, RAM and the queue. -/
theorem loadLine_frame (s : State) (g : Geometry) (k : Nat) :
    (s.loadLine g k).cfg = s.cfg ∧ (s.loadLine g k).ram = s.ram ∧ (s.loadLine g k).encq = s.encq := ⟨rfl, rfl, rfl⟩

theorem inFlight_inv : inFlight.Inv :=
  playing_inv running_inv (loadLine_frame running geom 0).1 (loadLine_frame running geom 0).2.1
    (loadLine_frame running geom 0).2.2 inFlight_ok.1 inFlight_ok.2

theorem inFlight_good : inFlight.Good := ⟨inFlight_inv, running_noFault, fun h => nomatch h⟩

/-- A started session moved to the frame boundary. -/
def toBoundary (s : State) (pc : Word) : State :=
  { s with cmd := { s.cmd with rptr := pc, trig := false }, irq := { s.irq with pending := true } }

theorem toBoundary_ok {s : State} {g : Geometry} (hb : s.Bound g) (hp : s.Playing g 0) (hi : s.pix.busy = false)
    {pc : Word}
    (hpc : pc = BitVec.ofNat 32 (s.ses.progBase.toNat + 4 * g.descw * ((timingOf s.cfg g.mode).vTotal + 1))) :
    (toBoundary s pc).Bound g ∧ (toBoundary s pc).Playing g ((timingOf s.cfg g.mode).vTotal + 1) := by
  obtain ⟨z, hz, hd, -⟩ := hp.transfer
  refine ⟨{ hb with }, ?_⟩
  refine
    { state := hp.state, encOn := hp.encOn, enabled := hp.enabled, activeRef := hp.activeRef, pc := hpc
      inFrame := Nat.le_refl _, moving := .inr (.inr rfl), trig := (fun h => nomatch h), busy := (fun h => ?_)
      pending := fun _ => ⟨rfl, rfl, hi⟩, reloading := fun _ => rfl, waddr := hp.waddr
      transfer := ⟨z, hz, hd, fun h => ?_⟩ }
  · rw [show (toBoundary s pc).pix.busy = s.pix.busy from rfl, hi] at h
    cases h
  · rw [show (toBoundary s pc).pix.busy = s.pix.busy from rfl, hi] at h
    cases h

/-- Moving to the boundary leaves the configuration, RAM and the queue. -/
theorem toBoundary_frame (s : State) (pc : Word) :
    (toBoundary s pc).cfg = s.cfg ∧ (toBoundary s pc).ram = s.ram ∧ (toBoundary s pc).encq = s.encq := ⟨rfl, rfl, rfl⟩

/-- The frame boundary (P3: `CMDCH_RPTR` is `0x20041070`). -/
def boundary : State := toBoundary running 0x20041070#32

theorem boundary_ok : boundary.Bound geom ∧ boundary.Playing geom 526 :=
  toBoundary_ok running_ok.1 running_ok.2 rfl rfl

theorem boundary_inv : boundary.Inv :=
  playing_inv running_inv (toBoundary_frame running 0x20041070#32).1 (toBoundary_frame running 0x20041070#32).2.1
    (toBoundary_frame running 0x20041070#32).2.2 boundary_ok.1 boundary_ok.2

theorem boundary_good : boundary.Good := ⟨boundary_inv, running_noFault, fun h => nomatch h⟩

theorem boundary_frameBoundary : boundary.FrameBoundary := ⟨rfl, rfl, rfl, rfl, rfl, rfl⟩

/-- A state of section 2.5: a running session of `n`-word descriptors with the program's words at `0x20000100`, the framebuffer bytes
`0x00 .. 0x0F` at `0x20000000`, and a trigger pending. -/
def channels (n : Nat) (ws : List Word) : State :=
  { clean with
    sesState := .running
    ses :=
      { Session.zero with
        fbBase := 0x20000000#32, fbWords := 4#32, progBase := 0x20000100#32, progWords := toReg (8 * n), descw := toReg n }
    cmd := { ctrl := cmdCtrlWord n, rptr := 0x20000100#32, trig := true }
    pix := { ctrl := 0xDB#32, waddr := 0x400000F0#32, len := 0, raddr := 0, busy := false }
    ram := ((Memory.writeLE [] 0x20000000 16 0x0F0E0D0C0B0A09080706050403020100).writeWords 0x20000100 ws) }

/-- A state after some agents' steps. -/
def after (es : List Event) (s : State) : Result :=
  match es with
  | [] => .next s
  | e :: rest =>
    match agentStep e s with
    | .next t => after rest t
    | .fault f => .fault f
    | .refused r => .refused r

/-- A test of the next state. -/
def holds (p : State → Bool) : Result → Bool
  | .next s => p s
  | .fault _ => false
  | .refused _ => false

/-- A host write to the register at an offset. -/
def hostWrite (off : Nat) (v : Word) : Event := .host (.write .word (toReg (0x40000000 + off)) v)

/-! ### Single steps of the instructions (`95_test_vectors.md` 2.1 to 2.5) -/

theorem test_construct : holds (fun t =>
    readReg t .status == 1 && readReg t .chIds == 0x152 && readReg t .encExpand == 0x11042100 &&
      readReg t .encShift == 0x100 && readReg t .encCtrl == 0 && readReg t .cmdchCtrl == 0x7B &&
      readReg t .pixCtrl == 0xDB && readReg t .pixWaddr == 0x400000F0 && readReg t .progWords == 1052 &&
      t.live == [⟨0x20100000, 153600⟩, ⟨0x20040000, 1052⟩] &&
      t.envlog == [.alloc 0x20100000 153600, .alloc 0x20040000 1052, .claim 2 5])
    (exec .construct idle) = true := by decide

/-- P4 step 4: both regions are freed, in reverse order. -/
theorem test_construct_no_channels : holds (fun t =>
    readReg t .status == 0x20 && t.live == [] &&
      t.envlog == [.alloc 0x20100000 153600, .alloc 0x20040000 1052, .claimFail, .free 0x20040000, .free 0x20100000])
    (exec .construct { idle with claims := [none] }) = true := by decide

theorem test_start : holds (fun t =>
    readReg t .encCtrl == 1 && readReg t .irqStat == 0xA && readReg t .cmdchRptr == 0x20040000 &&
      readReg t .cmdchStat == 1 && readReg t .status == 2) (exec .start built) = true := by decide

theorem test_start_from_reset : holds (fun t => readReg t .fault == 2 && readReg t .status == 0) (exec .start clean) = true := by
  decide

theorem test_stop : holds (fun t =>
    readReg t .status == 0 && t.ses == Session.zero && t.cmd == CmdChannel.zero && t.pix == PixChannel.zero &&
      t.enc == Encoder.zero && t.irq == Irq.zero && t.live == [] &&
      t.envlog.drop 3 == [.unclaim 2 5, .free 0x20040000, .free 0x20100000]) (exec .stop built) = true := by decide

/-- P5: at the frame boundary RELOAD does what the handler would. -/
theorem test_reload : holds (fun t =>
    readReg t .cmdchRptr == 0x20040000 && readReg t .irqStat == 0xA && readReg t .cmdchStat == 1)
    (exec .reload boundary) = true := by decide

theorem test_timing_1 : holds (fun t =>
    t.tq == { hFrontPorch := 18, hSyncWidth := 108, hBackPorch := 54, hActive := 720, vFrontPorch := 12, vSyncWidth := 2
              vBackPorch := 35, vActive := 400, vTotal := 449, pol := 2 } && readReg t .status == 0)
    (exec .timing { clean with args := { Args.zero with mode := 1 } }) = true := by decide

theorem test_timing_2_refused : holds (fun t => t.tq == TimingQuery.zero && readReg t .status == 0x40)
    (exec .timing { clean with args := { Args.zero with mode := 2 } }) = true := by decide

theorem test_enccalc_16_2 : holds (fun t =>
    readReg t .eqExpand == 0x0A830CBD && readReg t .eqShift == 0x410 && readReg t .eqBswap == 1)
    (exec .enccalc { clean with args := { Args.zero with depth := 16, hscale := 2 } }) = true := by decide

theorem test_enccalc_2_2_refused : holds (fun t => t.eq == EncQuery.zero && readReg t .status == 0x40)
    (exec .enccalc { clean with args := { Args.zero with depth := 2, hscale := 2 } }) = true := by decide

/-- `XFER.S 2, 0x20000008`: the CMD step and two PIX steps. -/
theorem test_xferS : holds (fun t =>
    t.encq == [⟨.word, 0x0B0A0908⟩, ⟨.word, 0x0F0E0D0C⟩] && readReg t .pixRaddr == 0x20000010 && readReg t .pixLen == 0 &&
      readReg t .cmdchStat == 1 && readReg t .cmdchRptr == 0x20000108)
    (after [.cmd, .pix, .pix] (channels 2 [2, 0x20000008])) = true := by decide

/-- Past the framebuffer the second PIX step is a `BUS_ERROR`. -/
theorem test_xferS_bus_error : holds (fun t => t.encq == [⟨.word, 0x0F0E0D0C⟩] && readReg t .fault == 0x10)
    (after [.cmd, .pix, .pix] (channels 2 [5, 0x2000000C])) = true := by decide

/-- `TERM.S` with a stray, misaligned `RADDR`. -/
theorem test_termS : holds (fun t =>
    readReg t .cmdchRptr == 0x20000108 && readReg t .pixLen == 0 && readReg t .pixRaddr == 0x12345679 &&
      t.irq.pending && !t.cmd.trig && !t.pix.busy && readReg t .fault == 0)
    (cmdStep (channels 2 [0, 0x12345679])) = true := by decide

/-- `XFER.L 2, 2, 0x20000006`: the CMD step and two PIX steps. -/
theorem test_xferL : holds (fun t => t.encq == [⟨.half, 0x0706⟩, ⟨.half, 0x0908⟩] && readReg t .cmdchRptr == 0x20000110)
    (after [.cmd, .pix, .pix] (channels 4 [0xD7, 0x400000F0, 2, 0x20000006])) = true := by decide

/-- A source that is not a multiple of 2: `BAD_DESC`, nothing else. -/
theorem test_xferL_misaligned : holds (fun t => readReg t .fault == 8 && readReg t .cmdchRptr == 0x20000100 && !t.pix.busy)
    (cmdStep (channels 4 [0xD7, 0x400000F0, 2, 0x20000005])) = true := by decide

theorem test_termL : holds (fun t =>
    readReg t .cmdchRptr == 0x20000110 && t.irq.pending && !t.cmd.trig &&
      t.pix == { ctrl := 0xDB, waddr := 0x400000F0, len := 0, raddr := 0, busy := false })
    (cmdStep (channels 4 [0xDB, 0x400000F0, 0, 0])) = true := by decide

/-- A destination that is not the queue port. -/
theorem test_termL_wrong_destination : holds (fun t => readReg t .fault == 8)
    (cmdStep (channels 4 [0xDB, 0x20000000, 0, 0])) = true := by decide

/-- The handler's two steps (section 2.6). -/
theorem test_handler :
    holds (fun t => readReg t .irqStat == 0xF) (fbhStep boundary) = true ∧
    holds (fun t => readReg t .irqStat == 0xA && readReg t .cmdchRptr == 0x20040000 && readReg t .cmdchStat == 1)
      (after [.fbh, .fbh] boundary) = true := by decide

/-- Host accesses (section 2.7). -/
theorem test_host_accesses :
    holds (fun t => t.args.width == 640) (agentStep (hostWrite 0x00C 640) clean) = true ∧
    holds (fun t => readReg t .fault == 0x20) (agentStep (hostWrite 0x024 1) clean) = true ∧
    holds (fun t => readReg t .fault == 0x20) (hostStep (.read .half 0x40000004) clean) = true ∧
    holds (fun t => readReg t .fault == 0x20) (hostStep (.read .word 0x400000F0) clean) = true ∧
    holds (fun t => readReg t .fault == 0x20) (hostStep (.read .word 0x40000054) clean) = true ∧
    holds (fun t => readReg t .fault == 0 && t.readData == 0x00030010) (hostStep (.read .word 0x40000100) clean) = true := by
  decide

/-- Spot values of P3: `RADDR` of descriptors 47 and 524. -/
theorem test_builder_spots :
    segment cfg geom 640 0x20100000 47 = [0x280, 0x20100A00] ∧
    segment cfg geom 640 0x20100000 524 = [0x280, 0x20195600] ∧
    segment cfg geom 640 0x20100000 10 = [3, 0x40000110] := by decide

/-! ### Witnesses: the hypotheses of each statement, met together -/

/-- RAM need not be empty at reset; the last word of the pattern window. -/
theorem witness_ResetClearsRegisters : readOffset (State.resetWith cfg [(0x20000000, 1#8)]) (0x100 + 0x3C) = some 0#32 ∧
    (State.resetWith cfg [(0x20000000, 1#8)]).ram ≠ [] := by decide

theorem witness_ResetIsGood : cfg.Admissible ∧ Memory.wf [(0x20000000, 1#8)] ∧
    ∀ x ∈ [((0x20000000, 1#8) : Host.Cell)], inRam cfg x.1 1 = true :=
  ⟨cfg_admissible, by decide, by decide⟩

/-- `STATUS`, the last readable register, and the write-only one. -/
theorem witness_HostReadReturnsTheRegister :
    clean.irq.fbh = .armed ∧ clean.cfg.vtgBase % 4096 = 0 ∧
    ([(0x004, Reg.status), (0x0E8, Reg.irqStat), (0x000, Reg.command)].all fun (off, r) =>
      decide ((toReg (0x40000000 + off)).toNat = clean.cfg.vtgBase + off ∧ regAt off = some r ∧ r.access ≠ .noAccess)) =
        true ∧ Reg.command.access = .wo := by decide

/-- RAM: the last word of the program, the last byte of the framebuffer; a misaligned read, the first byte past the
framebuffer, the last byte of RAM; the first address past RAM and past the registers. -/
theorem witness_HostReadReturnsTheRegister_ram :
    let s := channels 2 [7]
    s.irq.fbh = .armed ∧ s.cfg.Admissible ∧
    s.inProgram 0x2000013C 4 = true ∧ s.inFramebuffer 0x2000000F 1 = true ∧
    inRam s.cfg 0x20000001 1 = true ∧ 0x20000001 % ElemSize.half.bytes ≠ 0 ∧
    (inRam s.cfg 0x20000010 1 = true ∧ s.inProgram 0x20000010 1 = false ∧ s.inFramebuffer 0x20000010 1 = false) ∧
    (inRam s.cfg 0x201FFFFF 1 = true ∧ s.inProgram 0x201FFFFF 1 = false ∧ s.inFramebuffer 0x201FFFFF 1 = false) ∧
    (inRam s.cfg 0x20200000 1 = false ∧ inRegisterSpace s.cfg 0x20200000 = false) ∧
    (inRam s.cfg 0x40001000 1 = false ∧ inRegisterSpace s.cfg 0x40001000 = false) :=
  ⟨by decide, cfg_admissible, by decide, by decide, by decide, by decide, by decide, by decide, by decide, by decide⟩

/-- A half-word at 0x2000000E of the framebuffer 00, 01, …, 0F is 0x0F0E (R71). -/
theorem test_host_reads_framebuffer :
    holds (fun t => t.readData == 0x0F0E#32) (agentStep (.host (.read .half 0x2000000E)) (channels 2 [7])) = true := by
  decide

theorem witness_PatternWindowIsReadable : clean.irq.fbh = .armed ∧ clean.cfg.Admissible ∧ 0 < 4 ∧ 3 < 4 :=
  ⟨rfl, cfg_admissible, by decide, by decide⟩

/-- The first latch and the last; and an instruction that runs. -/
theorem witness_ArgumentLatchesHoldWhatTheHostWrites :
    clean.irq.fbh = .armed ∧ clean.cfg.vtgBase % 4096 = 0 ∧
    (toReg 0x4000000C).toNat = clean.cfg.vtgBase + 0x00C ∧ (toReg 0x40000010).toNat = clean.cfg.vtgBase + 0x010 ∧
    (toReg 0x40000014).toNat = clean.cfg.vtgBase + 0x014 ∧ (toReg 0x40000018).toNat = clean.cfg.vtgBase + 0x018 ∧
    (toReg 0x4000001C).toNat = clean.cfg.vtgBase + 0x01C ∧ exec .reload clean = .next clean :=
  ⟨rfl, by decide, by decide, by decide, by decide, by decide, by decide, rfl⟩

/-- One access for each way to break the rules, at the edges of the unmapped ranges. -/
theorem witness_BadAccessSetsItsBit :
    clean.irq.fbh = .armed ∧ inRegisterSpace clean.cfg 0x40000000 = true ∧ inRegisterSpace clean.cfg 0x40000FFF = true ∧
    ElemSize.half ≠ .word ∧ (0x40000FFF : Nat) % 4 ≠ 0 ∧ regAt 0x0F0 = some .encq ∧ Reg.encq.access = .noAccess ∧
    regAt 0x054 = none ∧ regAt 0x0F4 = none ∧ regAt 0x140 = none ∧ regAt 0xFFC = none ∧
    regAt 0x004 = some .status ∧ Reg.status.access = .ro := by decide

theorem witness_DecodeUndoesEncode : (Instr.xferS 1#32 0xFFFFFFFF#32).wf = true ∧
    (Instr.xferL .byte 0#32 0xFFFFFFFF#32 0#32).wf = true ∧ Instr.construct.wf = true := by decide

theorem witness_EncodeUndoesDecode :
    decode .S [3#8, 0#8, 0#8, 0#8, 0x10#8, 1#8, 0#8, 0x40#8, 7#8] = .ok (.xferS 3#32 0x40000110#32, [7#8]) := rfl

/-- Each kind of reserved word, at its edges. -/
theorem witness_ReservedCommandWordFaults :
    clean.irq.fbh = .armed ∧ clean.cfg.vtgBase % 4096 = 0 ∧ (0x40000000#32).toNat = clean.cfg.vtgBase ∧
    ((0#32).extractLsb' 0 8).toNat = 0 ∧ 7 ≤ ((7#32).extractLsb' 0 8).toNat ∧ 7 ≤ ((255#32).extractLsb' 0 8).toNat ∧
    (0x101#32).extractLsb' 8 24 ≠ 0#24 ∧ (0x80000002#32).extractLsb' 8 24 ≠ 0#24 := by decide

theorem witness_LegalControlWords : ctrlSize 0xD3#32 = some .byte ∧ ctrlSize 0xDB#32 = some .word ∧ ctrlSize 0xDF#32 = none := by
  decide

theorem witness_WidthSelectsTheMode : cfg.Admissible := cfg_admissible

/-- The first and last lines of each band (section 2.1). -/
theorem witness_BandsPartitionTheFrame :
    ([0, 9, 10, 11, 12, 44, 45, 524].map (bandOf cfg.tt0) =
      [.frontPorch, .frontPorch, .sync, .sync, .backPorch, .backPorch, .active, .active]) ∧ 524 < cfg.tt0.vTotal := by
  decide

theorem witness_PatternContents : (timingOf cfg .mode1).Admissible ∧ cfg.tt0.hFrontPorch = 16 ∧ cfg.tt0.hSyncWidth = 96 ∧
    cfg.tt0.hBackPorch = 48 ∧ cfg.tt0.hActive = 640 ∧ cfg.pol0 = { hsync := false, vsync := false } :=
  ⟨cfg_admissible.timing1, rfl, rfl, rfl, rfl, rfl⟩

theorem witness_TimingLatchesTheRecord : clean.cfg.Admissible ∧ clean.args.mode.toNat = OutputMode.mode0.number ∧
    2 ≤ ({ clean with args := { Args.zero with mode := 2 } } : State).args.mode.toNat :=
  ⟨cfg_admissible, by decide, by decide⟩

/-- Answered and refused at the edge: the count 31 is, the count 32 is not. -/
theorem witness_EncoderParameters : (encParams cfg 32 31).isSome = true ∧ encParams cfg 32 32 = none ∧
    (encParams cfg 1 720).isSome = true ∧ encParams cfg 3 1 = none ∧ encParams cfg 8 0 = none := by decide

theorem witness_EncoderWordFields : (encParams cfg 16 2).isSome = true ∧ (expansionOf cfg 16).isSome = true := by decide

theorem witness_EnccalcLatchesTheAnswer :
    (encParams cfg (16#32).toNat (2#32).toNat).isSome = true ∧ encParams cfg (8#32).toNat (0#32).toNat = none := by decide

/-- A refusal of each kind, and a record (section 2.3). -/
theorem witness_GeometryRecord : cfg.Admissible ∧ (geometry cfg 45 400 32).isSome = true ∧ geometry cfg 640 240 24 = none ∧
    geometry cfg 0 240 8 = none ∧ geometry cfg 641 1 8 = none ∧ geometry cfg 80 100 16 = none ∧ geometry cfg 320 240 4 = none ∧
    geometry cfg 80 480 8 = none :=
  ⟨cfg_admissible, by decide, by decide, by decide, by decide, by decide, by decide, by decide⟩

/-- Two geometries of one mode and one descriptor format, with different sizes. -/
theorem witness_SizesAreComputedBeforehand :
    ((geometry cfg 640 240 32).map fun g => (g.mode, g.hScale, g.progWords)) = some (.mode0, 1, 1052) ∧
    ((geometry cfg 640 1 1).map fun g => (g.mode, g.hScale, g.progWords)) = some (.mode0, 1, 1052) ∧
    ((geometry cfg 320 240 8).map fun g => (g.hScale, g.descw, g.progWords)) = some (2, 4, 2104) := by decide

/-- A program of each format, and a line of each band. -/
theorem witness_ProgramReproducesTheBands : cfg.Admissible ∧ geometry cfg 640 240 32 = some geom ∧ geom.descw = 2 ∧
    ((geometry cfg 320 240 8).map Geometry.descw) = some 4 ∧ 524 < (timingOf cfg geom.mode).vTotal :=
  ⟨cfg_admissible, geom_eq, rfl, by decide, by decide⟩

/-- The first active line of row 0, the last of row 239. -/
theorem witness_ActiveLinesReadTheirRows : geometry cfg 640 240 32 = some geom ∧ 239 < 240 ∧ 1 < geom.vScale ∧
    524 < (timingOf cfg geom.mode).vTotal ∧ bandOf (timingOf cfg geom.mode) 524 = .active ∧ 0x20100000 % 4 = 0 :=
  ⟨geom_eq, by decide, by decide, by decide, by decide, by decide⟩

theorem witness_ConstructSucceeds : idle.sesState = .none ∧
    geometry idle.cfg idle.args.width.toNat idle.args.height.toNat idle.args.depth.toNat = some geom ∧
    idle.allocs = [some 0x20100000#32, some 0x20040000#32] ∧ idle.claims = [some (2#4, 5#4)] ∧
    admissibleAlloc idle geom.fbWords 0x20100000#32 = true ∧ admissibleAlloc idle geom.progWords 0x20040000#32 = true ∧
    Region.disjoint { base := 0x20040000, words := geom.progWords } { base := 0x20100000, words := geom.fbWords } = true ∧
    2#4 ≠ 5#4 :=
  ⟨rfl, geom_eq, rfl, rfl, by decide, by decide, by decide, by decide⟩

/-- A session; a refused geometry; and an accepted one with each answer refused in turn. -/
theorem witness_ConstructChecksInOrder : built.sesState ≠ .none ∧ clean.sesState = .none ∧
    geometry clean.cfg clean.args.width.toNat clean.args.height.toNat clean.args.depth.toNat = none ∧
    geometry idle.cfg idle.args.width.toNat idle.args.height.toNat idle.args.depth.toNat = some geom ∧
    ({ idle with allocs := [none] } : State).allocs = [none] ∧
    ({ idle with allocs := [some 0x20100000#32, none] } : State).allocs = [some 0x20100000#32, none] ∧
    ({ idle with claims := [none] } : State).claims = [none] ∧
    admissibleAlloc idle geom.fbWords 0x20100000#32 = true ∧ admissibleAlloc idle geom.progWords 0x20040000#32 = true :=
  ⟨by decide, rfl, by decide, geom_eq, rfl, rfl, rfl, by decide, by decide⟩

/-- A failure with a log line, and one of `ConfigurationError`. -/
theorem witness_FailedConstructLeavesNoTrace :
    holds (fun t => t.err == .channelUnavailable) (exec .construct { idle with claims := [none] }) = true ∧
    holds (fun t => t.err == .configurationError && t.envlog == []) (exec .construct clean) = true := by decide

theorem witness_EveryInstructionAnswersANextState :
    holds (fun t => t.err == .ok && t.sesState == .built) (exec .construct idle) = true ∧
    holds (fun t => t.err == .sessionConflict && t.sesState == .built) (exec .construct built) = true := by decide

theorem witness_ConstructFrame : idle.ram.wf ∧ holds (fun t => t.err == .ok) (exec .construct idle) = true ∧
    holds (fun t => t.err != .ok) (exec .construct clean) = true :=
  ⟨clean_ramOk.canonical, by decide, by decide⟩

theorem witness_StartBeginsPlayback : built.Inv ∧ built.sesState = .built ∧ built.ses.depth = 32#32 ∧
    clean.sesState = .none ∧ running.sesState = .running :=
  ⟨built_inv, rfl, rfl, rfl, rfl⟩

theorem witness_StopReleasesEverything : clean.sesState = .none ∧ running.sesState ≠ .none := by decide

theorem witness_StopReturnsToTheResetState : clean.Inv ∧ built.Inv ∧ inFlight.Inv ∧ boundary.Inv :=
  ⟨clean_inv, built_inv, inFlight_inv, boundary_inv⟩

theorem witness_ReloadIsIdempotent : built.Inv ∧ built.irq.activeRef = false ∧ boundary.irq.activeRef = true :=
  ⟨built_inv, rfl, rfl⟩

theorem witness_SessionStateMoves : running.Inv ∧ built.Inv ∧
    holds (fun t => t.sesState == .running) (exec .start built) = true ∧
    holds (fun t => t.sesState == .none) (exec .stop running) = true ∧
    holds (fun t => t.sesState != idle.sesState) (agentStep (hostWrite 0 1) idle) = true :=
  ⟨running_inv, built_inv, by decide, by decide, by decide⟩

theorem witness_CommandTable : clean.Inv ∧ built.Inv ∧ running.Inv := ⟨clean_inv, built_inv, running_inv⟩

/-- A transfer of one element of each size; `XFER.S` under the control word and destination setup programs. -/
theorem witness_TransferDescriptorsLoad : running.pix.busy = false ∧ 1#32 ≠ 0#32 ∧
    (0x20100000#32).toNat % ElemSize.word.bytes = 0 ∧ (0x20100003#32).toNat % ElemSize.byte.bytes = 0 ∧
    running.pix.ctrl = ctrlStd .word ∧ running.pix.waddr = encqAddr running.cfg := by decide

theorem witness_TerminalDescriptorsRaiseTheInterrupt : running.pix.busy = false ∧ running.pix.ctrl = ctrlStd .word ∧
    running.pix.waddr = encqAddr running.cfg := by decide

/-- A transfer in flight; an illegal control word; a wrong destination; a misaligned source. -/
theorem witness_DescriptorFaults : inFlight.pix.busy = true ∧ clean.pix.busy = false ∧
    (∀ y, clean.pix.ctrl ≠ ctrlStd y) ∧ clean.pix.waddr ≠ encqAddr clean.cfg ∧ 0x20000000#32 ≠ encqAddr clean.cfg ∧
    1#32 ≠ 0#32 ∧ (0x20000002#32).toNat % ElemSize.word.bytes ≠ 0 ∧ running.pix.busy = false ∧
    running.pix.ctrl = ctrlStd .word :=
  ⟨rfl, rfl, fun y => by cases y <;> decide, by decide, by decide, by decide, by decide, rfl, rfl⟩

/-- A CMD step of each format that raises no fault, and one that loads a terminal. -/
theorem witness_CmdStepLoadsTheWindow :
    (channels 2 [3, 0x40000110]).cmdReady = true ∧ (channels 2 [3, 0x40000110]).ses.descw = BitVec.ofNat 32 2 ∧
    holds (fun t => t.faults == FaultBits.clear && t.pix.busy) (cmdStep (channels 2 [3, 0x40000110])) = true ∧
    (channels 4 [0xDB, 0x400000F0, 0, 0]).cmdReady = true ∧
    (channels 4 [0xDB, 0x400000F0, 0, 0]).ses.descw = BitVec.ofNat 32 4 ∧
    holds (fun t => t.faults == FaultBits.clear && t.irq.pending) (cmdStep (channels 4 [0xDB, 0x400000F0, 0, 0])) = true := by
  decide

/-- The pointer one past the program; an illegal control word inside it. -/
theorem witness_CmdStepTestsInOrder :
    clean.cmdReady = false ∧ (channels 4 [0xDF, 0, 1, 0]).cmdReady = true ∧ (channels 4 [0xDF, 0, 1, 0]).pix.busy = false ∧
    (channels 4 [0xDF, 0, 1, 0]).ses.descw = BitVec.ofNat 32 4 ∧
    (channels 4 [0xDF, 0, 1, 0]).cmd.rptr.toNat % 4 = 0 ∧
    (channels 4 [0xDF, 0, 1, 0]).inProgram (channels 4 [0xDF, 0, 1, 0]).cmd.rptr.toNat (4 * 4) = true ∧
    (∀ z, BitVec.ofNat 32 ((channels 4 [0xDF, 0, 1, 0]).ram.readLE (channels 4 [0xDF, 0, 1, 0]).cmd.rptr.toNat 4) ≠ ctrlStd z) ∧
    (channels 2 []).inProgram 0x20000140 (4 * 2) = false :=
  ⟨by decide, by decide, by decide, by decide, by decide, by decide, fun z => by cases z <;> decide, by decide⟩

/-- A PIX step of the last element, and one outside the framebuffer. -/
def lastElement (raddr : Word) : State :=
  { channels 2 [] with pix := { ctrl := 0xDB#32, waddr := 0x400000F0#32, len := 1, raddr := raddr, busy := true } }

theorem witness_PixStepMovesOneElement : clean.pix.busy = false ∧ (lastElement 0x2000000C).pix.busy = true ∧
    (lastElement 0x2000000C).pix.ctrl = ctrlStd .word ∧ (lastElement 0x2000000C).pix.len ≠ 0#32 ∧
    (lastElement 0x2000000C).readPix 0x2000000C .word = some 0x0F0E0D0C ∧
    (lastElement 0x20000010).readPix 0x20000010 .word = none := by decide

/-- Two elements to the end of the framebuffer. -/
def twoElements : State :=
  { channels 2 [] with
    pix := { ctrl := 0xDB#32, waddr := 0x400000F0#32, len := 2, raddr := 0x20000008#32, busy := true }
    events := [.pix, .pix] }

theorem witness_PixStepsDeliverTheTransfer : twoElements.faults = FaultBits.clear ∧ twoElements.pix.busy = true ∧
    twoElements.pix.ctrl = ctrlStd .word ∧ twoElements.pix.len = BitVec.ofNat 32 [0x0B0A0908, 0x0F0E0D0C].length ∧
    twoElements.readPix (twoElements.pix.raddr + BitVec.ofNat 32 (4 * 0)).toNat .word = [0x0B0A0908, 0x0F0E0D0C][0]? ∧
    twoElements.readPix (twoElements.pix.raddr + BitVec.ofNat 32 (4 * 1)).toNat .word = [0x0B0A0908, 0x0F0E0D0C][1]? ∧
    twoElements.events = List.replicate 2 .pix ++ [] := by decide

/-- The last word of the program, the last element of the framebuffer, the last word of the pattern window. -/
theorem witness_ChannelsReadOnlyTheirRegions : (channels 2 [7]).cfg.Admissible ∧
    (channels 2 [7]).readCmd 0x20000100 = some 7#32 ∧ (channels 2 [7]).readCmd 0x2000013C = some 0#32 ∧
    (channels 2 [7]).readCmd 0x20000140 = none ∧ (channels 2 [7]).readPix 0x2000000F .byte = some 0x0F ∧
    (channels 2 [7]).readPix 0x20000010 .byte = none ∧ (channels 2 [7]).readPix 0x4000013C .word = some 0 ∧
    (channels 2 [7]).readPix 0x40000140 .word = none ∧ (channels 2 [7]).readPix 0x40000100 .byte = none :=
  ⟨cfg_admissible, by decide, by decide, by decide, by decide, by decide, by decide, by decide, by decide⟩

/-- The handler in both states, with and without a session reference. -/
theorem witness_HandlerEntersAndReturns : boundary.irq = { pending := true, enable := true, fbh := .armed, activeRef := true } ∧
    boundary.fbhEnter.irq = { pending := true, enable := true, fbh := .reloading, activeRef := true } ∧
    clean.fbhEnter.irq = { pending := false, enable := false, fbh := .reloading, activeRef := false } := by decide

/-- The last half-word of the framebuffer; a misaligned write inside it; the byte past it; a word of the program. -/
theorem witness_ProducerWritesItsBytes : (channels 2 []).ram.wf ∧
    (channels 2 []).inFramebuffer (0x2000000E#32).toNat ElemSize.half.bytes = true ∧
    (0x2000000E#32).toNat % ElemSize.half.bytes = 0 ∧
    (0x2000000F#32).toNat % ElemSize.half.bytes ≠ 0 ∧
    (channels 2 []).inFramebuffer (0x20000010#32).toNat ElemSize.byte.bytes = false ∧
    (channels 2 []).inFramebuffer (0x20000100#32).toNat ElemSize.word.bytes = false ∧ clean.sesState = .none := by decide

theorem witness_ReadsSeeTheLatestBytes : Memory.wf [(0x20000000, 1#8)] ∧
    ((Memory.writeLE [(0x20000000, 1#8)] 0x20000001 2 0x0302).readLE 0x20000000 4 = 0x00030201) := by decide

theorem witness_DescriptorsFrame : (Instr.termL .word 0x400000F0#32 0#32).format = .L ∧
    (Instr.xferS 1#32 0#32).format = .S ∧
    holds (fun t => t.faults == FaultBits.clear) (exec (.termL .word 0x400000F0#32 0#32) running) = true ∧
    holds (fun t => t.faults == FaultBits.clear) (exec (.xferS 1#32 0#32) running) = true := by decide

/-- The pointer moves in a CMD step, by the reload, by START and by STOP. -/
theorem witness_ProgramCounterMoves :
    holds (fun t => t.cmd.rptr != (channels 2 [3, 0x40000110]).cmd.rptr) (agentStep .cmd (channels 2 [3, 0x40000110])) = true ∧
    holds (fun t => t.cmd.rptr != boundary.cmd.rptr) (agentStep .fbh boundary.fbhEnter) = true ∧
    holds (fun t => t.cmd.rptr != boundary.cmd.rptr) (agentStep (hostWrite 0 4) boundary) = true ∧
    holds (fun t => t.cmd.rptr != built.cmd.rptr) (agentStep (hostWrite 0 2) built) = true ∧
    holds (fun t => t.cmd.rptr != boundary.cmd.rptr) (agentStep (hostWrite 0 3) boundary) = true := by decide

/-- A producer that changes a byte, a PIX step that pushes a record. -/
theorem witness_WritersOfRamAndHistories :
    holds (fun t => t.ram.read 0x2000000F != (channels 2 []).ram.read 0x2000000F)
      (agentStep (.producer .byte 0x2000000F 0x55) (channels 2 [])) = true ∧
    holds (fun t => t.encq.length == 1) (agentStep .pix (lastElement 0x2000000C)) = true ∧
    holds (fun t => t.ses.fbWords == 153600 && t.sesState == .built) (agentStep (hostWrite 0 1) idle) = true := by decide

theorem witness_FaultsAreStickyAndFinal :
    holds (fun t => t.faults != clean.faults) (agentStep (hostWrite 0 2) clean) = true ∧
    ({ clean with faults := FaultBits.clear.set .badState } : State).faults ≠ FaultBits.clear ∧
    step { clean with faults := FaultBits.clear.set .badState } = .fault (.latched .badState) :=
  ⟨by decide, by decide, rfl⟩

/-- A command word as the next event; a CMD step on a descriptor of each format. -/
theorem witness_StepRunsTheInstruction :
    (clean.withFetchWord 32 5).events = .host (.write .word 0x40000000#32 5#32) :: [] ∧
    (clean.withFetchWord 32 5).faults = FaultBits.clear ∧ (clean.withFetchWord 32 5).irq.fbh = .armed ∧
    (clean.withFetchWord 32 5).cfg.vtgBase % 4096 = 0 ∧ (0x40000000#32).toNat = (clean.withFetchWord 32 5).cfg.vtgBase ∧
    decode .H (bytesOfWord 5#32) = .ok (.timing, []) :=
  ⟨by decide, by decide, by decide, by decide, by decide, rfl⟩

theorem witness_StepRunsTheInstruction_S :
    let s := clean.withFetchWord 64 0x4000011000000003
    s.faults = FaultBits.clear ∧ s.events = .cmd :: [] ∧ s.cmdReady = true ∧ s.pix.busy = false ∧
    s.ses.descw = BitVec.ofNat 32 2 ∧ s.cmd.rptr.toNat % 4 = 0 ∧ s.inProgram s.cmd.rptr.toNat (4 * 2) = true ∧
    decode .S ((List.range (4 * 2)).map fun k => s.ram.read (s.cmd.rptr.toNat + k)) = .ok (.xferS 3#32 0x40000110#32, []) :=
  ⟨by decide, by decide, by decide, by decide, by decide, by decide, by decide, rfl⟩

theorem witness_StepRunsTheInstruction_L :
    let s := clean.withFetchWord 128 (0xDB + 0x400000F0 * 2 ^ 32)
    s.faults = FaultBits.clear ∧ s.events = .cmd :: [] ∧ s.cmdReady = true ∧ s.pix.busy = false ∧
    s.ses.descw = BitVec.ofNat 32 4 ∧ s.cmd.rptr.toNat % 4 = 0 ∧ s.inProgram s.cmd.rptr.toNat (4 * 4) = true ∧
    decode .L ((List.range (4 * 4)).map fun k => s.ram.read (s.cmd.rptr.toNat + k)) =
      .ok (.termL .word 0x400000F0#32 0#32, []) :=
  ⟨by decide, by decide, by decide, by decide, by decide, by decide, by decide, rfl⟩

/-- A state of the invariant that steps on; and one whose step raises a fault. -/
theorem witness_StepKeepsTheInvariant : clean.Inv ∧
    holds (fun t => t.err == .ok) (step { clean with events := [hostWrite 0 3] }) = true ∧
    holds (fun t => t.faults.badState) (step { clean with events := [hostWrite 0 2] }) = true :=
  ⟨clean_inv, by decide, by decide⟩

/-- No session, a built one, a running one with a transfer in flight, one with the interrupt pending. -/
theorem witness_InvariantOfTheRegisters : clean.Inv ∧ clean.sesState = .none ∧ built.Inv ∧ built.sesState = .built ∧ geom.descw = 2 ∧
    inFlight.Inv ∧ inFlight.pix.busy = true ∧ boundary.Inv ∧ boundary.irq.pending = true :=
  ⟨clean_inv, rfl, built_inv, rfl, rfl, inFlight_inv, rfl, boundary_inv, rfl⟩

/-- Adding events keeps the invariant. -/
theorem events_inv {s : State} (h : s.Inv) (es : List Event) : ({ s with events := es } : State).Inv := by
  refine ⟨h.config, ⟨h.ram.canonical, h.ram.inside⟩, h.queue, ?_⟩
  rcases h.session with hn | ⟨g, hb, hbu | ⟨k, hp⟩⟩
  · exact .inl { hn with }
  · exact .inr ⟨g, { hb with }, .inl { hbu with }⟩
  · exact .inr ⟨g, { hb with }, .inr ⟨k, { hp with }⟩⟩

/-- Adding events keeps a state good. -/
theorem events_good {s : State} (h : s.Good) (es : List Event) : ({ s with events := es } : State).Good :=
  ⟨events_inv h.inv es, h.noFault, h.noCollision⟩

theorem witness_SessionIsImmutable : ({ built with events := [hostWrite 0 2] } : State).Inv ∧ built.sesState ≠ .none ∧
    holds (fun t => t.sesState == .running) (step { built with events := [hostWrite 0 2] }) = true :=
  ⟨events_inv built_inv _, by decide, by decide⟩

/-- One state for each agent that can move. -/
theorem witness_ExactlyOneAgentPlays : running.Good ∧ running.sesState = .running ∧ running.cmdReady = true ∧
    inFlight.Good ∧ inFlight.sesState = .running ∧ inFlight.pix.busy = true ∧
    boundary.Good ∧ boundary.sesState = .running ∧ boundary.fbhEntryReady = true :=
  ⟨running_good, rfl, rfl, inFlight_good, rfl, rfl, boundary_good, rfl, rfl⟩

/-- A channel's step, a host's RELOAD at the boundary, a producer's write to the last word. -/
theorem witness_PoliteStepsNeverFault :
    ({ running with events := [.cmd] } : State).Good ∧ ({ running with events := [.cmd] } : State).Polite .cmd ∧
    ({ boundary with events := [hostWrite 0 4] } : State).Good ∧
    ({ boundary with events := [hostWrite 0 4] } : State).Polite (hostWrite 0 4) ∧
    running.Polite (.producer .word 0x20195FFC 0) :=
  ⟨events_good running_good _, trivial, events_good boundary_good _,
    ⟨rfl, by decide, by decide, .inr ⟨by decide, .inr (.inr (.inr (.inl ⟨by decide, by decide⟩)))⟩⟩, ⟨by decide, by decide⟩⟩

/-- Setting the width and asking for a session is polite for as long as the list lasts. -/
theorem witness_NoFaultFromReset : cfg.Admissible ∧ Memory.wf [] ∧
    State.PoliteFor 2
      { State.resetWith cfg [] with events := [hostWrite 0x00C 640, hostWrite 0 1], allocs := [none], claims := [] } := by
  refine ⟨cfg_admissible, by decide, ?_, fun t h => ⟨?_, fun _ _ => trivial⟩⟩
  · exact ⟨rfl, by decide, by decide, .inl ⟨.argWidth, by decide, rfl⟩⟩
  · have e : step { State.resetWith cfg [] with events := [hostWrite 0x00C 640, hostWrite 0 1], allocs := [none], claims := [] } =
        .next
          { State.resetWith cfg [] with
            events := [hostWrite 0 1], allocs := [none], claims := [], args := { Args.zero with width := 640 } } := rfl
    rw [e] at h
    cases h
    exact ⟨rfl, by decide, by decide, .inr ⟨by decide, .inl rfl⟩⟩

/-- The events of one frame, given to a state at a frame start. -/
theorem frame_events {s : State} {g : Geometry} (h : s.Good) (hb : s.Bound g) (hs : s.FrameStart) :
    ∃ t : State, t.Good ∧ t.Bound g ∧ t.FrameStart ∧ t.events = frameEvents t.cfg g t.ses.width.toNat ++ [] :=
  ⟨{ s with events := frameEvents s.cfg g s.ses.width.toNat }, events_good h _, { hb with }, { hs with }, by simp⟩

theorem witness_FrameDeliversThePicture :
    ∃ s : State, s.Good ∧ s.Bound geom ∧ s.FrameStart ∧ s.events = frameEvents s.cfg geom s.ses.width.toNat ++ [] :=
  frame_events running_good running_ok.1 running_frameStart

/-- The handler's two events, given to a state at a frame boundary. -/
theorem boundary_events {s : State} (h : s.Good) (hs : s.FrameBoundary) :
    ∃ t : State, t.Good ∧ t.FrameBoundary ∧ t.events = .fbh :: .fbh :: [] :=
  ⟨{ s with events := [.fbh, .fbh] }, events_good h _, { hs with }, rfl⟩

theorem witness_HandlerClosesTheRing : ∃ s : State, s.Good ∧ s.FrameBoundary ∧ s.events = .fbh :: .fbh :: [] :=
  boundary_events boundary_good boundary_frameBoundary

/-- Two states that differ in a pixel, in a value delivered and in a host's answer. -/
theorem witness_PixelsDoNotSteer :
    ∃ s t : State, s.ram.wf ∧ t.ram.wf ∧ s.SameButPixels t ∧ s ≠ t :=
  ⟨{ clean with ram := [(0x20000000, 1#8)], encq := [⟨.byte, 1⟩] },
    { clean with ram := [(0x20000000, 2#8)], encq := [⟨.byte, 2⟩], readData := 1 }, by decide, by decide,
    ⟨rfl, rfl, fun a h => by simp [State.progRegion, Region.covers, clean, State.resetWith, Session.zero] at h⟩,
    by decide⟩

end Sys2Proof.Machine.Tests
end

section
/-! SUPPORT. What a step can do, said once: the moves of an instruction and the moves of an agent
(`20_memory.md` R80). -/

namespace Sys2Proof.Machine

/-! ### The moves of an instruction -/

/-- The words of an instruction of a format (R101, R104, R105). -/
def formatWords : Format → Nat
  | .H => 1
  | .S => 2
  | .L => 4

/-- Everything an instruction can do to a state, when it answers a next state. -/
inductive State.Runs (s : State) : Instr → State → Prop
  /-- a command ends with a code and does nothing else (R250) -/
  | coded {i : Instr} (h : i = .start ∨ i = .stop ∨ i = .timing ∨ i = .enccalc) (code : ErrCode) :
      s.Runs i { s with err := code }
  /-- a fault is raised (R257) -/
  | raised (i : Instr) (b : FaultBit) : s.Runs i { s with faults := s.faults.set b }
  | failed {t : State} (h : s.FailedConstruct t) : s.Runs .construct t
  | constructed {t : State} {g : Geometry} {fb prog : Word} {a b : BitVec 4}
      (h : s.Constructed t g fb prog a b) : s.Runs .construct t
  | started (h : s.sesState = .built) : s.Runs .start { s.startPlayback with err := .ok }
  | stopped (h : s.sesState ≠ .none) : s.Runs .stop { s.giveBack.clearSession with err := .ok }
  | reloaded : s.Runs .reload s.reloadAction
  | timed (q : TimingQuery) : s.Runs .timing { s with err := .ok, tq := q }
  | calculated (q : EncQuery) : s.Runs .enccalc { s with err := .ok, eq := q }
  /-- a descriptor is loaded: a transfer is in flight, or the frame interrupt is raised (R225, R226) -/
  | loaded {i : Instr} (h : i.format ≠ .H) (p : PixChannel) (pending : Bool) :
      s.Runs i
        { s with
          cmd := s.cmd.consume (formatWords i.format), pix := p, irq := { s.irq with pending := pending } }

theorem loadDescriptor_runs {i : Instr} {p : PixChannel} {s t : State} (hf : i.format ≠ .H)
    (h : loadDescriptor (formatWords i.format) p s = .next t) : s.Runs i t := by
  rcases loadDescriptor_cases (formatWords i.format) p s with
    ⟨-, he⟩ | ⟨-, -, he⟩ | ⟨-, -, z, -, ⟨-, he⟩ | ⟨-, -, he⟩ | ⟨-, -, he⟩⟩ <;> rw [he] at h <;> cases h
  · exact .raised i _
  · exact .raised i _
  · exact .loaded hf p true
  · exact .loaded hf { p with busy := true } s.irq.pending
  · exact .raised i _

theorem execStart_runs {s t : State} (h : execStart s = .next t) : s.Runs .start t := by
  unfold execStart at h
  split at h <;> cases h
  · exact .raised _ _
  · exact .coded (by simp) _
  · exact .started ‹_›

theorem execStop_runs {s t : State} (h : execStop s = .next t) : s.Runs .stop t := by
  unfold execStop at h
  split at h <;> cases h
  · exact .stopped (State.hasSession_iff.mp ‹_›)
  · exact .coded (by simp) _

theorem execConstruct_runs {s t : State} (h : execConstruct s = .next t) : s.Runs .construct t := by
  obtain ⟨u, hu, hfail | ⟨g, fb, prog, a, b, hok⟩⟩ := execConstruct_cases s <;>
    rw [hu] at h <;> cases h
  · exact .failed hfail
  · exact .constructed hok

theorem execTiming_runs {s t : State} (h : execTiming s = .next t) : s.Runs .timing t := by
  unfold execTiming at h
  split at h <;> cases h
  · exact .coded (by simp) _
  · exact .timed _

theorem execEnccalc_runs {s t : State} (h : execEnccalc s = .next t) : s.Runs .enccalc t := by
  unfold execEnccalc at h
  split at h <;> cases h
  · exact .coded (by simp) _
  · exact .calculated _

/-- An instruction that answers a next state made one of its moves. -/
theorem exec_runs {i : Instr} {s t : State} (h : exec i s = .next t) : s.Runs i t := by
  cases i with
  | construct => exact execConstruct_runs h
  | start => exact execStart_runs h
  | stop => exact execStop_runs h
  | reload => cases h; exact .reloaded
  | timing => exact execTiming_runs h
  | enccalc => exact execEnccalc_runs h
  | xferS len raddr => exact loadDescriptor_runs (by simp [Instr.format]) h
  | termS raddr => exact loadDescriptor_runs (by simp [Instr.format]) h
  | xferL z waddr len raddr => exact loadDescriptor_runs (by simp [Instr.format]) h
  | termL z waddr raddr => exact loadDescriptor_runs (by simp [Instr.format]) h

/-- What a descriptor can do: raise a fault, or load its words (R223 to R226). -/
theorem State.Runs.of_descriptor {i : Instr} {s t : State} (hf : i.format ≠ .H) (h : s.Runs i t) :
    (∃ b, t = { s with faults := s.faults.set b }) ∨
      ∃ p pending, t =
        { s with
          cmd := s.cmd.consume (formatWords i.format), pix := p, irq := { s.irq with pending := pending } } := by
  cases h with
  | raised i b => exact .inl ⟨b, rfl⟩
  | loaded hf p pending => exact .inr ⟨p, pending, rfl⟩
  | coded hi code => rcases hi with rfl | rfl | rfl | rfl <;> exact absurd rfl hf
  | failed | constructed | started | stopped | reloaded | timed | calculated => exact absurd rfl hf

/-- A word that decodes in format H is a command. -/
theorem decodeH_format {v : Word} {i : Instr} (h : decodeH v = .ok i) : i.format = .H := by
  rcases decodeH_ok h with ⟨-, rfl⟩ | ⟨-, rfl⟩ | ⟨-, rfl⟩ | ⟨-, rfl⟩ | ⟨-, rfl⟩ | ⟨-, rfl⟩ <;> rfl

/-! ### The moves of an agent -/

/-- Everything the step of an agent can do to a state, when it answers a next state. -/
inductive State.Takes (s : State) : Event → State → Prop
  /-- the agent has no enabled step (log 2) -/
  | idle (e : Event) : s.Takes e s
  /-- a fault is raised (R257) -/
  | raised (e : Event) (b : FaultBit) : s.Takes e { s with faults := s.faults.set b }
  | hostRead (access : HostAccess) (v : Word) : s.Takes (.host access) { s with readData := v }
  /-- a host read that breaks R40 returns 0 -/
  | hostBadRead (access : HostAccess) :
      s.Takes (.host access) { s with readData := 0#32, faults := s.faults.set .badAccess }
  | hostLatch (access : HostAccess) (args : Args) : s.Takes (.host access) { s with args := args }
  /-- a command runs (R23), the handler being armed (R233) -/
  | command {a v : Word} {i : Instr} {t : State} (armed : s.irq.fbh = .armed) (ha : a.toNat = s.cfg.vtgBase)
      (hv : decodeH v = .ok i) (h : exec i s = .next t) : s.Takes (.host (.write .word a v)) t
  /-- a descriptor of the session's width runs (R106, R223) -/
  | descriptor {i : Instr} {t : State} (hf : i.format ≠ .H)
      (hw : s.ses.descw = BitVec.ofNat 32 (formatWords i.format)) (h : exec i s = .next t) : s.Takes .cmd t
  | delivered (z : ElemSize) (v : Nat) : s.Takes .pix (s.deliver z v)
  | entered (h : s.fbhEntryReady = true) : s.Takes .fbh s.fbhEnter
  | returned : s.Takes .fbh s.fbhReturn
  | produced {z : ElemSize} {a v : Word} (h : s.inFramebuffer a.toNat z.bytes = true) :
      s.Takes (.producer z a v) { s with ram := s.ram.writeLE a.toNat z.bytes v.toNat }

/-- A host write to an operand latch changes the latches alone. -/
theorem writeArg_eq_some {s t : State} {off : Nat} {v : Word} (h : writeArg s off v = some t) :
    t = { s with args := t.args } := by
  unfold writeArg at h
  split at h <;> cases h <;> rfl

theorem hostReadReg_takes {s t : State} {z : ElemSize} {a : Nat} {access : HostAccess}
    (h : hostReadReg z a s = .next t) : s.Takes (.host access) t := by
  unfold hostReadReg at h
  split at h
  · split at h <;> cases h
    · exact .hostRead _ _
    · exact .hostBadRead _
  · cases h
    exact .hostBadRead _

theorem hostReadRam_takes {s t : State} {z : ElemSize} {a : Nat} {access : HostAccess}
    (h : hostReadRam z a s = .next t) : s.Takes (.host access) t := by
  unfold hostReadRam at h
  split at h
  · cases h
  · split at h <;> cases h
    exact .hostRead _ _

theorem hostWriteReg_takes {s t : State} {z : ElemSize} {a v : Word} (armed : s.irq.fbh = .armed)
    (h : hostWriteReg z a.toNat v s = .next t) : s.Takes (.host (.write z a v)) t := by
  unfold hostWriteReg at h
  split at h
  · rename_i hz
    obtain ⟨rfl, -⟩ := hz
    split at h
    · unfold hostCommand at h
      split at h
      · exact .command armed ‹_› ‹_› h
      · cases h
        exact .raised _ _
    · split at h <;> cases h
      · rename_i hu
        rw [writeArg_eq_some hu]
        exact .hostLatch _ _
      · exact .raised _ _
  · cases h
    exact .raised _ _

theorem hostStep_takes {s t : State} {access : HostAccess} (h : hostStep access s = .next t) :
    s.Takes (.host access) t := by
  unfold hostStep at h
  split at h
  · cases h
    exact .idle _
  rename_i hre
  have armed : s.irq.fbh = .armed := by
    cases hf : s.irq.fbh with
    | armed => rfl
    | reloading => exact absurd hf hre
  cases access with
  | read z a =>
    dsimp only at h
    split at h
    · exact hostReadReg_takes h
    · split at h
      · exact hostReadRam_takes h
      · cases h
  | write z a v =>
    dsimp only at h
    split at h
    · exact hostWriteReg_takes armed h
    · split at h <;> cases h

theorem decodeS_format (w0 w1 : Word) : (decodeS w0 w1).format = .S := by
  rcases decodeS_cases w0 w1 with ⟨-, h⟩ | ⟨-, h⟩ <;> rw [h] <;> rfl

theorem decodeL_format {w0 w1 w2 w3 : Word} {i : Instr} (h : decodeL w0 w1 w2 w3 = .ok i) : i.format = .L := by
  obtain ⟨z, -, ⟨-, rfl⟩ | ⟨-, rfl⟩⟩ := decodeL_ok h <;> rfl

theorem cmdStep_takes {s t : State} (h : cmdStep s = .next t) : s.Takes .cmd t := by
  unfold cmdStep at h
  split at h
  · split at h
    · cases h
      exact .raised _ _
    · unfold runDescriptor at h
      split at h
      · rename_i hw
        split at h
        · exact .descriptor (by simp [decodeS_format]) (by rw [decodeS_format]; exact hw) h
        · cases h
          exact .raised _ _
      · split at h
        · rename_i hw
          split at h
          · split at h
            · have hf := decodeL_format ‹_›
              exact .descriptor (by rw [hf]; decide) (by rw [hf]; exact hw) h
            · cases h
              exact .raised _ _
          · cases h
            exact .raised _ _
        · cases h
  · cases h
    exact .idle _

theorem pixStep_takes {s t : State} (h : pixStep s = .next t) : s.Takes .pix t := by
  unfold pixStep at h
  split at h
  · split at h
    · cases h
    · split at h
      · cases h
      · split at h <;> cases h
        · exact .raised _ _
        · exact .delivered _ _
  · cases h
    exact .idle _

theorem fbhStep_takes {s t : State} (h : fbhStep s = .next t) : s.Takes .fbh t := by
  unfold fbhStep at h
  split at h
  · cases h
    exact .returned
  · split at h <;> cases h
    · exact .entered ‹_›
    · exact .idle _

theorem producerStep_takes {z : ElemSize} {a v : Word} {s t : State} (h : producerStep z a v s = .next t) :
    s.Takes (.producer z a v) t := by
  unfold producerStep at h
  split at h <;> cases h
  rename_i hin
  exact .produced hin.2

/-- A step of an agent that answers a next state made one of the agent's moves. -/
theorem agentStep_takes {e : Event} {s t : State} (h : agentStep e s = .next t) : s.Takes e t := by
  cases e with
  | host access => exact hostStep_takes h
  | cmd => exact cmdStep_takes h
  | pix => exact pixStep_takes h
  | fbh => exact fbhStep_takes h
  | producer z a v => exact producerStep_takes h

end Sys2Proof.Machine
end

section
/-! SUPPORT. The invariant is kept by every move of every agent (`10_state.md` R27, R53; `44_ring_sequencer.md` R235). -/

namespace Sys2Proof.Machine

/-! ### What the invariant depends on -/

/-- The invariant says nothing of `STATUS.ERR`, `FAULT`, the latches, the query registers, the log, and the model's own
fields. -/
theorem State.Inv.congr {s t : State} (hi : s.Inv)
    (h : t = { s with
      err := t.err, faults := t.faults, args := t.args, tq := t.tq, eq := t.eq, envlog := t.envlog
      events := t.events, allocs := t.allocs, claims := t.claims, drawn := t.drawn, readData := t.readData }) :
    t.Inv := by
  rw [h]
  obtain ⟨hc, hr, hq, hn | ⟨g, hb, hbu | ⟨k, hp⟩⟩⟩ := hi
  · exact ⟨hc, ⟨hr.canonical, hr.inside⟩, hq, .inl { hn with }⟩
  · exact ⟨hc, ⟨hr.canonical, hr.inside⟩, hq, .inr ⟨g, { hb with }, .inl { hbu with }⟩⟩
  · exact ⟨hc, ⟨hr.canonical, hr.inside⟩, hq, .inr ⟨g, { hb with }, .inr ⟨k, { hp with }⟩⟩⟩

/-- Without a session the invariant leaves one case. -/
theorem State.Inv.noSession {s : State} (hi : s.Inv) (h : s.sesState = .none) : s.NoSession := by
  obtain ⟨-, -, -, hn | ⟨g, -, hbu | ⟨k, hp⟩⟩⟩ := hi
  · exact hn
  · rw [hbu.state] at h; cases h
  · rw [hp.state] at h; cases h

theorem State.Inv.bound {s : State} (hi : s.Inv) (h : s.sesState ≠ .none) :
    ∃ g, s.Bound g ∧ (s.Built ∨ ∃ k, s.Playing g k) :=
  hi.session.resolve_left fun hn => h hn.state

/-- Outside playback the interrupt state, the trigger and the busy bit are 0. -/
theorem State.Inv.quiet_or_playing {s : State} (hi : s.Inv) :
    (s.irq = Irq.zero ∧ s.cmd.trig = false ∧ s.pix.busy = false) ∨ ∃ g k, s.Bound g ∧ s.Playing g k := by
  obtain ⟨-, -, -, hn | ⟨g, hb, hbu | ⟨k, hp⟩⟩⟩ := hi
  · exact .inl ⟨hn.irq, by rw [hn.cmd]; rfl, by rw [hn.pix]; rfl⟩
  · exact .inl ⟨hbu.irq, hbu.trig, by rw [hbu.pix]⟩
  · exact .inr ⟨g, k, hb, hp⟩

/-- A playing session after a move that keeps the configuration, RAM and the queue. -/
theorem State.Inv.playing {s t : State} (hi : s.Inv) {g : Geometry} {k : Nat} (hcfg : t.cfg = s.cfg) (hram : t.ram = s.ram)
    (hencq : t.encq = s.encq) (h : t.Bound g ∧ t.Playing g k) : t.Inv where
  config := hcfg ▸ hi.config
  ram := ⟨hram ▸ hi.ram.canonical, hram ▸ hcfg ▸ hi.ram.inside⟩
  queue := by
    unfold State.QueueOk
    rw [hencq]
    exact hi.queue
  session := .inr ⟨g, h.1, .inr ⟨k, h.2⟩⟩

/-! ### The handler and the reload action -/

/-- The handler's return puts a playing session at the start of its program, whatever transfer is in flight (R232, R234). -/
theorem State.Playing.fbhReturn {s : State} {g : Geometry} {k : Nat} (hb : s.Bound g) (hp : s.Playing g k) :
    s.fbhReturn.Bound g ∧ s.fbhReturn.Playing g 0 := by
  simp only [State.fbhReturn, State.reloadAction_active s hp.activeRef]
  refine ⟨{ hb with }, ?_⟩
  exact
    { hp with
      pc := by simp
      inFrame := Nat.zero_le _
      moving := .inl rfl
      trig := fun _ => Nat.zero_le _
      busy := fun _ => Nat.zero_le _
      pending := fun h => absurd h (by simp)
      reloading := fun h => absurd h (by simp) }

/-- With the handler armed, its return is the reload action. -/
theorem State.fbhReturn_of_armed {s : State} (h : s.irq.fbh = .armed) : s.fbhReturn = s.reloadAction := by
  unfold State.fbhReturn State.reloadAction
  split <;> simp [← h]

theorem State.Inv.fbhReturn {s : State} (hi : s.Inv) : s.fbhReturn.Inv := by
  rcases hi.quiet_or_playing with ⟨hirq, -, -⟩ | ⟨g, k, hb, hp⟩
  · rw [State.fbhReturn_of_armed (by rw [hirq]; rfl), State.reloadAction_absent s (by rw [hirq]; rfl)]
    exact hi
  · exact hi.playing (by simp) (by simp) (by simp) (hp.fbhReturn hb)

theorem State.Inv.fbhEnter {s : State} (hi : s.Inv) (hready : s.fbhEntryReady = true) : s.fbhEnter.Inv := by
  have hpend : s.irq.pending = true := by
    simp only [State.fbhEntryReady, Bool.and_eq_true] at hready
    exact hready.1.1
  rcases hi.quiet_or_playing with ⟨hirq, -, -⟩ | ⟨g, k, hb, hp⟩
  · rw [hirq] at hpend
    cases hpend
  · exact hi.playing rfl rfl rfl (k := k) ⟨{ hb with }, { hp with reloading := fun _ => hpend }⟩

/-! ### The commands -/

theorem State.Inv.start {s : State} (hi : s.Inv) (h : s.sesState = .built) : s.startPlayback.Inv := by
  obtain ⟨g, hb, hbu | ⟨k, hp⟩⟩ := hi.bound (by simp [h])
  · exact hi.playing rfl rfl rfl (hb.start hbu)
  · rw [hp.state] at h; cases h

/-- STOP leaves no session, and no region of the environment's (R203). -/
theorem State.Inv.stop {s : State} (hi : s.Inv) (h : s.sesState ≠ .none) : s.giveBack.clearSession.Inv := by
  obtain ⟨g, hb, -⟩ := hi.bound h
  have hne : s.fbRegion ≠ s.progRegion := by
    have hpos := hb.of.fbWordsPos
    have hdis := Region.disjoint_iff.mp hb.disjoint
    intro he
    rw [← he, hb.fbRegion_eq hi.config] at hdis
    dsimp only at hdis
    omega
  refine ⟨hi.config, ⟨hi.ram.canonical, hi.ram.inside⟩, hi.queue, .inl ⟨rfl, rfl, rfl, rfl, rfl, rfl, ?_⟩⟩
  show (s.live.erase s.progRegion).erase s.fbRegion = []
  rw [hb.live]
  simp [hne]

theorem State.Inv.construct {s t : State} (hi : s.Inv) {g : Geometry} {fb prog : Word} {a b : BitVec 4}
    (h : s.Constructed t g fb prog a b) : t.Inv := by
  obtain ⟨hb, hbu, hr⟩ := State.Constructed.inv hi.config (hi.noSession h.idle) hi.ram h
  have hcfg : t.cfg = s.cfg := by rw [h.result]; rfl
  have hencq : t.encq = s.encq := by rw [h.result]; rfl
  refine ⟨hcfg ▸ hi.config, hr, ?_, .inr ⟨g, hb, .inl hbu⟩⟩
  unfold State.QueueOk
  rw [hencq]
  exact hi.queue

/-- A command keeps the invariant. The handler is armed, or RELOAD would leave it reloading with nothing pending. -/
theorem State.Inv.command {s t : State} (hi : s.Inv) (armed : s.irq.fbh = .armed) {v : Word} {i : Instr}
    (hv : decodeH v = .ok i) (h : exec i s = .next t) : t.Inv := by
  cases exec_runs h with
  | coded hcode code => exact hi.congr rfl
  | raised i b => exact hi.congr rfl
  | failed hf =>
    obtain ⟨-, -, hf, -⟩ := hf
    refine hi.congr ?_
    rw [hf]
  | constructed hc => exact hi.construct hc
  | started hs => exact (hi.start hs).congr rfl
  | stopped hs => exact (hi.stop hs).congr rfl
  | reloaded => exact State.fbhReturn_of_armed armed ▸ hi.fbhReturn
  | timed q => exact hi.congr rfl
  | calculated q => exact hi.congr rfl
  | loaded hf p pending => exact absurd (decodeH_format hv) hf

/-! ### The channels and the producer -/

theorem State.Inv.cmdStep {s t : State} (hi : s.Inv) (h : cmdStep s = .next t) : t.Inv := by
  by_cases htrig : s.cmd.trig = true
  · rcases hi.quiet_or_playing with ⟨-, hno, -⟩ | ⟨g, k, hb, hp⟩
    · rw [hno] at htrig
      cases htrig
    · cases hbusy : s.pix.busy with
      | true =>
        simp only [Machine.cmdStep, State.cmdReady, hb.enabled, htrig, hbusy, Bool.and_self, if_true] at h
        cases h
        exact hi.congr rfl
      | false =>
        have hk := hp.trig htrig
        rw [hp.cmdStep hi.config hb htrig hbusy] at h
        cases h
        split
        · exact hi.playing rfl rfl rfl (hp.loadLine hi.config hb htrig ‹_›)
        · exact hi.playing rfl rfl rfl (hp.loadTerminal hb (by omega))
  · simp only [Machine.cmdStep, State.cmdReady, htrig, Bool.and_false, Bool.false_eq_true, if_false] at h
    cases h
    exact hi

theorem State.Inv.pixStep {s t : State} (hi : s.Inv) (h : pixStep s = .next t) : t.Inv := by
  by_cases hbusy : s.pix.busy = true
  · rcases hi.quiet_or_playing with ⟨-, -, hno⟩ | ⟨g, k, hb, hp⟩
    · rw [hno] at hbusy
      cases hbusy
    · obtain ⟨z, v, hz, -, -, hv, hstep⟩ := hp.pixStep hi.config hb hbusy
      rw [hstep] at h
      cases h
      obtain ⟨hb', hp'⟩ := hp.deliver hi.config hb hbusy hz v
      refine ⟨by simpa using hi.config, ⟨by simpa using hi.ram.canonical, by simpa using hi.ram.inside⟩, ?_,
        .inr ⟨g, hb', .inr ⟨k, hp'⟩⟩⟩
      intro r hr
      rw [State.deliver_encq, List.mem_append, List.mem_singleton] at hr
      rcases hr with hr | rfl
      · exact hi.queue r hr
      · exact hv
  · rw [Machine.pixStep, if_neg hbusy] at h
    cases h
    exact hi

/-- A write inside the framebuffer leaves every byte of the program (R53, R78). -/
theorem State.Bound.program_of_framebuffer_write {s : State} {g : Geometry} (hb : s.Bound g) (hr : s.RamOk) {a n v : Nat}
    (h : s.inFramebuffer a n = true) {b : Nat} (hcov : s.progRegion.covers b 1 = true) :
    (s.ram.writeLE a n v).read b = s.ram.read b := by
  obtain ⟨-, hin, -⟩ := State.inFramebuffer_iff.mp h
  have hdis := Region.disjoint_iff.mp hb.disjoint
  have hcov := Region.covers_iff.mp hcov
  dsimp only [State.fbRegion] at hdis
  rw [Memory.read_writeLE hr.canonical, if_neg (by omega)]

theorem State.Inv.produced {s : State} (hi : s.Inv) {a n v : Nat} (h : s.inFramebuffer a n = true) :
    ({ s with ram := s.ram.writeLE a n v } : State).Inv := by
  obtain ⟨hs, -, hram⟩ := State.inFramebuffer_iff.mp h
  obtain ⟨g, hb, hrest⟩ := hi.bound hs
  have hprog : (s.ram.writeLE a n v).wordsAt s.ses.progBase.toNat g.progWords =
      buildProgram s.cfg g s.ses.width.toNat s.ses.fbBase.toNat := by
    rw [← hb.program]
    apply Memory.wordsAt_congr
    intro b h1 h2
    refine hb.program_of_framebuffer_write hi.ram h ?_
    rw [hb.progRegion_eq hi.config]
    exact Region.covers_iff.mpr ⟨h1, h2⟩
  refine ⟨hi.config, ⟨Memory.writeLE_wf hi.ram.canonical a n v, ?_⟩, hi.queue, .inr ⟨g, { hb with program := hprog }, ?_⟩⟩
  · intro c hc
    rcases Memory.mem_writeLE hc with hc | hc
    · show inRam s.cfg c.1 1 = true
      exact inRam_iff.mpr (by omega)
    · exact hi.ram.inside c hc
  · rcases hrest with hbu | ⟨k, hp⟩
    · exact .inl { hbu with }
    · exact .inr ⟨k, { hp with }⟩

/-! ### Every step -/

/-- Every agent keeps the invariant. -/
theorem State.Inv.agentStep {e : Event} {s t : State} (hi : s.Inv) (h : agentStep e s = .next t) : t.Inv := by
  cases agentStep_takes h with
  | idle e => exact hi
  | raised e b => exact hi.congr rfl
  | hostRead access v => exact hi.congr rfl
  | hostBadRead access => exact hi.congr rfl
  | hostLatch access args => exact hi.congr rfl
  | command armed ha hv he => exact hi.command armed hv he
  | descriptor hf hw he => exact hi.cmdStep h
  | delivered z v => exact hi.pixStep h
  | entered hready => exact hi.fbhEnter hready
  | returned => exact hi.fbhReturn
  | produced hin => exact hi.produced hin

theorem State.Inv.takeEvent {s : State} (hi : s.Inv) : s.takeEvent.2.Inv :=
  hi.congr (by rw [State.takeEvent_frame])

/-- A step that answers a next state is the step of the next event's agent, with the event used up. -/
theorem step_next {s t : State} (h : step s = .next t) :
    s.faults = FaultBits.clear ∧ agentStep s.takeEvent.1 s.takeEvent.2 = .next t := by
  unfold step at h
  split at h
  · cases h
  · exact ⟨FaultBits.lowest_eq_none.mp ‹_›, h⟩

/-- Settles O52: every agent's moves, with the commands and the two channels told apart by the point of the cycle. -/
theorem stepKeepsTheInvariant : Obligations.StepKeepsTheInvariant := by
  intro s t hi h
  exact hi.takeEvent.agentStep (step_next h).2

end Sys2Proof.Machine
end

section
/-! SUPPORT. Which step moves what: `SES_STATE` (`10_state.md` R55), the program counter (`44_ring_sequencer.md` R239), `FAULT` (`60_exceptions.md`
R257), and the session's registers and program (`42_program_builder.md` R185). -/

namespace Sys2Proof.Machine

/-! ### `SES_STATE` -/

theorem State.Constructed.sesState {s t : State} {g : Geometry} {fb prog : Word} {a b : BitVec 4}
    (h : s.Constructed t g fb prog a b) : t.sesState = .built := by
  rw [h.result]; rfl

theorem State.Constructed.err {s t : State} {g : Geometry} {fb prog : Word} {a b : BitVec 4}
    (h : s.Constructed t g fb prog a b) : t.err = .ok := by
  rw [h.result]; rfl

theorem State.FailedConstruct.frame {s t : State} (h : s.FailedConstruct t) :
    t = { s with err := t.err, envlog := t.envlog, allocs := t.allocs, claims := t.claims, drawn := t.drawn } :=
  h.2.2.1

/-- The paths of R55. -/
theorem State.Runs.sesState {i : Instr} {s t : State} (h : s.Runs i t) :
    t.sesState = s.sesState ∨
    (i = .construct ∧ s.sesState = .none ∧ t.sesState = .built ∧ t.err = .ok) ∨
    (i = .start ∧ s.sesState = .built ∧ t.sesState = .running ∧ t.err = .ok) ∨
    (i = .stop ∧ s.sesState ≠ .none ∧ t.sesState = .none ∧ t.err = .ok) := by
  cases h with
  | coded | raised | timed | calculated | loaded => exact .inl rfl
  | failed h => exact .inl (by rw [h.frame])
  | reloaded => exact .inl (by simp)
  | constructed h => exact .inr (.inl ⟨rfl, h.idle, h.sesState, h.err⟩)
  | started h => exact .inr (.inr (.inl ⟨rfl, h, rfl, rfl⟩))
  | stopped h => exact .inr (.inr (.inr ⟨rfl, h, rfl, rfl⟩))

theorem execConstruct_ok {s t : State} (h : execConstruct s = .next t) (hok : t.err = .ok) :
    s.sesState = .none ∧ t.sesState = .built := by
  obtain ⟨u, hu, hfail | ⟨g, fb, prog, a, b, hc⟩⟩ := execConstruct_cases s <;> rw [hu] at h <;> cases h
  · exact absurd hok hfail.1
  · exact ⟨hc.idle, hc.sesState⟩

theorem execStart_built {s : State} (h : s.sesState = .built) : execStart s = returnErr .ok s.startPlayback := by
  unfold execStart
  rw [h]

theorem execStop_none {s t : State} (h : execStop s = .next t) : t.sesState = .none := by
  unfold execStop at h
  split at h <;> cases h
  · rfl
  · simpa [State.hasSession] using ‹¬ s.hasSession = true›

/-- A descriptor, like any agent's move but a command, leaves `SES_STATE`. -/
theorem State.Takes.sesState {e : Event} {s t : State} (h : s.Takes e t) (hne : t.sesState ≠ s.sesState) :
    ∃ a v i, e = .host (.write .word a v) ∧ a.toNat = s.cfg.vtgBase ∧ decodeH v = .ok i ∧ exec i s = .next t := by
  cases h with
  | command armed ha hv h => exact ⟨_, _, _, rfl, ha, hv, h⟩
  | descriptor hf hw h =>
    obtain ⟨b, rfl⟩ | ⟨p, pending, rfl⟩ := (exec_runs h).of_descriptor hf <;> exact absurd rfl hne
  | delivered z v => exact absurd (by simp) hne
  | returned => exact absurd (by simp) hne
  | idle | raised | hostRead | hostBadRead | hostLatch | entered | produced => exact absurd rfl hne

theorem State.Inv.activeRef_iff {s : State} (hi : s.Inv) : s.irq.activeRef = true ↔ s.sesState = .running := by
  obtain ⟨-, -, -, hn | ⟨g, -, hbu | ⟨k, hp⟩⟩⟩ := hi
  · simp [hn.irq, hn.state, Irq.zero]
  · simp [hbu.irq, hbu.state, Irq.zero]
  · simp [hp.activeRef, hp.state]

/-- Settles O34: the moves of the instructions and of the agents, and `ACTIVE_REF` by the cases of the invariant. -/
theorem sessionStateMoves : Obligations.SessionStateMoves :=
  ⟨fun _ _ _ h => (exec_runs h).sesState,
    fun _ _ h hok => execConstruct_ok h hok,
    fun s t h hb => by
      rw [show exec .start s = execStart s from rfl, execStart_built hb] at h
      cases h
      rfl,
    fun _ _ h => execStop_none h,
    fun _ _ _ h hne => (agentStep_takes h).sesState hne,
    fun _ hi => ⟨hi.activeRef_iff, State.hasSession_iff⟩⟩

/-! ### The program counter -/

theorem State.reloadAction_rptr (s : State) :
    s.reloadAction.cmd.rptr = s.cmd.rptr ∨ s.reloadAction.cmd.rptr = s.ses.progBase := by
  cases h : s.irq.activeRef with
  | true => rw [State.reloadAction_active s h]; exact .inr rfl
  | false => rw [State.reloadAction_absent s h]; exact .inl rfl

/-- How an instruction moves the program counter (R239). -/
theorem State.Runs.rptr {i : Instr} {s t : State} (h : s.Runs i t) :
    t.cmd.rptr = s.cmd.rptr ∨
    (i.format ≠ .H ∧ t.cmd.rptr = s.cmd.rptr + BitVec.ofNat 32 (4 * formatWords i.format)) ∨
    ((i = .start ∨ i = .reload) ∧ t.cmd.rptr = s.ses.progBase) ∨
    (i = .stop ∧ t.cmd.rptr = 0#32 ∧ t.sesState = .none) := by
  cases h with
  | coded | raised | timed | calculated => exact .inl rfl
  | failed h => exact .inl (by rw [h.frame])
  | constructed h => exact .inl (by rw [h.result]; rfl)
  | loaded hf p pending => exact .inr (.inl ⟨hf, rfl⟩)
  | started h => exact .inr (.inr (.inl ⟨.inl rfl, rfl⟩))
  | reloaded => exact s.reloadAction_rptr.imp_right fun h => .inr (.inl ⟨.inr rfl, h⟩)
  | stopped h => exact .inr (.inr (.inr ⟨rfl, rfl, rfl⟩))

/-- The words that decode to the three commands that move the program counter (R101). -/
theorem decodeH_eq_start {v : Word} (h : decodeH v = .ok .start) : v = 2#32 := by
  simpa using decodeH_ok h

theorem decodeH_eq_stop {v : Word} (h : decodeH v = .ok .stop) : v = 3#32 := by
  simpa using decodeH_ok h

theorem decodeH_eq_reload {v : Word} (h : decodeH v = .ok .reload) : v = 4#32 := by
  simpa using decodeH_ok h

/-- Settles O48: only a command, a descriptor and the handler's return move the pointer, and each as R239 says. -/
theorem programCounterMoves : Obligations.ProgramCounterMoves := by
  intro e s t h hne
  cases agentStep_takes h with
  | command armed ha hv he =>
    rcases (exec_runs he).rptr with hr | ⟨hf, -⟩ | ⟨rfl | rfl, hr⟩ | ⟨rfl, hr, hn⟩
    · exact absurd hr hne
    · exact absurd (decodeH_format hv) hf
    · exact .inr (.inr (.inl ⟨_, by rw [decodeH_eq_start hv], ha, hr⟩))
    · exact .inr (.inr (.inr (.inl ⟨_, by rw [decodeH_eq_reload hv], ha, hr⟩)))
    · exact .inr (.inr (.inr (.inr ⟨_, by rw [decodeH_eq_stop hv], ha, hr, hn⟩)))
  | descriptor hf hw he =>
    obtain ⟨b, rfl⟩ | ⟨p, pending, rfl⟩ := (exec_runs he).of_descriptor hf
    · exact absurd rfl hne
    · refine .inl ⟨rfl, ?_⟩
      rw [hw, ← BitVec.ofNat_mul]
      rfl
  | delivered z v =>
    refine absurd ?_ hne
    simp only [State.deliver]
    split <;> rfl
  | returned => exact .inr (.inl ⟨rfl, (s.reloadAction_rptr).resolve_left (by simpa using hne)⟩)
  | idle | raised | hostRead | hostBadRead | hostLatch | entered | produced => exact absurd rfl hne

/-! ### `FAULT` -/

/-- A bit that is set already changes nothing. -/
theorem FaultBits.set_of_get {f : FaultBits} {b : FaultBit} (h : f.get b = true) : f.set b = f := by
  cases b <;> simp only [FaultBits.get] at h <;> simp only [FaultBits.set, ← h]

/-- One bit of `FAULT` is set and nothing else changes, but that a refused host read returns 0 (R40, R257; log 6). -/
def State.OneFault (s t : State) : Prop :=
  ∃ b, t = { s with faults := s.faults.set b, readData := t.readData } ∧
    (t.readData ≠ s.readData → b = .badAccess ∧ t.readData = 0#32)

theorem State.oneFault_raised (s : State) (b : FaultBit) : s.OneFault { s with faults := s.faults.set b } :=
  ⟨b, rfl, fun hne => absurd rfl hne⟩

theorem State.Runs.faults {i : Instr} {s t : State} (h : s.Runs i t) : t.faults = s.faults ∨ s.OneFault t := by
  cases h with
  | raised i b => exact .inr (s.oneFault_raised b)
  | failed h => exact .inl (by rw [h.frame])
  | constructed h => exact .inl (by rw [h.result]; rfl)
  | reloaded => exact .inl (by simp)
  | coded | started | stopped | timed | calculated | loaded => exact .inl rfl

theorem State.Takes.faults {e : Event} {s t : State} (h : s.Takes e t) : t.faults = s.faults ∨ s.OneFault t := by
  cases h with
  | raised e b => exact .inr (s.oneFault_raised b)
  | hostBadRead access => exact .inr ⟨.badAccess, rfl, fun _ => ⟨rfl, rfl⟩⟩
  | command armed ha hv hi => exact (exec_runs hi).faults
  | descriptor hf hw hi => exact (exec_runs hi).faults
  | delivered z v => exact .inl (by simp)
  | returned => exact .inl (by simp)
  | idle | hostRead | hostLatch | entered | produced => exact .inl rfl

/-- Every instruction answers a next state (log 5). -/
theorem exec_next (i : Instr) (s : State) : ∃ t, exec i s = .next t := by
  cases i with
  | construct =>
    obtain ⟨t, ht, -⟩ := execConstruct_cases s
    exact ⟨t, ht⟩
  | start =>
    show ∃ t, execStart s = .next t
    unfold execStart
    split <;> exact ⟨_, rfl⟩
  | stop =>
    show ∃ t, execStop s = .next t
    unfold execStop
    split <;> exact ⟨_, rfl⟩
  | reload => exact ⟨_, rfl⟩
  | timing =>
    show ∃ t, execTiming s = .next t
    unfold execTiming
    split <;> exact ⟨_, rfl⟩
  | enccalc =>
    show ∃ t, execEnccalc s = .next t
    unfold execEnccalc
    split <;> exact ⟨_, rfl⟩
  | xferS | termS | xferL | termL => exact loadDescriptor_next _ _ s

theorem exec_ne_fault (i : Instr) (s : State) (r : Fault) : exec i s ≠ .fault r := by
  obtain ⟨t, ht⟩ := exec_next i s
  rw [ht]
  exact fun h => nomatch h

/-- The command channel never stops by a fault of its own. -/
theorem cmdStep_ne_fault (s : State) (r : Fault) : cmdStep s ≠ .fault r := by
  intro h
  unfold cmdStep at h
  split at h
  · split at h
    · cases h
    · unfold runDescriptor at h
      split at h
      · split at h
        · exact exec_ne_fault _ s r h
        · cases h
      · split at h
        · split at h
          · split at h
            · exact exec_ne_fault _ s r h
            · cases h
          · cases h
        · cases h
  · cases h

/-- A host access stops by a fault only at an address of the wrong kind (log 7). -/
theorem hostStep_fault {access : HostAccess} {s : State} {r : Fault} (h : hostStep access s = .fault r) :
    r = .hostUnmapped ∨ r = .hostMisaligned := by
  unfold hostStep at h
  split at h
  · cases h
  cases access with
  | read z a =>
    dsimp only at h
    split at h
    · unfold hostReadReg at h
      split at h
      · split at h <;> cases h
      · cases h
    · split at h
      · unfold hostReadRam at h
        split at h
        · cases h
          exact .inr rfl
        · split at h <;> cases h
      · cases h
        exact .inl rfl
  | write z a v =>
    dsimp only at h
    split at h
    · unfold hostWriteReg at h
      split at h
      · split at h
        · unfold hostCommand at h
          split at h
          · exact absurd h (exec_ne_fault _ s r)
          · cases h
        · split at h <;> cases h
      · cases h
    · split at h <;> cases h
      exact .inl rfl

/-- Only `step` itself answers the outcome fault of a latched bit. -/
theorem agentStep_ne_latched (e : Event) (s : State) (b : FaultBit) : agentStep e s ≠ .fault (.latched b) := by
  intro h
  cases e with
  | host access => rcases hostStep_fault h with hr | hr <;> cases hr
  | cmd => exact cmdStep_ne_fault s _ h
  | pix =>
    change pixStep s = _ at h
    unfold pixStep at h
    split at h
    · split at h
      · cases h
      · split at h
        · cases h
        · split at h <;> cases h
    · cases h
  | fbh =>
    change fbhStep s = _ at h
    unfold fbhStep at h
    split at h
    · cases h
    · split at h <;> cases h
  | producer z a v =>
    change producerStep z a v s = _ at h
    unfold producerStep at h
    split at h <;> cases h

theorem step_of_fault {s : State} (h : s.faults ≠ FaultBits.clear) :
    ∃ b, step s = .fault (.latched b) ∧ s.faults.get b = true := by
  obtain ⟨b, hb, hget⟩ := FaultBits.lowest_isSome h
  exact ⟨b, by simp [step, hb], hget⟩

/-- Settles O50: the moves of the agents on `FAULT`, and the step from a state whose `FAULT` is not 0. -/
theorem faultsAreStickyAndFinal : Obligations.FaultsAreStickyAndFinal := by
  refine ⟨fun e s t h => ?_, fun s hs => step_of_fault hs, fun s b h => ?_⟩
  · obtain hf | ⟨b, ht, hread⟩ := (agentStep_takes h).faults
    · exact ⟨fun b hb => hf ▸ hb, fun hne => absurd hf hne⟩
    · have hset : t.faults = s.faults.set b := by rw [ht]
      refine ⟨fun c hc => ?_, fun hne => ⟨b, ?_, ht, hread⟩⟩
      · rw [hset, FaultBits.get_set, hc, Bool.or_true]
      · rw [hset] at hne
        exact Bool.eq_false_iff.mpr fun hb => hne (FaultBits.set_of_get hb)
  · by_cases hs : s.faults = FaultBits.clear
    · rw [step_of_noFault hs] at h
      exact absurd h (agentStep_ne_latched _ _ b)
    · obtain ⟨c, hc, hget⟩ := step_of_fault hs
      rw [hc] at h
      cases h
      exact hget

/-! ### The session while it lasts -/

/-- The session registers, the live regions and every byte of the program region are as they were (R185). -/
def State.KeepsSession (s t : State) : Prop :=
  t.ses = s.ses ∧ t.live = s.live ∧ ∀ a, s.progRegion.covers a 1 = true → t.ram.read a = s.ram.read a

theorem State.keepsSession_of_eq {s t : State} (hses : t.ses = s.ses) (hlive : t.live = s.live) (hram : t.ram = s.ram) :
    s.KeepsSession t :=
  ⟨hses, hlive, fun a _ => by rw [hram]⟩

/-- An instruction that begins and ends with a session writes none of it. -/
theorem State.Runs.keepsSession {i : Instr} {s t : State} (h : s.Runs i t) (hs : s.sesState ≠ .none)
    (ht : t.sesState ≠ .none) : s.KeepsSession t := by
  cases h with
  | coded | raised | started | timed | calculated | loaded => exact State.keepsSession_of_eq rfl rfl rfl
  | failed h => exact State.keepsSession_of_eq (by rw [h.frame]) (by rw [h.frame]) (by rw [h.frame])
  | constructed h => exact absurd h.idle hs
  | stopped h => exact absurd rfl ht
  | reloaded => exact State.keepsSession_of_eq (by simp) (by simp) (by simp)

/-- A move of any agent that begins and ends with a session keeps it; the producer's, because the two regions are disjoint. -/
theorem State.Inv.keepsSession {e : Event} {s t : State} (hi : s.Inv) (h : Machine.agentStep e s = .next t)
    (hs : s.sesState ≠ .none) (ht : t.sesState ≠ .none) : s.KeepsSession t := by
  cases agentStep_takes h with
  | command armed ha hv he => exact (exec_runs he).keepsSession hs ht
  | descriptor hf hw he => exact (exec_runs he).keepsSession hs ht
  | produced hin =>
    obtain ⟨g, hb, -⟩ := hi.bound hs
    exact ⟨rfl, rfl, fun a ha => hb.program_of_framebuffer_write hi.ram hin ha⟩
  | delivered z v => exact State.keepsSession_of_eq (by simp) (by simp) (by simp)
  | returned => exact State.keepsSession_of_eq (by simp) (by simp) (by simp)
  | idle | raised | hostRead | hostBadRead | hostLatch | entered => exact State.keepsSession_of_eq rfl rfl rfl

/-- Settles O54: the producer writes outside the program, and no other move of a lasting session writes RAM. -/
theorem sessionIsImmutable : Obligations.SessionIsImmutable := by
  intro s t hi h hs ht
  have hk := hi.takeEvent.keepsSession (step_next h).2
  rw [State.takeEvent_frame] at hk
  exact hk hs ht

end Sys2Proof.Machine
end

section
/-! SUPPORT. What the invariant says of the registers (`10_state.md` R27, R30, R32, R33, R53; `42_program_builder.md` R184, R186), and
that reset meets it (R60). -/

namespace Sys2Proof.Machine

/-! ### The words of a bound session -/

/-- The fields of `CH_IDS` (R27): the two handles, the bit that says they are claimed, and nothing above it. -/
theorem chIdsWord_fields (a b : BitVec 4) :
    (chIdsWord a b).extractLsb' 0 4 = a ∧ (chIdsWord a b).extractLsb' 4 4 = b ∧
      (chIdsWord a b).getLsbD 8 = true ∧ (chIdsWord a b).extractLsb' 9 23 = 0#23 := by
  have ha := a.isLt
  have hb := b.isLt
  have hw : (chIdsWord a b).toNat = a.toNat + 16 * b.toNat + 256 := toReg_toNat (by omega)
  refine ⟨?_, ?_, ?_, ?_⟩
  · apply BitVec.eq_of_toNat_eq
    rw [BitVec.extractLsb'_toNat, hw, Nat.shiftRight_eq_div_pow]
    omega
  · apply BitVec.eq_of_toNat_eq
    rw [BitVec.extractLsb'_toNat, hw, Nat.shiftRight_eq_div_pow]
    omega
  · rw [← BitVec.testBit_toNat, hw, Nat.testBit_eq_decide_div_mod_eq]
    simp only [decide_eq_true_eq]
    omega
  · apply BitVec.eq_of_toNat_eq
    rw [BitVec.extractLsb'_toNat, hw, Nat.shiftRight_eq_div_pow, BitVec.toNat_ofNat]
    omega

theorem State.Bound.handles_differ {s : State} {g : Geometry} (hb : s.Bound g) :
    s.ses.chIds.extractLsb' 0 4 ≠ s.ses.chIds.extractLsb' 4 4 ∧ s.ses.chIds.getLsbD 8 = true ∧
      s.ses.chIds.extractLsb' 9 23 = 0#23 := by
  obtain ⟨a, b, hab, h⟩ := hb.handles
  obtain ⟨h1, h2, h3, h4⟩ := chIdsWord_fields a b
  rw [h, h1, h2]
  exact ⟨hab, h3, h4⟩

/-- The channel's configuration word follows the descriptor width (R33). -/
theorem State.Bound.cmdCtrl_cases {s : State} {g : Geometry} (hb : s.Bound g) :
    (g.descw = 2 ∧ s.cmd.ctrl = 0x0000007B#32) ∨ (g.descw = 4 ∧ s.cmd.ctrl = 0x000000BB#32) := by
  have hc := hb.cmdCtrl
  rcases hb.of.descw_cases with ⟨-, hd⟩ | ⟨-, hd⟩ <;> rw [hd] at hc
  · exact .inl ⟨hd, hc⟩
  · exact .inr ⟨hd, hc⟩

/-- The two regions of a session (R53). -/
theorem State.Bound.regions {s : State} {g : Geometry} (hc : s.cfg.Admissible) (hb : s.Bound g) :
    s.fbRegion ∈ s.live ∧ s.progRegion ∈ s.live ∧ s.fbRegion.disjoint s.progRegion = true ∧
      inRam s.cfg s.fbRegion.base (4 * s.fbRegion.words) = true ∧
      inRam s.cfg s.progRegion.base (4 * s.progRegion.words) = true ∧
      s.fbRegion.base % 4 = 0 ∧ s.progRegion.base % 4 = 0 := by
  refine ⟨by simp [hb.live], by simp [hb.live], hb.disjoint, ?_, ?_, hb.fbAligned, hb.progAligned⟩
  · rw [hb.fbRegion_eq hc]
    exact hb.fbInRam
  · rw [hb.progRegion_eq hc]
    exact hb.progInRam

/-- The sizes of a session (R27, R106, R172). -/
theorem State.Bound.sizes {s : State} {g : Geometry} (hc : s.cfg.Admissible) (hb : s.Bound g) :
    s.ses.fbWords.toNat = s.ses.pitch.toNat * s.ses.height.toNat ∧
      s.ses.width.toNat * s.ses.depth.toNat ≤ 32 * s.ses.pitch.toNat ∧
      (s.ses.descw = 2#32 ∧ s.ses.hscale = 1#32 ∨ s.ses.descw = 4#32 ∧ 2 ≤ s.ses.hscale.toNat) := by
  obtain ⟨-, -, hpitch, -, -, hs1, hs720, -⟩ := hb.of.bounds hc
  have hp : s.ses.pitch.toNat = g.pitch := by rw [hb.pitch, toReg_toNat (by omega)]
  refine ⟨?_, ?_, ?_⟩
  · rw [hb.fbWords, (hb.of.words_toReg hc).1, hp]
    exact hb.of.fbWords
  · rw [hp]
    exact hb.of.rowFits
  · rw [hb.descw, hb.hscale, toReg_toNat (by omega)]
    rcases hb.of.descw_cases with ⟨h1, hd⟩ | ⟨h1, hd⟩ <;> rw [hd]
    · exact .inl ⟨rfl, by rw [h1]; rfl⟩
    · exact .inr ⟨rfl, by omega⟩

/-- The session registers are those of the geometry (R186). -/
theorem State.Bound.ses_eq {s : State} {g : Geometry} (hb : s.Bound g) :
    s.ses =
      { s.ses with
        mode := toReg g.mode.number
        pitch := toReg g.pitch, hscale := toReg g.hScale, vscale := toReg g.vScale
        fbWords := toReg g.fbWords, progWords := toReg g.progWords, descw := toReg g.descw } := by
  rw [← hb.mode, ← hb.pitch, ← hb.hscale, ← hb.vscale, ← hb.fbWords, ← hb.progWords, ← hb.descw]

/-! ### The points of a session -/

theorem State.Bound.enc_eq {s : State} {g : Geometry} (hb : s.Bound g) (hrest : s.Built ∨ ∃ k, s.Playing g k) :
    s.enc =
      { expand := toReg g.enc.expand, shift := toReg g.enc.shift
        en := decide (s.sesState = .running), bswap := g.enc.bswap } := by
  have hen : s.enc.en = decide (s.sesState = .running) := by
    rcases hrest with hbu | ⟨k, hp⟩
    · rw [hbu.encOff, hbu.state]; rfl
    · rw [hp.encOn, hp.state]; rfl
  rw [← hb.encExpand, ← hb.encShift, ← hb.encBswap, ← hen]

/-- The pixel channel's destination and control word (R30, R186). -/
theorem State.session_pix_words {s : State} {g : Geometry} (hrest : s.Built ∨ ∃ k, s.Playing g k) :
    s.pix.waddr = encqAddr s.cfg ∧ (∃ z, s.pix.ctrl = ctrlStd z) ∧ (s.sesState = .built → s.pix.ctrl = ctrlStd .word) := by
  rcases hrest with hbu | ⟨k, hp⟩
  · rw [hbu.pix]
    exact ⟨rfl, ⟨.word, rfl⟩, fun _ => rfl⟩
  · obtain ⟨z, hz, -⟩ := hp.transfer
    refine ⟨hp.waddr, ⟨z, ctrlSize_eq_some.mp hz⟩, fun h => ?_⟩
    rw [hp.state] at h
    cases h

theorem State.Inv.cmdCtrl {s : State} (hi : s.Inv) :
    (s.cmd.ctrl = 0#32 ∨ s.cmd.ctrl = 0x0000007B#32 ∨ s.cmd.ctrl = 0x000000BB#32) ∧
      (s.cmd.ctrl = 0#32 ↔ s.sesState = .none) := by
  by_cases hs : s.sesState = .none
  · have h0 : s.cmd.ctrl = 0#32 := by rw [(hi.noSession hs).cmd]; rfl
    exact ⟨.inl h0, iff_of_true h0 hs⟩
  · obtain ⟨g, hb, -⟩ := hi.bound hs
    rcases hb.cmdCtrl_cases with ⟨-, h⟩ | ⟨-, h⟩ <;> rw [h]
    · exact ⟨.inr (.inl rfl), iff_of_false (by decide) hs⟩
    · exact ⟨.inr (.inr rfl), iff_of_false (by decide) hs⟩

/-- The program counter is a multiple of 4 (R32). -/
theorem State.Inv.rptr_aligned {s : State} (hi : s.Inv) : s.cmd.rptr.toNat % 4 = 0 := by
  obtain ⟨-, -, -, hn | ⟨g, hb, hbu | ⟨k, hp⟩⟩⟩ := hi
  · rw [hn.cmd]; rfl
  · rw [hbu.pc]; rfl
  · have ha := hb.progAligned
    rw [hp.pc, BitVec.toNat_ofNat, Nat.mul_assoc]
    omega

theorem State.Inv.pending_running {s : State} (hi : s.Inv) (h : s.irq.pending = true) :
    s.sesState = .running ∧ s.irq.activeRef = true := by
  rcases hi.quiet_or_playing with ⟨hirq, -, -⟩ | ⟨g, k, -, hp⟩
  · rw [hirq] at h
    cases h
  · exact ⟨hp.state, hp.activeRef⟩

/-- A transfer in flight has an element left (R228). -/
theorem State.Inv.busy_len {s : State} (hi : s.Inv) (h : s.pix.busy = true) : 1 ≤ s.pix.len.toNat := by
  rcases hi.quiet_or_playing with ⟨-, -, hno⟩ | ⟨g, k, -, hp⟩
  · rw [hno] at h
    cases h
  · obtain ⟨z, -, -, htr⟩ := hp.transfer
    have hne := (htr h).1
    bv_omega

/-- Settles O53: the sentences about a session from its geometry, the others from the cases of the invariant. -/
theorem invariantOfTheRegisters : Obligations.InvariantOfTheRegisters := by
  intro s hi
  obtain ⟨hctrl, hctrl0⟩ := hi.cmdCtrl
  refine ⟨fun hs => ⟨(hi.noSession hs).ses, (hi.noSession hs).live⟩, hctrl, hctrl0, hi.rptr_aligned, fun hs => ?_,
    hi.pending_running, hi.busy_len⟩
  obtain ⟨g, hb, hrest⟩ := hi.bound hs
  obtain ⟨hids, hclaimed, hids0⟩ := hb.handles_differ
  obtain ⟨hfb, hprog, hdis, hfbRam, hprogRam, hfbAl, hprogAl⟩ := hb.regions hi.config
  obtain ⟨hwords, hrow, hformat⟩ := hb.sizes hi.config
  obtain ⟨hwaddr, hpctrl, hpbuilt⟩ := State.session_pix_words hrest
  refine ⟨hids, hclaimed, hids0, hfb, hprog, hdis, hfbRam, hprogRam, hfbAl, hprogAl, hwords, hrow, hformat, hwaddr, hpctrl,
    hpbuilt, g, hb.geom, hb.ses_eq, hb.enc_eq hrest, ?_, ?_, hb.program⟩
  · intro h2
    rw [hb.cmdCtrl, h2]
    rfl
  · intro h4
    rw [hb.cmdCtrl, h4]
    rfl

/-! ### Reset -/

/-- Numbers each brought below what the ones before it leave of `n` add up to less than `n`. -/
theorem sum_of_remainders_lt {n : Nat} (h : 0 < n) (x y z : Nat) :
    x % n + y % (n - x % n) + z % (n - x % n - y % (n - x % n)) < n := by
  have hx := Nat.mod_lt x h
  have hy := Nat.mod_lt y (show 0 < n - x % n by omega)
  have hz := Nat.mod_lt z (show 0 < n - x % n - y % (n - x % n) by omega)
  omega

/-- The free timing numbers are inside R9's bounds. -/
theorem Timing.free_admissible (k : Nat) {hActive vActive : Nat} (hh : 1 ≤ hActive ∧ hActive < 65536)
    (hv : 1 ≤ vActive ∧ vActive < 65536) : (Timing.free k hActive vActive).Admissible where
  hActivePos := hh.1
  vActivePos := hv.1
  hFrontPorchFits := Nat.mod_lt _ (by decide)
  hSyncWidthFits := Nat.mod_lt _ (by decide)
  hRestFits := by
    have := Nat.mod_lt (Config.freeTiming (k + 2)) (show 0 < 65536 - hActive by omega)
    simp only [Timing.free]
    omega
  vTotalFits := by
    have := sum_of_remainders_lt (show 0 < 65536 - vActive by omega) (Config.freeTiming (k + 3))
      (Config.freeTiming (k + 4)) (Config.freeTiming (k + 5))
    simp only [Timing.free, Timing.vTotal]
    omega

/-- The free lane widths are in 1..31 (R153). -/
theorem Expansion.free_admissible (k : Nat) : (Expansion.free k).Admissible := by
  have hwidth : ∀ x, BitVec.ofNat 5 (1 + x % 31) ≠ 0#5 := by
    intro x h
    have := congrArg BitVec.toNat h
    simp only [BitVec.toNat_ofNat] at this
    omega
  exact ⟨hwidth _, hwidth _, hwidth _⟩

theorem Config.reset_admissible : Config.reset.Admissible where
  hActive0 := rfl
  vActive0 := rfl
  hActive1 := rfl
  vActive1 := rfl
  timing0 := Timing.free_admissible 0 (by decide) (by decide)
  timing1 := Timing.free_admissible 6 (by decide) (by decide)
  lanes4 := Expansion.free_admissible 0
  lanes8 := Expansion.free_admissible 6
  lanes16 := Expansion.free_admissible 12
  lanes32 := Expansion.free_admissible 18
  vtgAligned := by decide
  vtgFits := by decide
  memBaseAligned := by decide
  memSizeAligned := by decide
  memFits := by decide
  disjoint := by decide

theorem State.resetWith_good {c : Config} {ram : Memory} (hc : c.Admissible) (hwf : ram.wf)
    (hin : ∀ x ∈ ram, inRam c x.1 1 = true) : (State.resetWith c ram).Good where
  inv := ⟨hc, ⟨hwf, hin⟩, fun _ hr => absurd hr (List.not_mem_nil), .inl ⟨rfl, rfl, rfl, rfl, rfl, rfl, rfl⟩⟩
  noFault := rfl
  noCollision := fun _ => rfl

/-- Settles O2: reset leaves no session, and the free values of the model's own configuration are inside their bounds. -/
theorem resetIsGood : Obligations.ResetIsGood :=
  ⟨Config.reset_admissible,
    State.resetWith_good Config.reset_admissible ⟨List.Pairwise.nil, fun _ h => absurd h List.not_mem_nil⟩
      (fun _ h => absurd h List.not_mem_nil),
    fun _ _ hc hwf hin => State.resetWith_good hc hwf hin⟩

end Sys2Proof.Machine
end

section
/-! SUPPORT. The register file as the host sees it (`10_state.md` R21 to R26, R38 to R40), the fields of its flag registers and of the
encoder's words (R24, R25, R31, R34 to R36; `41_encoder_calc.md` R154, R157), and a step as the run of what decodes. -/

namespace Sys2Proof.Machine

/-! ### The register map -/

/-- The registers lie below the pattern window, at multiples of 4 (R22). -/
theorem regAt_some {off : Nat} {r : Reg} (h : regAt off = some r) : off < 0x100 ∧ off % 4 = 0 := by
  unfold regAt at h
  split at h
  case h_48 => cases h
  all_goals decide

theorem regAt_of_ge {off : Nat} (h : 0x100 ≤ off) : regAt off = none := by
  cases hr : regAt off with
  | none => rfl
  | some r =>
    have := (regAt_some hr).1
    omega

/-- `COMMAND` is the write-only register, and it reads as 0 (R23, R40). -/
theorem readReg_of_wo (s : State) {r : Reg} (h : r.access = .wo) : readReg s r = 0#32 := by
  cases r
  case command => rfl
  all_goals cases h

theorem readOffset_reg (s : State) {off : Nat} {r : Reg} (hr : regAt off = some r) (ha : r.access ≠ .noAccess) :
    readOffset s off = some (readReg s r) := by
  have hlt := (regAt_some hr).1
  unfold readOffset
  rw [if_neg (by omega), hr]
  cases h : r.access with
  | rw => simp only [h]
  | ro => simp only [h]
  | wo => simp only [h, readReg_of_wo s h]
  | noAccess => exact absurd h ha

theorem readOffset_pattern (s : State) {off : Nat} (h : off < 0x40) :
    readOffset s (0x100 + off) = some (toReg (patternAt s.cfg off)) := by
  unfold readOffset
  rw [if_pos (by omega), Nat.add_sub_cancel_left]

/-- The reads that break R39 or R40: the queue port, and an offset with no register that is not the pattern window's. -/
theorem readOffset_none (s : State) {off : Nat}
    (h : regAt off = some .encq ∨ (regAt off = none ∧ ¬ (0x100 ≤ off ∧ off < 0x140))) : readOffset s off = none := by
  unfold readOffset
  rcases h with h | ⟨h, hw⟩
  · have := (regAt_some h).1
    rw [if_neg (by omega), h]
    rfl
  · rw [if_neg hw, h]

/-- No latch is written where there is no read-write register. -/
theorem writeArg_none (s : State) {off : Nat} (v : Word)
    (h : ∀ r, regAt off = some r → r.access ≠ .rw) : writeArg s off v = none := by
  unfold writeArg
  split
  case h_6 => rfl
  all_goals exact absurd rfl (h _ ‹_›)

/-! ### The host's step in the register space -/

section
variable {s : State} {a v : Word} {z : ElemSize}

theorem hostStep_read_register (armed : s.irq.fbh = .armed) (ha : inRegisterSpace s.cfg a.toNat = true) :
    hostStep (.read z a) s = hostReadReg z a.toNat s := by
  simp [hostStep, armed, ha]

theorem hostStep_write_register (armed : s.irq.fbh = .armed) (ha : inRegisterSpace s.cfg a.toNat = true) :
    hostStep (.write z a v) s = hostWriteReg z a.toNat v s := by
  simp [hostStep, armed, ha]

/-- A word read at a multiple of 4 answers what `readOffset` does (R40). -/
theorem hostStep_read_word (armed : s.irq.fbh = .armed) {off : Nat} (ha : a.toNat = s.cfg.vtgBase + off) (hoff : off < 4096)
    (hal : a.toNat % 4 = 0) {w : Word} (h : readOffset s off = some w) :
    hostStep (.read .word a) s = .next { s with readData := w } := by
  rw [hostStep_read_register armed (inRegisterSpace_iff.mpr (by omega))]
  unfold hostReadReg
  rw [if_pos ⟨rfl, hal⟩, ha, Nat.add_sub_cancel_left, h]

/-- A word write at a multiple of 4 to an operand latch (R26). -/
theorem hostStep_write_latch (armed : s.irq.fbh = .armed) {off : Nat} (ha : a.toNat = s.cfg.vtgBase + off)
    (hoff : off < 4096) (hal : a.toNat % 4 = 0) (hne : off ≠ 0) {t : State} (h : writeArg s off v = some t) :
    hostStep (.write .word a v) s = .next t := by
  rw [hostStep_write_register armed (inRegisterSpace_iff.mpr (by omega))]
  unfold hostWriteReg
  rw [if_pos ⟨rfl, hal⟩, if_neg (by omega), ha, Nat.add_sub_cancel_left, h]

/-- A word write at a multiple of 4 that is neither to `COMMAND` nor to a latch (R40). -/
theorem hostStep_write_refused (armed : s.irq.fbh = .armed) {off : Nat} (ha : a.toNat = s.cfg.vtgBase + off)
    (hoff : off < 4096) (hal : a.toNat % 4 = 0) (hne : off ≠ 0) (h : writeArg s off v = none) :
    hostStep (.write .word a v) s = .next { s with faults := s.faults.set .badAccess } := by
  rw [hostStep_write_register armed (inRegisterSpace_iff.mpr (by omega))]
  unfold hostWriteReg
  rw [if_pos ⟨rfl, hal⟩, if_neg (by omega), ha, Nat.add_sub_cancel_left, h]
  rfl

/-- A word written to `COMMAND` (R23). -/
theorem hostStep_write_command (armed : s.irq.fbh = .armed) (hbase : s.cfg.vtgBase % 4096 = 0)
    (ha : a.toNat = s.cfg.vtgBase) : hostStep (.write .word a v) s = hostCommand v s := by
  rw [hostStep_write_register armed (inRegisterSpace_iff.mpr (by omega))]
  unfold hostWriteReg
  rw [if_pos ⟨rfl, by omega⟩, if_pos ha]

end

/-! ### The host's reads of RAM -/

theorem mul_sum_map (c : Nat) (f : Nat → Nat) (l : List Nat) : c * (l.map f).sum = (l.map fun i => c * f i).sum := by
  induction l with
  | nil => rfl
  | cons i l ih => rw [List.map_cons, List.map_cons, List.sum_cons, List.sum_cons, Nat.mul_add, ih]

/-- A little-endian number is the sum of its bytes times the powers of 256 (R71). -/
theorem Memory.readLE_eq_sum (m : Memory) (a n : Nat) :
    m.readLE a n = ((List.range n).map fun i => (m.read (a + i)).toNat * 256 ^ i).sum := by
  induction n generalizing a with
  | zero => rfl
  | succ n ih =>
    have hterm : (fun i => 256 * ((m.read (a + 1 + i)).toNat * 256 ^ i)) =
        (fun i => (m.read (a + i)).toNat * 256 ^ i) ∘ Nat.succ := by
      funext i
      rw [Function.comp_apply, Nat.pow_succ', Nat.mul_left_comm, show a + 1 + i = a + i.succ by omega]
    rw [Memory.readLE_succ, ih, mul_sum_map, hterm, List.range_succ_eq_map, List.map_cons, List.sum_cons, List.map_map,
      Nat.pow_zero, Nat.mul_one, Nat.add_zero]

/-- Outside the register space, a host read is one of RAM or of nothing (R70). -/
theorem hostStep_read_ram {s : State} {a : Word} {z : ElemSize} (armed : s.irq.fbh = .armed) (hc : s.cfg.Admissible)
    (h : inRam s.cfg a.toNat 1 = true) : hostStep (.read z a) s = hostReadRam z a.toNat s := by
  have hreg : inRegisterSpace s.cfg a.toNat = false := by
    have := inRam_iff.mp h
    have := hc.disjoint
    rw [← Bool.not_eq_true, inRegisterSpace_iff]
    omega
  simp [hostStep, armed, hreg, h]

theorem inRam_of_session {s : State} {a : Nat} {z : ElemSize}
    (h : s.inProgram a z.bytes = true ∨ s.inFramebuffer a z.bytes = true) : inRam s.cfg a 1 = true := by
  have hz := ElemSize.bytes_pos z
  rw [inRam_iff]
  rcases h with h | h
  · have := (State.inProgram_iff.mp h).2.2
    omega
  · have := (State.inFramebuffer_iff.mp h).2.2
    omega

/-- A number of at most four bytes fits a register. -/
theorem toReg_readLE (m : Memory) (a : Nat) (z : ElemSize) : (toReg (m.readLE a z.bytes)).toNat = m.readLE a z.bytes := by
  have h := m.readLE_lt a z.bytes
  apply toReg_toNat
  cases z <;> simp only [ElemSize.bytes] at h ⊢ <;> omega

/-- Settles O4: the registers through the map, and RAM by the four outcomes of `hostReadRam` and of an unmapped address. -/
theorem hostReadReturnsTheRegister : Obligations.HostReadReturnsTheRegister := by
  refine ⟨fun s a off r armed hbase ha hr hacc => ⟨?_, readReg_of_wo s⟩, fun s z a armed hc => ⟨?_, ?_, ?_, ?_⟩⟩
  · obtain ⟨hoff, hal⟩ := regAt_some hr
    exact hostStep_read_word armed ha (by omega) (by omega) (readOffset_reg s hr hacc)
  · intro hal hin
    refine ⟨toReg (s.ram.readLE a.toNat z.bytes), ?_, ?_⟩
    · rw [hostStep_read_ram armed hc (inRam_of_session hin)]
      unfold hostReadRam
      rw [if_neg (by omega), if_pos (by simpa using hin)]
    · rw [toReg_readLE, Memory.readLE_eq_sum]
  · intro hram hal
    rw [hostStep_read_ram armed hc hram]
    exact if_pos hal
  · intro hram hal hprog hfb
    rw [hostStep_read_ram armed hc hram]
    simp [hostReadRam, hal, hprog, hfb]
  · intro hram hreg
    simp [hostStep, armed, hreg, hram]

/-! ### The pattern window -/

/-- Word `j` of a pattern stands at `0x20 m + 0x10 k + 4 j` of the window (R38). -/
theorem patternAt_word (c : Config) (m : OutputMode) (k : PatternKind) {j : Nat} (h : j < 4) :
    patternAt c (0x20 * m.number + 0x10 * k.number + 4 * j) = patternWord c m k j := by
  obtain rfl | rfl | rfl | rfl : j = 0 ∨ j = 1 ∨ j = 2 ∨ j = 3 := by omega
  all_goals cases m <;> cases k <;> rfl

/-- Settles O5: the word's address lies in the window, where no latch is. -/
theorem patternWindowIsReadable : Obligations.PatternWindowIsReadable := by
  intro s m k j v armed hc hj
  have hm : m.number < 2 := by cases m <;> decide
  have hk : k.number < 2 := by cases k <;> decide
  have hbase := hc.vtgAligned
  have hfits := hc.vtgFits
  obtain ⟨x, hx⟩ : ∃ x, x = 0x20 * m.number + 0x10 * k.number + 4 * j := ⟨_, rfl⟩
  have hword : patternAt s.cfg x = patternWord s.cfg m k j := hx ▸ patternAt_word s.cfg m k hj
  have haddr : patAddr s.cfg m k + 4 * j = s.cfg.vtgBase + (0x100 + x) := by
    rw [hx]
    unfold patAddr patBase
    omega
  have htoNat : (toReg (s.cfg.vtgBase + (0x100 + x))).toNat = s.cfg.vtgBase + (0x100 + x) := toReg_toNat (by omega)
  rw [haddr, ← hword]
  refine ⟨rfl, ?_, ?_, fun h3 => ?_, ?_⟩
  · exact hostStep_read_word armed htoNat (by omega) (by omega) (readOffset_pattern s (by omega))
  · rw [htoNat, State.readPix_pattern (by omega) (inPatternWindow_iff.mpr (by unfold patBase; omega))]
    rw [show s.cfg.vtgBase + (0x100 + x) - patBase s.cfg = x by unfold patBase; omega]
  · rw [hword, h3]
    rfl
  · refine hostStep_write_refused armed htoNat (by omega) (by omega) (by omega) (writeArg_none s v fun r hr => ?_)
    rw [regAt_of_ge (by omega)] at hr
    cases hr

/-! ### The operand latches -/

theorem State.Runs.args {i : Instr} {s t : State} (h : s.Runs i t) : t.args = s.args := by
  cases h with
  | failed h => rw [h.frame]
  | constructed h => rw [h.result]; rfl
  | reloaded => simp
  | coded | raised | started | stopped | timed | calculated | loaded => rfl

/-- Settles O6: each latch through the map, and the instructions by their moves. -/
theorem argumentLatchesHoldWhatTheHostWrites : Obligations.ArgumentLatchesHoldWhatTheHostWrites := by
  refine ⟨fun s a v armed hbase => ⟨?_, ?_, ?_, ?_, ?_⟩, fun i s t h => (exec_runs h).args⟩
  all_goals
    intro ha
    exact hostStep_write_latch armed ha (by decide) (by omega) (by decide) rfl

/-! ### The accesses that break the rules -/

/-- Settles O7: width and alignment first, then the map. -/
theorem badAccessSetsItsBit : Obligations.BadAccessSetsItsBit := by
  intro s z a v armed hin
  obtain ⟨hlow, hhigh⟩ := inRegisterSpace_iff.mp hin
  obtain ⟨off, hoff⟩ : ∃ off, a.toNat = s.cfg.vtgBase + off := ⟨a.toNat - s.cfg.vtgBase, by omega⟩
  rw [show a.toNat - s.cfg.vtgBase = off by omega]
  by_cases hw : z = .word ∧ a.toNat % 4 = 0
  · obtain ⟨rfl, hal⟩ := hw
    constructor
    · intro h
      have hnone : readOffset s off = none := readOffset_none s (by simpa [hal] using h)
      rw [hostStep_read_register armed hin]
      unfold hostReadReg
      rw [if_pos ⟨rfl, hal⟩, hoff, Nat.add_sub_cancel_left, hnone]
      rfl
    · intro h
      have hno : ∀ r, regAt off = some r → r.access = .ro ∨ r.access = .noAccess := by
        intro r hr
        simpa [hal, hr] using h
      have hne : off ≠ 0 := by
        rintro rfl
        have := hno .command rfl
        simp [Reg.access] at this
      refine hostStep_write_refused armed hoff (by omega) hal hne (writeArg_none s v fun r hr hrw => ?_)
      have := hno r hr
      simp [hrw] at this
  · constructor <;> intro _
    · rw [hostStep_read_register armed hin]
      exact if_neg hw
    · rw [hostStep_write_register armed hin]
      exact if_neg hw

/-! ### The flag registers -/

theorem flagBit_getLsbD (b : Bool) {k : Nat} (hk : k < 32) (i : Nat) : (flagBit b k).getLsbD i = (b && decide (i = k)) := by
  cases b
  · simp [flagBit]
  · simp only [flagBit, if_true, BitVec.getLsbD_ofNat, Nat.testBit_two_pow, Bool.true_and]
    by_cases h : i = k
    · simp [h, hk]
    · simp [h, Ne.symm h]

/-- The fields of `STATUS` (R24). -/
theorem statusWord_fields (ses : SesState) (err : ErrCode) :
    ((statusWord ses err).extractLsb' 0 2).toNat = ses.code ∧ (statusWord ses err).extractLsb' 2 2 = 0#2 ∧
      ((statusWord ses err).extractLsb' 4 3).toNat = err.code ∧ (statusWord ses err).extractLsb' 7 25 = 0#25 := by
  cases ses <;> cases err <;> decide

theorem FaultBits.toWord_getLsbD (f : FaultBits) (i : Nat) :
    f.toWord.getLsbD i =
      (f.illegalCmd && decide (i = 0) || f.badState && decide (i = 1) || f.pixOverwrite && decide (i = 2) ||
        f.badDesc && decide (i = 3) || f.busError && decide (i = 4) || f.badAccess && decide (i = 5)) := by
  simp only [FaultBits.toWord, BitVec.getLsbD_or, flagBit_getLsbD, Nat.reduceLT]

theorem Encoder.ctrlWord_getLsbD (e : Encoder) (i : Nat) :
    e.ctrlWord.getLsbD i = (e.en && decide (i = 0) || e.bswap && decide (i = 1)) := by
  simp only [Encoder.ctrlWord, BitVec.getLsbD_or, flagBit_getLsbD, Nat.reduceLT]

theorem Irq.toWord_getLsbD (q : Irq) (i : Nat) :
    q.toWord.getLsbD i =
      (q.pending && decide (i = 0) || q.enable && decide (i = 1) || q.fbh.isReloading && decide (i = 2) ||
        q.activeRef && decide (i = 3)) := by
  simp only [Irq.toWord, BitVec.getLsbD_or, flagBit_getLsbD, Nat.reduceLT]

/-- A field of a word whose bits are all 0. -/
theorem extractLsb'_eq_zero {w : Word} {start len : Nat} (h : ∀ i, start ≤ i → w.getLsbD i = false) :
    w.extractLsb' start len = 0#len := by
  apply BitVec.eq_of_getLsbD_eq
  intro i hi
  rw [BitVec.getLsbD_extractLsb', h _ (Nat.le_add_right _ _)]
  simp

/-- A register of one flag (R31, R34). -/
theorem flagBit_zero_fields (b : Bool) : (flagBit b 0).getLsbD 0 = b ∧ (flagBit b 0).extractLsb' 1 31 = 0#31 := by
  cases b <;> decide

theorem FbhState.isReloading_iff (f : FbhState) : f.isReloading = true ↔ f = .reloading := by
  cases f <;> simp [FbhState.isReloading]

/-- Settles O8: each flag register is a union of flag bits. -/
theorem flagRegistersShowTheirBits : Obligations.FlagRegistersShowTheirBits := by
  intro s
  refine ⟨statusWord_fields _ _, ?_, ?_, flagBit_zero_fields _, flagBit_zero_fields _, ?_⟩
  · simp only [readReg, FaultBits.toWord_getLsbD]
    refine ⟨by simp, by simp, by simp, by simp, by simp, by simp, extractLsb'_eq_zero fun i hi => ?_⟩
    simp [FaultBits.toWord_getLsbD, show ∀ k, k < 6 → i ≠ k by omega]
  · simp only [readReg, Encoder.ctrlWord_getLsbD]
    refine ⟨by simp, by simp, extractLsb'_eq_zero fun i hi => ?_⟩
    simp [Encoder.ctrlWord_getLsbD, show ∀ k, k < 2 → i ≠ k by omega]
  · simp only [readReg, Irq.toWord_getLsbD]
    refine ⟨by simp, by simp, by simp [FbhState.isReloading_iff], by simp, extractLsb'_eq_zero fun i hi => ?_⟩
    simp [Irq.toWord_getLsbD, show ∀ k, k < 4 → i ≠ k by omega]

/-! ### The encoder's words -/

/-- A field of a number stored in a register. -/
theorem toReg_extractLsb' {n : Nat} (h : n < 2 ^ 32) (start len : Nat) :
    ((toReg n).extractLsb' start len).toNat = n / 2 ^ start % 2 ^ len := by
  rw [BitVec.extractLsb'_toNat, toReg_toNat h, Nat.shiftRight_eq_div_pow]

theorem toReg_extractLsb'_eq_zero {n : Nat} (h : n < 2 ^ 32) {start len : Nat} (h0 : n / 2 ^ start % 2 ^ len = 0) :
    (toReg n).extractLsb' start len = 0#len := by
  apply BitVec.eq_of_toNat_eq
  rw [toReg_extractLsb' h, h0, BitVec.toNat_ofNat, Nat.zero_mod]

/-- The fields of `ENC_EXPAND` (R35, R154). -/
theorem packExpand_fields (e : Expansion) :
    (toReg (packExpand e)).extractLsb' 0 5 = e.l0.rot ∧ (toReg (packExpand e)).extractLsb' 5 5 = e.l0.width ∧
      (toReg (packExpand e)).extractLsb' 10 5 = e.l1.rot ∧ (toReg (packExpand e)).extractLsb' 15 5 = e.l1.width ∧
      (toReg (packExpand e)).extractLsb' 20 5 = e.l2.rot ∧ (toReg (packExpand e)).extractLsb' 25 5 = e.l2.width ∧
      (toReg (packExpand e)).extractLsb' 30 2 = 0#2 := by
  have h0 := e.l0.rot.isLt
  have h1 := e.l0.width.isLt
  have h2 := e.l1.rot.isLt
  have h3 := e.l1.width.isLt
  have h4 := e.l2.rot.isLt
  have h5 := e.l2.width.isLt
  have hlt : packExpand e < 2 ^ 32 := by
    unfold packExpand
    omega
  refine ⟨?_, ?_, ?_, ?_, ?_, ?_, toReg_extractLsb'_eq_zero hlt (by unfold packExpand; omega)⟩
  all_goals
    apply BitVec.eq_of_toNat_eq
    rw [toReg_extractLsb' hlt]
    unfold packExpand
    omega

/-- The fields of `ENC_SHIFT` (R35, R157): the count is below 32 whenever the calculator answers. -/
theorem packShift_fields {d k : Nat} (h : nShifts d k < 32) :
    ((toReg (packShift d k)).extractLsb' 0 5).toNat = d % 32 ∧ (toReg (packShift d k)).extractLsb' 5 3 = 0#3 ∧
      ((toReg (packShift d k)).extractLsb' 8 5).toNat = nShifts d k ∧ (toReg (packShift d k)).extractLsb' 13 19 = 0#19 := by
  have hlt : packShift d k < 2 ^ 32 := by
    unfold packShift shiftAmount
    omega
  refine ⟨?_, toReg_extractLsb'_eq_zero hlt ?_, ?_, toReg_extractLsb'_eq_zero hlt ?_⟩
  case refine_1 | refine_3 => rw [toReg_extractLsb' hlt]; unfold packShift shiftAmount; omega
  all_goals unfold packShift shiftAmount; omega

/-- Settles O19: an answer is the packed words of the depth's lanes and of a count below 32. -/
theorem encoderWordFields : Obligations.EncoderWordFields := by
  intro c d k p e hp he
  obtain ⟨e', he', -, hn, rfl⟩ := encParams_some hp
  rw [he] at he'
  cases he'
  obtain ⟨h1, h2, h3, h4, h5, h6, h7⟩ := packExpand_fields e
  exact ⟨h1, h2, h3, h4, h5, h6, h7, packShift_fields hn⟩

/-! ### Reset -/

/-- Settles O1: each register of the map, and the window by its offset. -/
theorem resetClearsRegisters : Obligations.ResetClearsRegisters := by
  intro c ram
  refine ⟨fun r => ?_, rfl, rfl, rfl, rfl, fun off hoff _ => readOffset_pattern _ hoff, rfl, rfl, rfl, rfl⟩
  cases r
  case fault => exact (by decide : FaultBits.clear.toWord = 0#32)
  case encCtrl => exact (by decide : Encoder.zero.ctrlWord = 0#32)
  case irqStat => exact (by decide : Irq.zero.toWord = 0#32)
  all_goals rfl

/-! ### One step -/

/-- A decoder's answer beside the bytes that are left. -/
theorem ok_of_map_pair {x : Except DecodeReject Instr} {i : Instr} {rest : List Byte}
    (h : x.map (·, rest) = .ok (i, rest)) : x = .ok i := by
  cases x <;> cases h
  rfl

/-- A word's bytes decode in format H as the word does. -/
theorem decodeH_of_bytes {c : Word} {i : Instr} (h : decode .H (bytesOfWord c) = .ok (i, [])) : decodeH c = .ok i := by
  rw [← wordOfBytes_bytes c]
  exact ok_of_map_pair h

/-- The word at an address is the word of the four bytes from there on (R71). -/
theorem wordOfBytes_read (m : Memory) (a : Nat) :
    wordOfBytes (m.read a) (m.read (a + 1)) (m.read (a + 2)) (m.read (a + 3)) = BitVec.ofNat 32 (m.readLE a 4) := by
  apply BitVec.eq_of_toNat_eq
  have h := m.readLE_lt a 4
  rw [wordOfBytes_toNat, BitVec.toNat_ofNat, Nat.mod_eq_of_lt (by omega)]
  rfl

theorem State.fetchWords_of_covers {s : State} {a n : Nat} (hal : a % 4 = 0) (h : s.inProgram a (4 * n) = true) :
    s.fetchWords a n = some (s.ram.wordsAt a n) := by
  refine State.fetchWords_of_inProgram fun j hj => ⟨by omega, ?_⟩
  obtain ⟨hs, hp, hr⟩ := State.inProgram_iff.mp h
  exact State.inProgram_iff.mpr ⟨hs, by omega, by omega⟩

/-- A format S descriptor runs as its bytes decode (R104, R106). -/
theorem runDescriptor_S {s : State} {i : Instr} (hw : s.ses.descw = 2#32) (hal : s.cmd.rptr.toNat % 4 = 0)
    (hin : s.inProgram s.cmd.rptr.toNat (4 * 2) = true)
    (hd : decode .S ((List.range (4 * 2)).map fun k => s.ram.read (s.cmd.rptr.toNat + k)) = .ok (i, [])) :
    runDescriptor s = exec i s := by
  have hi : decodeS (BitVec.ofNat 32 (s.ram.readLE s.cmd.rptr.toNat 4))
      (BitVec.ofNat 32 (s.ram.readLE (s.cmd.rptr.toNat + 4) 4)) = i := by
    rw [← wordOfBytes_read, ← wordOfBytes_read]
    cases hd
    rfl
  unfold runDescriptor
  rw [if_pos hw, State.fetchWords_of_covers hal hin, ← hi]
  rfl

/-- A format L descriptor runs as its bytes decode (R105, R106). -/
theorem runDescriptor_L {s : State} {i : Instr} (hw : s.ses.descw = 4#32) (hal : s.cmd.rptr.toNat % 4 = 0)
    (hin : s.inProgram s.cmd.rptr.toNat (4 * 4) = true)
    (hd : decode .L ((List.range (4 * 4)).map fun k => s.ram.read (s.cmd.rptr.toNat + k)) = .ok (i, [])) :
    runDescriptor s = exec i s := by
  have hi : decodeL (BitVec.ofNat 32 (s.ram.readLE s.cmd.rptr.toNat 4))
      (BitVec.ofNat 32 (s.ram.readLE (s.cmd.rptr.toNat + 4) 4)) (BitVec.ofNat 32 (s.ram.readLE (s.cmd.rptr.toNat + 8) 4))
      (BitVec.ofNat 32 (s.ram.readLE (s.cmd.rptr.toNat + 12) 4)) = .ok i := by
    rw [← wordOfBytes_read, ← wordOfBytes_read, ← wordOfBytes_read, ← wordOfBytes_read]
    exact ok_of_map_pair hd
  unfold runDescriptor
  rw [if_neg (by rw [hw]; decide), if_pos hw, State.fetchWords_of_covers hal hin]
  simp only [Memory.wordsAt, Nat.add_assoc, hi]

theorem cmdStep_ready {s : State} (hready : s.cmdReady = true) (hidle : s.pix.busy = false) :
    cmdStep s = runDescriptor s := by
  simp [cmdStep, hready, hidle]

/-- Settles O51: a command word by the host's step, a descriptor by the fetch of its words. -/
theorem stepRunsTheInstruction : Obligations.StepRunsTheInstruction := by
  constructor
  · intro s a c i rest hf armed hbase ha hev hd
    rw [step_of_noFault hf, State.takeEvent_cons hev]
    show hostStep (.write .word a c) _ = _
    rw [hostStep_write_command (s := { s with events := rest }) armed hbase ha]
    simp only [hostCommand, decodeH_of_bytes hd]
  · intro s f n i rest hf hev hready hidle hfn hw hal hin hd
    rw [step_of_noFault hf, State.takeEvent_cons hev]
    show cmdStep { s with events := rest } = _
    rw [cmdStep_ready (s := { s with events := rest }) hready hidle]
    rcases hfn with ⟨rfl, rfl⟩ | ⟨rfl, rfl⟩
    · exact runDescriptor_S hw hal hin hd
    · exact runDescriptor_L hw hal hin hd

end Sys2Proof.Machine
end

section
/-! SUPPORT. What RAM, the queue and the log hold after a step, and what the channels read of RAM (`20_memory.md` R71 to R78). -/

namespace Sys2Proof.Machine

/-! ### The bytes of a number -/

/-- Settles O46: a number is the sum of its bytes, and each byte is read from the write or past it. -/
theorem readsSeeTheLatestBytes : Obligations.ReadsSeeTheLatestBytes := by
  refine ⟨Memory.readLE_eq_sum, fun m a n v b k hm => ?_⟩
  have hbyte : ∀ x, ((m.writeLE a n v).read x).toNat =
      if a ≤ x ∧ x < a + n then v / 256 ^ (x - a) % 256 else (m.read x).toNat := by
    intro x
    rw [Memory.read_writeLE hm, apply_ite BitVec.toNat, BitVec.toNat_ofNat]
  simp only [Memory.readLE_eq_sum, hbyte]

/-! ### The producer -/

theorem producerStep_refused {s : State} {z : ElemSize} {a : Word} (v : Word)
    (h : a.toNat % z.bytes ≠ 0 ∨ s.inFramebuffer a.toNat z.bytes = false) :
    producerStep z a v s = .refused .producerWrite := by
  unfold producerStep
  exact if_neg (by rcases h with h | h <;> simp [h])

/-- No byte is in the framebuffer of no session. -/
theorem State.inFramebuffer_of_noSession {s : State} (h : s.sesState = .none) (a n : Nat) :
    s.inFramebuffer a n = false :=
  Bool.eq_false_iff.mpr fun hin => (State.inFramebuffer_iff.mp hin).1 h

/-- Settles O45: the write is `writeLE`, whose bytes are known inside and outside; the guard refuses the rest. -/
theorem producerWritesItsBytes : Obligations.ProducerWritesItsBytes := by
  intro s z a v hm
  refine ⟨fun hin hal => ?_, producerStep_refused v,
    fun hs => producerStep_refused v (.inr (State.inFramebuffer_of_noSession hs _ _))⟩
  refine ⟨s.ram.writeLE a.toNat z.bytes v.toNat, if_pos ⟨hal, hin⟩, Memory.writeLE_wf hm _ _ _, fun i hi => ?_,
    fun b hb => ?_⟩
  · rw [Memory.read_writeLE hm, if_pos (by omega), Nat.add_sub_cancel_left]
  · rw [Memory.read_writeLE hm, if_neg (by omega)]

/-! ### The reads of the channels -/

/-- The register space, and so the pattern window, lies outside RAM (R9, R70). -/
theorem not_inPatternWindow_of_inRam {c : Config} (hc : c.Admissible) {a n : Nat} (hn : 0 < n)
    (h : inRam c a n = true) : inPatternWindow c a n = false := by
  have := inRam_iff.mp h
  have := hc.disjoint
  rw [Bool.eq_false_iff, ne_eq, inPatternWindow_iff]
  unfold patBase
  omega

/-- A word is the number read where it holds that number. -/
theorem eq_ofNat_readLE_iff (m : Memory) (a : Nat) (w : Word) :
    w = BitVec.ofNat 32 (m.readLE a 4) ↔ w.toNat = m.readLE a 4 := by
  have h := m.readLE_lt a 4
  rw [← BitVec.toNat_inj, BitVec.toNat_ofNat, Nat.mod_eq_of_lt (by omega)]

/-- With RAM outside the register space, the pixel channel's two regions do not compete for an address. -/
theorem State.readPix_eq_some_iff {s : State} (hc : s.cfg.Admissible) {a : Nat} {z : ElemSize} {v : Nat} :
    s.readPix a z = some v ↔
      a % z.bytes = 0 ∧
        ((z = .word ∧ inPatternWindow s.cfg a 4 = true ∧ v = patternAt s.cfg (a - patBase s.cfg)) ∨
          (s.inFramebuffer a z.bytes = true ∧ v = s.ram.readLE a z.bytes)) := by
  constructor
  · intro h
    obtain ⟨hal, ⟨hw, rfl, hv⟩ | ⟨-, hf, hv⟩⟩ := State.readPix_eq_some h
    · exact ⟨hal, .inl ⟨rfl, hw, hv⟩⟩
    · exact ⟨hal, .inr ⟨hf, hv⟩⟩
  · rintro ⟨hal, ⟨rfl, hw, rfl⟩ | ⟨hf, rfl⟩⟩
    · exact State.readPix_pattern hal hw
    · have hram := inRam_iff.mpr (State.inFramebuffer_iff.mp hf).2.2
      exact State.readPix_framebuffer hal (not_inPatternWindow_of_inRam hc z.bytes_pos hram) hf

/-- Settles O43: what each read answers, with the regions written out. -/
theorem channelsReadOnlyTheirRegions : Obligations.ChannelsReadOnlyTheirRegions := by
  intro s a z hc
  constructor
  · intro w
    rw [State.readCmd_eq_some, State.inProgram_iff, ← inRam_iff, eq_ofNat_readLE_iff]
    simp only [and_assoc]
  · intro v
    rw [State.readPix_eq_some_iff hc, State.inFramebuffer_iff, ← inRam_iff]
    simp only [and_assoc]

/-! ### The writers of RAM and of the histories -/

theorem decodeH_eq_construct {v : Word} (h : decodeH v = .ok .construct) : v = 1#32 := by
  simpa using decodeH_ok h

/-- Of the instructions only a CONSTRUCT that returns OK writes RAM (R76). -/
theorem State.Runs.ram {i : Instr} {s t : State} (h : s.Runs i t) : t.ram = s.ram ∨ (i = .construct ∧ t.err = .ok) := by
  cases h with
  | failed h => exact .inl (by rw [h.frame])
  | constructed h => exact .inr ⟨rfl, h.err⟩
  | reloaded => exact .inl (by simp)
  | coded | raised | started | stopped | timed | calculated | loaded => exact .inl rfl

/-- No instruction pushes a record (R37, R52). -/
theorem State.Runs.encq {i : Instr} {s t : State} (h : s.Runs i t) : t.encq = s.encq := by
  cases h with
  | failed h => rw [h.frame]
  | constructed h => rw [h.result]; rfl
  | reloaded => simp
  | coded | raised | started | stopped | timed | calculated | loaded => rfl

/-- CONSTRUCT and STOP add lines to the log, and no instruction takes one away (R51). -/
theorem State.Runs.envlog {i : Instr} {s t : State} (h : s.Runs i t) : s.envlog <+: t.envlog := by
  cases h with
  | failed h =>
    obtain ⟨-, ⟨l, hl⟩, -⟩ := h
    exact ⟨l, hl.symm⟩
  | constructed h =>
    rw [h.result]
    simp [State.constructed]
  | stopped => simp [State.giveBack]
  | reloaded => simp
  | coded | raised | started | timed | calculated | loaded => exact List.prefix_rfl

theorem State.Takes.ram {e : Event} {s t : State} (h : s.Takes e t) :
    t.ram = s.ram ∨ (∃ a, e = .host (.write .word a 1#32) ∧ a.toNat = s.cfg.vtgBase ∧ t.err = .ok) ∨
      ∃ z a v, e = .producer z a v := by
  cases h with
  | command armed ha hv hi =>
    obtain hr | ⟨rfl, hok⟩ := (exec_runs hi).ram
    · exact .inl hr
    · exact .inr (.inl ⟨_, by rw [decodeH_eq_construct hv], ha, hok⟩)
  | descriptor hf hw hi =>
    obtain hr | ⟨rfl, -⟩ := (exec_runs hi).ram
    · exact .inl hr
    · exact absurd rfl hf
  | produced => exact .inr (.inr ⟨_, _, _, rfl⟩)
  | delivered | returned => exact .inl (by simp)
  | idle | raised | hostRead | hostBadRead | hostLatch | entered => exact .inl rfl

theorem State.Takes.envlog {e : Event} {s t : State} (h : s.Takes e t) : s.envlog <+: t.envlog := by
  cases h with
  | command armed ha hv hi => exact (exec_runs hi).envlog
  | descriptor hf hw hi => exact (exec_runs hi).envlog
  | delivered | returned => simp
  | idle | raised | hostRead | hostBadRead | hostLatch | entered | produced => exact List.prefix_rfl

/-- The record a PIX step pushes holds the value the pixel channel read (R228). -/
theorem pixStep_encq {s t : State} (h : pixStep s = .next t) :
    t.encq = s.encq ∨ ∃ z v, s.readPix s.pix.raddr.toNat z = some v ∧ t.encq = s.encq ++ [{ size := z, value := v }] := by
  unfold pixStep at h
  split at h
  · split at h
    · cases h
    · split at h
      · cases h
      · split at h <;> cases h
        · exact .inl rfl
        · exact .inr ⟨_, _, ‹_›, State.deliver_encq _ _ _⟩
  · cases h
    exact .inl rfl

/-- Only the pixel channel pushes (R37, R52). -/
theorem State.Takes.encq {e : Event} {s t : State} (h : s.Takes e t) : t.encq = s.encq ∨ e = .pix := by
  cases h with
  | command armed ha hv hi => exact .inl (exec_runs hi).encq
  | descriptor hf hw hi => exact .inl (exec_runs hi).encq
  | delivered => exact .inr rfl
  | returned => exact .inl (by simp)
  | idle | raised | hostRead | hostBadRead | hostLatch | entered | produced => exact .inl rfl

/-- Settles O49: the moves of the agents on RAM and on the log, and the pixel channel's read for the value pushed. -/
theorem writersOfRamAndHistories : Obligations.WritersOfRamAndHistories := by
  intro e s t h
  have htakes := agentStep_takes h
  refine ⟨htakes.ram.resolve_left, ?_, ?_⟩
  · obtain hq | rfl := htakes.encq
    · exact .inl hq
    · obtain hq | ⟨z, v, hread, hq⟩ := pixStep_encq h
      · exact .inl hq
      · exact .inr ⟨rfl, z, v, hq, fun hc => State.readPix_lt hc hread⟩
  · obtain ⟨l, hl⟩ := htakes.envlog
    exact ⟨l, hl.symm⟩

end Sys2Proof.Machine
end

section
/-! SUPPORT. Two states that are the same but for pixels take the same step (`20_memory.md` R74, R85): each meaning either looks at
no pixel, or at the program alone, or hands what it read to the queue or to the host. Each lemma follows the branches of its
definition, whose conditions are the same in both states. -/

namespace Sys2Proof.Machine

/-- The state with another RAM, another queue history and another last host read. -/
def State.withPixels (s : State) (m : Memory) (q : List EncRecord) (d : Word) : State :=
  { s with ram := m, encq := q, readData := d }

/-- A branch on one condition agrees when both its ways do. -/
theorem AgreeButPixels.ite {c : Prop} [Decidable c] {x y x' y' : Result} (hx : c → AgreeButPixels x x')
    (hy : ¬ c → AgreeButPixels y y') : AgreeButPixels (if c then x else y) (if c then x' else y') := by
  by_cases hc : c
  · rw [if_pos hc, if_pos hc]
    exact hx hc
  · rw [if_neg hc, if_neg hc]
    exact hy hc

/-- Ending a command with one code keeps two states the same but for pixels. -/
theorem State.SameButPixels.returnErr {s t : State} (h : s.SameButPixels t) (code : ErrCode) :
    AgreeButPixels (returnErr code s) (returnErr code t) :=
  ⟨congrArg (fun u : State => ({ u with err := code } : State)) h.rest, h.sizes, h.program⟩

section
variable {s : State} {m : Memory} {q : List EncRecord} {d : Word}

/-! ### What does not depend on pixels -/

@[simp] theorem State.withPixels_cfg : (s.withPixels m q d).cfg = s.cfg := rfl
@[simp] theorem State.withPixels_sesState : (s.withPixels m q d).sesState = s.sesState := rfl
@[simp] theorem State.withPixels_faults : (s.withPixels m q d).faults = s.faults := rfl
@[simp] theorem State.withPixels_ses : (s.withPixels m q d).ses = s.ses := rfl
@[simp] theorem State.withPixels_cmd : (s.withPixels m q d).cmd = s.cmd := rfl
@[simp] theorem State.withPixels_pix : (s.withPixels m q d).pix = s.pix := rfl
@[simp] theorem State.withPixels_events : (s.withPixels m q d).events = s.events := rfl
@[simp] theorem State.withPixels_allocs : (s.withPixels m q d).allocs = s.allocs := rfl
@[simp] theorem State.withPixels_claims : (s.withPixels m q d).claims = s.claims := rfl
@[simp] theorem argWidth_withPixels : argWidth (s.withPixels m q d) = argWidth s := rfl
@[simp] theorem argHeight_withPixels : argHeight (s.withPixels m q d) = argHeight s := rfl
@[simp] theorem argDepth_withPixels : argDepth (s.withPixels m q d) = argDepth s := rfl
@[simp] theorem argMode_withPixels : argMode (s.withPixels m q d) = argMode s := rfl
@[simp] theorem argHscale_withPixels : argHscale (s.withPixels m q d) = argHscale s := rfl

/-- No register shows a pixel (R22, R38). -/
@[simp] theorem readOffset_withPixels (off : Nat) : readOffset (s.withPixels m q d) off = readOffset s off := rfl

theorem writeArg_withPixels (off : Nat) (v : Word) :
    writeArg (s.withPixels m q d) off v = (writeArg s off v).map (·.withPixels m q d) := by
  unfold writeArg
  split <;> rfl

/-- Which reads of the pixel channel succeed does not depend on RAM (R73, R74). -/
theorem State.readPix_withPixels_isSome (a : Nat) (z : ElemSize) :
    ((s.withPixels m q d).readPix a z).isSome = (s.readPix a z).isSome := by
  simp only [State.readPix, apply_ite Option.isSome]
  rfl

variable (s m q d)

/-- The next event is the same in both states (R80). -/
theorem State.takeEvent_withPixels :
    ∃ e es k, s.takeEvent = (e, { s with events := es, drawn := k }) ∧
      (s.withPixels m q d).takeEvent = (e, ({ s with events := es, drawn := k } : State).withPixels m q d) := by
  simp only [State.takeEvent, State.withPixels_events]
  split <;> exact ⟨_, _, _, rfl, rfl⟩

/-- ENV answers an allocation request alike in both states (R181). -/
theorem State.drawAlloc_withPixels (n : Nat) :
    ∃ r as k, s.drawAlloc n = (r, { s with allocs := as, drawn := k }) ∧
      (s.withPixels m q d).drawAlloc n = (r, ({ s with allocs := as, drawn := k } : State).withPixels m q d) := by
  simp only [State.drawAlloc, State.withPixels_allocs]
  split <;> exact ⟨_, _, _, rfl, rfl⟩

/-- ENV answers a channel claim alike in both states (R182). -/
theorem State.drawClaim_withPixels :
    ∃ r cs k, s.drawClaim = (r, { s with claims := cs, drawn := k }) ∧
      (s.withPixels m q d).drawClaim = (r, ({ s with claims := cs, drawn := k } : State).withPixels m q d) := by
  simp only [State.drawClaim, State.withPixels_claims]
  split <;> exact ⟨_, _, _, rfl, rfl⟩

end

/-! ### Meanings that write no RAM -/

section
variable {s : State} {m : Memory} {q : List EncRecord} {d : Word} (h : s.SameButPixels (s.withPixels m q d))
include h

theorem raise_agree (b : FaultBit) : AgreeButPixels (raise b s) (raise b (s.withPixels m q d)) :=
  ⟨rfl, h.sizes, h.program⟩

theorem execStart_agree : AgreeButPixels (execStart s) (execStart (s.withPixels m q d)) := by
  simp only [execStart, State.withPixels_sesState]
  split <;> exact ⟨rfl, h.sizes, h.program⟩

/-- STOP leaves no program region (R203). -/
theorem execStop_agree : AgreeButPixels (execStop s) (execStop (s.withPixels m q d)) := by
  refine .ite (fun _ => ⟨rfl, h.sizes, fun a ha => ?_⟩) (fun _ => ⟨rfl, h.sizes, h.program⟩)
  have hlt : a + 1 ≤ 0 := (Region.covers_iff.mp ha).2
  omega

theorem State.reloadAction_agree : s.reloadAction.SameButPixels (s.withPixels m q d).reloadAction := by
  cases ha : s.irq.activeRef with
  | true =>
    rw [State.reloadAction_active s ha, State.reloadAction_active (s.withPixels m q d) ha]
    exact ⟨rfl, h.sizes, h.program⟩
  | false =>
    rw [State.reloadAction_absent s ha, State.reloadAction_absent (s.withPixels m q d) ha]
    exact h

theorem execTiming_agree : AgreeButPixels (execTiming s) (execTiming (s.withPixels m q d)) := by
  simp only [execTiming, argMode_withPixels]
  split <;> exact ⟨rfl, h.sizes, h.program⟩

theorem execEnccalc_agree : AgreeButPixels (execEnccalc s) (execEnccalc (s.withPixels m q d)) := by
  simp only [execEnccalc, State.withPixels_cfg, argDepth_withPixels, argHscale_withPixels]
  split <;> exact ⟨rfl, h.sizes, h.program⟩

theorem loadDescriptor_agree (n : Nat) (p : PixChannel) :
    AgreeButPixels (loadDescriptor n p s) (loadDescriptor n p (s.withPixels m q d)) := by
  refine .ite (fun _ => raise_agree h _) (fun _ => ?_)
  split
  · exact raise_agree h _
  · exact .ite (fun _ => raise_agree h _) fun _ => .ite (fun _ => ⟨rfl, h.sizes, h.program⟩) fun _ =>
      .ite (fun _ => ⟨rfl, h.sizes, h.program⟩) (fun _ => raise_agree h _)

/-- The command channel reads the program alone (R74). -/
theorem State.readCmd_withPixels (a : Nat) : (s.withPixels m q d).readCmd a = s.readCmd a := by
  refine ite_congr rfl (fun hin => ?_) (fun _ => rfl)
  obtain ⟨-, ⟨hlow, hhigh⟩, -⟩ := State.inProgram_iff.mp hin.2
  have hbytes : ∀ b, a ≤ b → b < a + 4 → m.read b = s.ram.read b := fun b h1 h2 =>
    h.program b (Region.covers_iff.mpr ⟨Nat.le_trans hlow h1, Nat.le_trans h2 hhigh⟩)
  exact congrArg (fun n => some (BitVec.ofNat 32 n)) (Memory.readLE_congr hbytes)

theorem State.fetchWords_withPixels (a n : Nat) : (s.withPixels m q d).fetchWords a n = s.fetchWords a n := by
  induction n generalizing a with
  | zero => rfl
  | succ n ih => simp only [State.fetchWords, State.readCmd_withPixels h, ih]

/-- The values delivered may differ; their sizes do not (R228). -/
theorem State.deliver_agree (z : ElemSize) (v w : Nat) :
    (s.deliver z v).SameButPixels ((s.withPixels m q d).deliver z w) := by
  have hsizes : (q ++ [EncRecord.mk z w]).map EncRecord.size =
      (s.encq ++ [EncRecord.mk z v]).map EncRecord.size := by
    rw [List.map_append, List.map_append]
    exact congrArg (· ++ [z]) h.sizes
  by_cases hl : s.pix.len = 1#32
  · rw [State.deliver_last s z v hl, State.deliver_last (s.withPixels m q d) z w hl]
    exact ⟨rfl, hsizes, h.program⟩
  · rw [State.deliver_more s z v hl, State.deliver_more (s.withPixels m q d) z w hl]
    exact ⟨rfl, hsizes, h.program⟩

theorem pixStep_agree : AgreeButPixels (pixStep s) (pixStep (s.withPixels m q d)) := by
  refine .ite (fun _ => ?_) (fun _ => h)
  simp only [State.withPixels_pix]
  split
  · rfl
  · rename_i z _
    refine .ite (fun _ => rfl) (fun _ => ?_)
    have hread := State.readPix_withPixels_isSome (s := s) (m := m) (q := q) (d := d) s.pix.raddr.toNat z
    cases hv : s.readPix s.pix.raddr.toNat z <;> cases hw : (s.withPixels m q d).readPix s.pix.raddr.toNat z <;>
      rw [hv, hw] at hread
    case none.none => exact raise_agree h _
    case some.some v w => exact State.deliver_agree h z v w
    all_goals cases hread

theorem fbhStep_agree : AgreeButPixels (fbhStep s) (fbhStep (s.withPixels m q d)) := by
  have hr := State.reloadAction_agree h
  exact .ite
    (fun _ => ⟨congrArg (fun u : State => ({ u with irq := { u.irq with fbh := .armed } } : State)) hr.rest, hr.sizes,
      hr.program⟩)
    fun _ => .ite (fun _ => ⟨rfl, h.sizes, h.program⟩) (fun _ => h)

theorem hostReadReg_agree (z : ElemSize) (a : Nat) :
    AgreeButPixels (hostReadReg z a s) (hostReadReg z a (s.withPixels m q d)) := by
  refine .ite (fun _ => ?_) (fun _ => ⟨rfl, h.sizes, h.program⟩)
  simp only [State.withPixels_cfg, readOffset_withPixels]
  split <;> exact ⟨rfl, h.sizes, h.program⟩

/-- The host may read different bytes; only `readData` holds them. -/
theorem hostReadRam_agree (z : ElemSize) (a : Nat) :
    AgreeButPixels (hostReadRam z a s) (hostReadRam z a (s.withPixels m q d)) :=
  .ite (fun _ => rfl) fun _ => .ite (fun _ => ⟨rfl, h.sizes, h.program⟩) (fun _ => rfl)

end

/-! ### Meanings that may write RAM -/

section
variable {s : State} {m : Memory} {q : List EncRecord} {d : Word} (h : s.SameButPixels (s.withPixels m q d))
  (hs : s.ram.wf) (hm : m.wf)
include h hs hm

/-- The program CONSTRUCT installs is the same, byte for byte, in both states (R184, R186). -/
theorem State.install_agree {g : Geometry} {fb : Word}
    (hlen : (buildProgram s.cfg g (argWidth s) fb.toNat).length = g.progWords) (prog : Word) (a b : BitVec 4) :
    (s.install g fb prog a b).SameButPixels ((s.withPixels m q d).install g fb prog a b) := by
  refine ⟨rfl, h.sizes, fun x hx => ?_⟩
  obtain ⟨hlow, hhigh⟩ := Region.covers_iff.mp hx
  have hhigh : x + 1 ≤ prog.toNat + 4 * (toReg g.progWords).toNat := hhigh
  have hwords : (toReg g.progWords).toNat ≤ g.progWords := Nat.mod_le _ _
  refine Memory.read_writeWords_inside hm hs hlow ?_
  rw [State.withPixels_cfg, argWidth_withPixels, hlen]
  omega

section
variable {g : Geometry} (hlen : ∀ fb, (buildProgram s.cfg g (argWidth s) fb).length = g.progWords)
include hlen

theorem constructClaim_agree (fb prog : Word) :
    AgreeButPixels (constructClaim g fb prog s) (constructClaim g fb prog (s.withPixels m q d)) := by
  obtain ⟨r, cs, k, hdraw, hdraw'⟩ := s.drawClaim_withPixels m q d
  unfold constructClaim
  rw [hdraw, hdraw']
  match r with
  | none => exact ⟨rfl, h.sizes, h.program⟩
  | some (a, b) =>
    have hi := State.install_agree (s := State.log { s with claims := cs, drawn := k } (.claim a b)) (d := d)
      ⟨rfl, h.sizes, h.program⟩ hs hm (hlen fb.toNat) prog a b
    exact hi.returnErr .ok

theorem constructProgram_agree (fb : Word) :
    AgreeButPixels (constructProgram g fb s) (constructProgram g fb (s.withPixels m q d)) := by
  obtain ⟨r, as, k, hdraw, hdraw'⟩ := s.drawAlloc_withPixels m q d g.progWords
  unfold constructProgram
  rw [hdraw, hdraw']
  cases r with
  | none => exact ⟨rfl, h.sizes, h.program⟩
  | some prog =>
    exact constructClaim_agree
      (s := State.acquire { s with allocs := as, drawn := k } { base := prog.toNat, words := g.progWords })
      ⟨rfl, h.sizes, h.program⟩ hs hm hlen fb prog

theorem constructFramebuffer_agree :
    AgreeButPixels (constructFramebuffer g s) (constructFramebuffer g (s.withPixels m q d)) := by
  obtain ⟨r, as, k, hdraw, hdraw'⟩ := s.drawAlloc_withPixels m q d g.fbWords
  unfold constructFramebuffer
  rw [hdraw, hdraw']
  cases r with
  | none => exact ⟨rfl, h.sizes, h.program⟩
  | some fb =>
    exact constructProgram_agree
      (s := State.acquire { s with allocs := as, drawn := k } { base := fb.toNat, words := g.fbWords })
      ⟨rfl, h.sizes, h.program⟩ hs hm hlen fb

end

theorem execConstruct_agree : AgreeButPixels (execConstruct s) (execConstruct (s.withPixels m q d)) := by
  refine .ite (fun _ => ⟨rfl, h.sizes, h.program⟩) (fun _ => ?_)
  simp only [State.withPixels_cfg, argWidth_withPixels, argHeight_withPixels, argDepth_withPixels]
  cases hg : geometry s.cfg (argWidth s) (argHeight s) (argDepth s) with
  | none => exact ⟨rfl, h.sizes, h.program⟩
  | some g => exact constructFramebuffer_agree h hs hm (geometry_some hg).buildProgram_length

theorem exec_agree (i : Instr) : AgreeButPixels (exec i s) (exec i (s.withPixels m q d)) := by
  cases i with
  | construct => exact execConstruct_agree h hs hm
  | start => exact execStart_agree h
  | stop => exact execStop_agree h
  | reload => exact State.reloadAction_agree h
  | timing => exact execTiming_agree h
  | enccalc => exact execEnccalc_agree h
  | xferS | termS | xferL | termL => exact loadDescriptor_agree h _ _

theorem runDescriptor_agree : AgreeButPixels (runDescriptor s) (runDescriptor (s.withPixels m q d)) := by
  simp only [runDescriptor, State.withPixels_ses, State.withPixels_cmd, State.fetchWords_withPixels h]
  refine .ite (fun _ => ?_) (fun _ => .ite (fun _ => ?_) (fun _ => rfl))
  · split
    · exact exec_agree h hs hm _
    · exact raise_agree h _
  · split
    · split
      · exact exec_agree h hs hm _
      · exact raise_agree h _
    · exact raise_agree h _

theorem cmdStep_agree : AgreeButPixels (cmdStep s) (cmdStep (s.withPixels m q d)) :=
  .ite (fun _ => .ite (fun _ => raise_agree h _) (fun _ => runDescriptor_agree h hs hm)) (fun _ => h)

/-- The producer writes the same bytes in both states, inside the program or outside. -/
theorem producerStep_agree (z : ElemSize) (a v : Word) :
    AgreeButPixels (producerStep z a v s) (producerStep z a v (s.withPixels m q d)) := by
  refine .ite (fun _ => ⟨rfl, h.sizes, fun b hb => ?_⟩) (fun _ => rfl)
  have hold : m.read b = s.ram.read b := h.program b hb
  show (m.writeLE a.toNat z.bytes v.toNat).read b = (s.ram.writeLE a.toNat z.bytes v.toNat).read b
  rw [Memory.read_writeLE hm, Memory.read_writeLE hs, hold]

theorem hostWriteReg_agree (z : ElemSize) (a : Nat) (v : Word) :
    AgreeButPixels (hostWriteReg z a v s) (hostWriteReg z a v (s.withPixels m q d)) := by
  refine .ite (fun _ => .ite (fun _ => ?_) (fun _ => ?_)) (fun _ => raise_agree h _)
  · unfold hostCommand
    split
    · exact exec_agree h hs hm _
    · exact raise_agree h _
  · rw [State.withPixels_cfg, writeArg_withPixels]
    cases hu : writeArg s (a - s.cfg.vtgBase) v with
    | none => exact raise_agree h _
    | some u =>
      rw [writeArg_eq_some hu]
      exact ⟨rfl, h.sizes, h.program⟩

theorem hostStep_agree (access : HostAccess) :
    AgreeButPixels (hostStep access s) (hostStep access (s.withPixels m q d)) := by
  refine .ite (fun _ => h) (fun _ => ?_)
  cases access with
  | read z a =>
    exact .ite (fun _ => hostReadReg_agree h z _) fun _ => .ite (fun _ => hostReadRam_agree h z _) (fun _ => rfl)
  | write z a v =>
    exact .ite (fun _ => hostWriteReg_agree h hs hm z _ v) fun _ => .ite (fun _ => rfl) (fun _ => rfl)

theorem agentStep_agree (e : Event) : AgreeButPixels (agentStep e s) (agentStep e (s.withPixels m q d)) := by
  cases e with
  | host access => exact hostStep_agree h hs hm access
  | cmd => exact cmdStep_agree h hs hm
  | pix => exact pixStep_agree h
  | fbh => exact fbhStep_agree h
  | producer z a v => exact producerStep_agree h hs hm z a v

theorem step_agree : AgreeButPixels (step s) (step (s.withPixels m q d)) := by
  obtain ⟨e, es, k, htake, htake'⟩ := s.takeEvent_withPixels m q d
  unfold step
  rw [State.withPixels_faults, htake, htake']
  cases s.faults.lowest with
  | some b => rfl
  | none => exact agentStep_agree (s := { s with events := es, drawn := k }) ⟨rfl, h.sizes, h.program⟩ hs hm e

end

/-- Settles O60: the second state is the first with other pixels, and each agent's step agrees. -/
theorem pixelsDoNotSteer : Obligations.PixelsDoNotSteer := by
  intro s t hs ht h
  have ht' : t = s.withPixels t.ram t.encq t.readData := h.rest
  rw [ht'] at h ⊢
  exact step_agree h hs ht

end Sys2Proof.Machine
end

section
/-! SUPPORT. The decoder and the encoder undo each other (`30_encoding.md` R101 to R108), said of words first and then of bytes;
the legal control words field by field (R108), and the reserved command words (R102). -/

namespace Sys2Proof.Machine

/-! ### Words to bytes: what each format reads from the bytes of its words -/

theorem decode_H_words (c : Word) (rest : List Byte) :
    decode .H ([c].flatMap bytesOfWord ++ rest) = (decodeH c).map (·, rest) := by
  conv => rhs; rw [← wordOfBytes_bytes c]
  rfl

theorem decode_S_words (w0 w1 : Word) (rest : List Byte) :
    decode .S ([w0, w1].flatMap bytesOfWord ++ rest) = .ok (decodeS w0 w1, rest) := by
  conv => rhs; rw [← wordOfBytes_bytes w0, ← wordOfBytes_bytes w1]
  rfl

theorem decode_L_words (w0 w1 w2 w3 : Word) (rest : List Byte) :
    decode .L ([w0, w1, w2, w3].flatMap bytesOfWord ++ rest) = (decodeL w0 w1 w2 w3).map (·, rest) := by
  conv => rhs; rw [← wordOfBytes_bytes w0, ← wordOfBytes_bytes w1, ← wordOfBytes_bytes w2, ← wordOfBytes_bytes w3]
  rfl

/-- Settles O9: by the instruction's format; the length word tells a transfer from a terminal, and it is not 0 in a
well-formed transfer. -/
theorem decodeUndoesEncode : Obligations.DecodeUndoesEncode := by
  intro i rest hwf
  cases i with
  | construct | start | stop | reload | timing | enccalc => exact decode_H_words _ rest
  | xferS len raddr =>
    have hlen : len ≠ 0#32 := bne_iff_ne.mp hwf
    refine (decode_S_words len raddr rest).trans ?_
    rw [decodeS, if_neg hlen]
  | termS raddr => exact decode_S_words 0#32 raddr rest
  | xferL z waddr len raddr =>
    have hlen : len ≠ 0#32 := bne_iff_ne.mp hwf
    refine (decode_L_words (ctrlStd z) waddr len raddr rest).trans ?_
    rw [decodeL_ctrlStd, if_neg hlen]
    rfl
  | termL z waddr raddr =>
    refine (decode_L_words (ctrlStd z) waddr 0#32 raddr rest).trans ?_
    rw [decodeL_ctrlStd]
    rfl

/-! ### Bytes to words: what decodes is well formed, and its words are the ones read -/

theorem decodeH_encodeWords {c : Word} {i : Instr} (h : decodeH c = .ok i) : i.wf = true ∧ encodeWords i = [c] := by
  rcases decodeH_ok h with ⟨rfl, rfl⟩ | ⟨rfl, rfl⟩ | ⟨rfl, rfl⟩ | ⟨rfl, rfl⟩ | ⟨rfl, rfl⟩ | ⟨rfl, rfl⟩ <;> exact ⟨rfl, rfl⟩

theorem decodeS_encodeWords (w0 w1 : Word) :
    (decodeS w0 w1).wf = true ∧ encodeWords (decodeS w0 w1) = [w0, w1] := by
  obtain ⟨rfl, h⟩ | ⟨hlen, h⟩ := decodeS_cases w0 w1 <;> rw [h]
  · exact ⟨rfl, rfl⟩
  · exact ⟨bne_iff_ne.mpr hlen, rfl⟩

theorem decodeL_encodeWords {w0 w1 w2 w3 : Word} {i : Instr} (h : decodeL w0 w1 w2 w3 = .ok i) :
    i.wf = true ∧ encodeWords i = [w0, w1, w2, w3] := by
  obtain ⟨z, rfl, ⟨rfl, rfl⟩ | ⟨hlen, rfl⟩⟩ := decodeL_ok h
  · exact ⟨rfl, rfl⟩
  · exact ⟨bne_iff_ne.mpr hlen, rfl⟩

theorem map_pair_eq_ok {x : Except DecodeReject Instr} {i : Instr} {r rest : List Byte}
    (h : x.map (·, r) = .ok (i, rest)) : x = .ok i ∧ r = rest := by
  cases x <;> cases h
  exact ⟨rfl, rfl⟩

/-- Settles O10: the words read are the instruction's, and a word made of four bytes has those bytes. -/
theorem encodeUndoesDecode : Obligations.EncodeUndoesDecode := by
  intro f bs rest i h
  unfold decode at h
  split at h
  case h_1 =>
    obtain ⟨hd, rfl⟩ := map_pair_eq_ok h
    obtain ⟨hwf, hws⟩ := decodeH_encodeWords hd
    refine ⟨hwf, decodeH_format hd, ?_⟩
    simp [encode, hws, bytesOfWord_wordOfBytes]
  case h_2 a0 a1 a2 a3 b0 b1 b2 b3 _ =>
    cases h
    obtain ⟨hwf, hws⟩ := decodeS_encodeWords (wordOfBytes a0 a1 a2 a3) (wordOfBytes b0 b1 b2 b3)
    refine ⟨hwf, decodeS_format _ _, ?_⟩
    simp [encode, hws, bytesOfWord_wordOfBytes]
  case h_3 =>
    obtain ⟨hd, rfl⟩ := map_pair_eq_ok h
    obtain ⟨hwf, hws⟩ := decodeL_encodeWords hd
    refine ⟨hwf, decodeL_format hd, ?_⟩
    simp [encode, hws, bytesOfWord_wordOfBytes]
  case h_4 => cases h

/-! ### The control word, field by field -/

theorem getLsbD_eq_of_extractLsb'_eq {v w : Word} {start len i : Nat} (h : v.extractLsb' start len = w.extractLsb' start len)
    (hlow : start ≤ i) (hhigh : i < start + len) : v.getLsbD i = w.getLsbD i := by
  have hbit := congrArg (·.getLsbD (i - start)) h
  simpa [BitVec.getLsbD_extractLsb', show i - start < len by omega, show start + (i - start) = i by omega] using hbit

/-- A word is known by the fields of format C: its six flags, `SIZE`, and the reserved bits (R108). -/
theorem eq_of_control_fields {v w : Word} (hflags : ∀ i ∈ [0, 1, 4, 5, 6, 7], v.getLsbD i = w.getLsbD i)
    (hsize : v.extractLsb' 2 2 = w.extractLsb' 2 2) (hreserved : v.extractLsb' 8 24 = w.extractLsb' 8 24) : v = w := by
  apply BitVec.eq_of_getLsbD_eq
  intro i hi
  by_cases h8 : 8 ≤ i
  · exact getLsbD_eq_of_extractLsb'_eq hreserved h8 hi
  by_cases h23 : 2 ≤ i ∧ i < 4
  · exact getLsbD_eq_of_extractLsb'_eq hsize h23.1 h23.2
  · exact hflags i (by simp only [List.mem_cons, List.not_mem_nil, or_false]; omega)

/-- Every value of `SIZE` but 3 is an element size's (R108). -/
theorem exists_ctrlStd_size {x : BitVec 2} (h : x ≠ 3#2) : ∃ z, (ctrlStd z).extractLsb' 2 2 = x := by
  have hx : ∀ x : BitVec 2, x ≠ 3#2 → x = 0#2 ∨ x = 1#2 ∨ x = 2#2 := by decide
  obtain rfl | rfl | rfl := hx x h
  · exact ⟨.byte, rfl⟩
  · exact ⟨.half, rfl⟩
  · exact ⟨.word, rfl⟩

/-- Settles O13: a standard control word has the fields' values, and the fields determine the word. -/
theorem legalControlWords : Obligations.LegalControlWords := by
  refine fun w => ⟨⟨fun h => ?_, ?_⟩, fun z => ctrlSize_eq_some, rfl, rfl, rfl, fun z h => ?_⟩
  · obtain ⟨z, hz⟩ := Option.isSome_iff_exists.mp h
    obtain rfl := ctrlSize_eq_some.mp hz
    cases z <;> decide
  · rintro ⟨h0, h1, hsize, h4, h5, h6, h7, hreserved⟩
    obtain ⟨z, hz⟩ := exists_ctrlStd_size hsize
    have hw : w = ctrlStd z := by
      refine eq_of_control_fields ?_ hz.symm ?_
      · simp only [List.forall_mem_cons, h0, h1, h4, h5, h6, h7, List.not_mem_nil, false_imp_iff, implies_true]
        cases z <;> decide
      · cases z <;> exact hreserved
    rw [hw, ctrlSize_ctrlStd]
    rfl
  · obtain rfl := ctrlSize_eq_some.mp h
    cases z <;> rfl

/-! ### Reserved command words, and sample words -/

/-- A word that decodes is 1 to 6, so a reserved word does not (R102). -/
theorem decodeH_ne_ok_of_reserved {c : Word}
    (h : (c.extractLsb' 0 8).toNat = 0 ∨ 7 ≤ (c.extractLsb' 0 8).toNat ∨ c.extractLsb' 8 24 ≠ 0#24) (i : Instr) :
    decodeH c ≠ .ok i := by
  intro hd
  rcases decodeH_ok hd with ⟨rfl, -⟩ | ⟨rfl, -⟩ | ⟨rfl, -⟩ | ⟨rfl, -⟩ | ⟨rfl, -⟩ | ⟨rfl, -⟩ <;> exact absurd h (by decide)

theorem hostCommand_of_not_decoded {c : Word} (h : ∀ i, decodeH c ≠ .ok i) (s : State) :
    hostCommand c s = raise .illegalCmd s := by
  unfold hostCommand
  split
  · exact absurd ‹_› (h _)
  · rfl

/-- Settles O12: the word does not decode, so the write raises `ILLEGAL_CMD`, and a state with a bit of `FAULT` set is a fault. -/
theorem reservedCommandWordFaults : Obligations.ReservedCommandWordFaults := by
  intro s a c armed hbase ha hreserved
  constructor
  · rw [hostStep_write_command armed hbase ha]
    exact hostCommand_of_not_decoded (decodeH_ne_ok_of_reserved hreserved) s
  · obtain ⟨b, hb, -⟩ := step_of_fault (s := { s with faults := s.faults.set .illegalCmd })
      (s.faults.set_ne_clear .illegalCmd)
    exact ⟨b, hb⟩

/-- Settles O11: the decoder runs on each sample word. -/
theorem sampleWordsDecode : Obligations.SampleWordsDecode := by
  unfold Obligations.SampleWordsDecode
  decide

end Sys2Proof.Machine
end

section
/-! SUPPORT. The timing table (`40_timing_table.md`): the words of the canned patterns (R139), the `TIMING` command (R135, R136),
mode selection (R134) and the bands of a frame (R133). -/

namespace Sys2Proof.Machine

/-! ### The pattern words -/

theorem toNat_not (b : Bool) : (!b).toNat = 1 - b.toNat := by
  cases b <;> rfl

/-- Below bit 16 a pattern word is its count (R109). -/
theorem runWord_mod {n : Nat} (hn : n < 65536) (hs vs : Bool) : runWord n hs vs % 65536 = n := by
  unfold runWord
  omega

theorem runWord_lt {n : Nat} (hn : n < 65536) (hs vs : Bool) : runWord n hs vs < 2 ^ 18 := by
  have := hs.toNat_lt
  have := vs.toNat_lt
  unfold runWord
  omega

/-- Bit 17 of a pattern word is its vsync level and the bits below do not depend on it (R109). -/
theorem runWord_split {n : Nat} (hn : n < 65536) (hs vs : Bool) :
    runWord n hs vs / 2 ^ 17 = vs.toNat ∧ runWord n hs vs % 2 ^ 17 = n + hs.toNat * 0x10000 := by
  have := hs.toNat_lt
  unfold runWord
  omega

/-- Two pattern words with opposite vsync levels and the rest alike differ in bit 17 alone. -/
theorem runWord_xor_not {n : Nat} (hn : n < 65536) (hs vs : Bool) :
    toReg (runWord n hs vs) ^^^ toReg (runWord n hs !vs) = 0x00020000#32 := by
  obtain ⟨hdiv, hmod⟩ := runWord_split hn hs vs
  obtain ⟨hdiv', hmod'⟩ := runWord_split hn hs !vs
  have hlt := runWord_lt hn hs vs
  have hlt' := runWord_lt hn hs !vs
  have hhigh : (runWord n hs vs ^^^ runWord n hs !vs) / 2 ^ 17 = 1 := by
    rw [Nat.xor_div_two_pow, hdiv, hdiv']
    cases vs <;> rfl
  have hlow : (runWord n hs vs ^^^ runWord n hs !vs) % 2 ^ 17 = 0 := by
    rw [Nat.xor_mod_two_pow, hmod, hmod', Nat.xor_self]
  apply BitVec.eq_of_toNat_eq
  rw [BitVec.toNat_xor, toReg_toNat (by omega), toReg_toNat (by omega), BitVec.toNat_ofNat]
  omega

/-- The vsync level of a pattern: the mode's asserted level in the asserted pattern, the other level in the released one (R139). -/
def vsyncLevel (c : Config) (m : OutputMode) : PatternKind → Bool
  | .asserted => (polarityOf c m).vsync
  | .released => !(polarityOf c m).vsync

theorem vsyncLevel_toNat (c : Config) (m : OutputMode) (k : PatternKind) :
    (vsyncLevel c m k).toNat =
      if k.number = 1 then (polarityOf c m).vsync.toNat else 1 - (polarityOf c m).vsync.toNat := by
  cases k with
  | released => exact toNat_not _
  | asserted => rfl

theorem patternWord_zero (c : Config) (m : OutputMode) (k : PatternKind) :
    patternWord c m k 0 =
      runWord (timingOf c m).hFrontPorch (!(polarityOf c m).hsync) (vsyncLevel c m k) := by
  cases k <;> rfl

theorem patternWord_one (c : Config) (m : OutputMode) (k : PatternKind) :
    patternWord c m k 1 = runWord (timingOf c m).hSyncWidth (polarityOf c m).hsync (vsyncLevel c m k) := by
  cases k <;> rfl

theorem patternWord_two (c : Config) (m : OutputMode) (k : PatternKind) :
    patternWord c m k 2 =
      runWord ((timingOf c m).hBackPorch + (timingOf c m).hActive) (!(polarityOf c m).hsync) (vsyncLevel c m k) := by
  cases k <;> rfl

/-- A word of a pattern is a run whose count and hsync level do not depend on the kind. -/
theorem patternWord_eq_runWord {c : Config} {m : OutputMode} (ht : (timingOf c m).Admissible) {j : Nat} (hj : j < 3) :
    ∃ n hs, n < 65536 ∧ ∀ k, patternWord c m k j = runWord n hs (vsyncLevel c m k) :=
  match j, hj with
  | 0, _ => ⟨_, _, ht.hFrontPorchFits, patternWord_zero c m⟩
  | 1, _ => ⟨_, _, ht.hSyncWidthFits, patternWord_one c m⟩
  | 2, _ => ⟨_, _, ht.hRestFits, patternWord_two c m⟩

/-- The counts of a pattern's words add up to `h_total` (R139). -/
theorem patternWord_counts {c : Config} {m : OutputMode} (ht : (timingOf c m).Admissible) (k : PatternKind) :
    patternWord c m k 0 % 65536 + patternWord c m k 1 % 65536 + patternWord c m k 2 % 65536 =
      hTotal (timingOf c m) := by
  rw [patternWord_zero, patternWord_one, patternWord_two, runWord_mod ht.hFrontPorchFits,
    runWord_mod ht.hSyncWidthFits, runWord_mod ht.hRestFits, hTotal, ← Nat.add_assoc]

/-- Settles O16: each word is a run, and the two kinds' runs differ in their vsync level alone. -/
theorem patternContents : Obligations.PatternContents := by
  constructor
  · intro c m k ht t ph pv vs
    refine ⟨?_, ?_, ?_, patternWord_counts ht k, fun j hj => ?_⟩
    · rw [patternWord_zero, runWord, vsyncLevel_toNat, toNat_not]
    · rw [patternWord_one, runWord, vsyncLevel_toNat]
    · rw [patternWord_two, runWord, vsyncLevel_toNat, toNat_not]
    · obtain ⟨n, hs, hn, hword⟩ := patternWord_eq_runWord ht hj
      rw [hword, hword, hword]
      exact ⟨runWord_lt hn hs _, runWord_xor_not hn hs _⟩
  · intro c hfp hsw hbp hact hpol
    simp [List.range_succ, patternWord, runWord, timingOf, polarityOf, hfp, hsw, hbp, hact, hpol]

/-! ### `TIMING` -/

@[simp] theorem modeOfNumber_number (m : OutputMode) : modeOfNumber m.number = some m := by
  cases m <;> rfl

theorem modeOfNumber_of_ge : ∀ {n : Nat}, 2 ≤ n → modeOfNumber n = none
  | _ + 2, _ => rfl

theorem execTiming_of_mode {s : State} {m : OutputMode} (h : s.args.mode.toNat = m.number) :
    execTiming s = .next { s with tq := timingQuery s.cfg m, err := .ok } := by
  rw [execTiming, argMode, h, modeOfNumber_number]
  rfl

theorem execTiming_refused {s : State} (h : 2 ≤ s.args.mode.toNat) :
    execTiming s = .next { s with err := .configurationError } := by
  rw [execTiming, argMode, modeOfNumber_of_ge h]
  rfl

/-- A number of a timing record, latched, is the number itself (R9, R10). -/
theorem toReg_toNat_of_lt_65536 {n : Nat} (h : n < 65536) : (toReg n).toNat = n :=
  toReg_toNat (Nat.lt_trans h (by decide))

/-- The latched line total is the sum of the latched bands (R132). -/
theorem timingQuery_vTotal (c : Config) (m : OutputMode) :
    (timingQuery c m).vTotal = (timingQuery c m).vFrontPorch + (timingQuery c m).vSyncWidth +
      (timingQuery c m).vBackPorch + (timingQuery c m).vActive := by
  simp only [timingQuery, Timing.vTotal, toReg, BitVec.ofNat_add]

/-- Settles O17: `TIMING` does not read what it writes, and R9 bounds every number of a record below `2^16`. -/
theorem timingLatchesTheRecord : Obligations.TimingLatchesTheRecord := by
  refine ⟨fun s m hm => ⟨timingQuery s.cfg m, execTiming_of_mode hm, execTiming_of_mode hm, fun hc => ?_⟩,
    fun s => execTiming_refused, rfl⟩
  obtain ⟨ht, -⟩ := Config.Admissible.timing hc m
  have hrest := ht.hRestFits
  have htotal := ht.vTotalFits
  rw [Timing.vTotal] at htotal
  have hpol : (polarityOf s.cfg m).hsync.toNat + 2 * (polarityOf s.cfg m).vsync.toNat < 65536 := by
    have := (polarityOf s.cfg m).hsync.toNat_lt
    have := (polarityOf s.cfg m).vsync.toNat_lt
    omega
  refine ⟨toReg_toNat_of_lt_65536 ht.hFrontPorchFits, toReg_toNat_of_lt_65536 ht.hSyncWidthFits,
    toReg_toNat_of_lt_65536 (by omega), toReg_toNat_of_lt_65536 (by omega), toReg_toNat_of_lt_65536 (by omega),
    toReg_toNat_of_lt_65536 (by omega), toReg_toNat_of_lt_65536 (by omega), toReg_toNat_of_lt_65536 (by omega),
    toReg_toNat_of_lt_65536 ht.vTotalFits, toReg_toNat_of_lt_65536 hpol, ?_⟩
  rintro rfl
  have hvActive : (timingQuery s.cfg .mode0).vActive = 480#32 := congrArg toReg hc.vActive0
  exact ⟨congrArg toReg hc.hActive0, hvActive, hvActive ▸ timingQuery_vTotal s.cfg .mode0⟩

/-! ### Mode selection -/

/-- `select_mode` tries the divisors of the narrower size first (R134); 0 divides no positive size. -/
theorem selectMode_eq_of_dvd {c : Config} (h0 : 0 < c.tt0.hActive) (h1 : 0 < c.tt1.hActive) (w : Nat) :
    selectMode c w =
      if w ∣ c.tt0.hActive then some .mode0 else if w ∣ c.tt1.hActive then some .mode1 else none := by
  by_cases hw : w = 0
  · subst hw
    rw [if_neg (fun h => Nat.ne_of_gt h0 (Nat.zero_dvd.mp h)), if_neg (fun h => Nat.ne_of_gt h1 (Nat.zero_dvd.mp h))]
    rfl
  · simp only [selectMode, if_neg hw, Nat.dvd_iff_mod_eq_zero]

/-- Settles O14: by whether the width divides 640, and else whether it divides 720. -/
theorem widthSelectsTheMode : Obligations.WidthSelectsTheMode := by
  intro c w hc
  have hsel (x : Nat) : selectMode c x = if x ∣ 640 then some .mode0 else if x ∣ 720 then some .mode1 else none := by
    rw [selectMode_eq_of_dvd hc.timing0.hActivePos hc.timing1.hActivePos, hc.hActive0, hc.hActive1]
  simp only [hsel]
  refine ⟨?_, ?_, ?_, by decide, by decide, by decide⟩ <;>
    · by_cases h0 : w ∣ 640
      · simp [h0]
      · by_cases h1 : w ∣ 720 <;> simp [h0, h1]

/-! ### Bands of a frame -/

/-- The four bands, each with the range of lines it holds (R133). -/
theorem bandOf_cases (t : Timing) (l : Nat) :
    (bandOf t l = .frontPorch ∧ l < t.vFrontPorch) ∨
    (bandOf t l = .sync ∧ t.vFrontPorch ≤ l ∧ l < t.vFrontPorch + t.vSyncWidth) ∨
    (bandOf t l = .backPorch ∧ t.vFrontPorch + t.vSyncWidth ≤ l ∧ l < activeStart t) ∨
    (bandOf t l = .active ∧ activeStart t ≤ l) := by
  by_cases h1 : l < t.vFrontPorch
  · exact .inl ⟨if_pos h1, h1⟩
  rw [bandOf, if_neg h1]
  by_cases h2 : l < t.vFrontPorch + t.vSyncWidth
  · exact .inr (.inl ⟨if_pos h2, by omega, h2⟩)
  rw [if_neg h2]
  by_cases h3 : l < activeStart t
  · exact .inr (.inr (.inl ⟨if_pos h3, by omega, h3⟩))
  · exact .inr (.inr (.inr ⟨if_neg h3, by omega⟩))

/-- Settles O15: the line's band holds it, and the ranges of the table exclude each other. -/
theorem bandsPartitionTheFrame : Obligations.BandsPartitionTheFrame := by
  intro t l hl
  have hcases := bandOf_cases t l
  rw [activeStart] at hcases
  obtain ⟨hb, h⟩ | ⟨hb, h⟩ | ⟨hb, h⟩ | ⟨hb, h⟩ := hcases <;>
    · simp only [hb, reduceCtorEq, true_iff, false_iff]
      omega

end Sys2Proof.Machine
end

section
/-! SUPPORT. The encoder parameter calculator (`41_encoder_calc.md` R150 to R161): when `enc_params` refuses, what it answers, and
`ENCCALC`. -/

namespace Sys2Proof.Machine

/-! ### `enc_params` -/

/-- No expansion: a depth outside the set (R159). -/
theorem expansionOf_eq_none_iff {c : Config} {d : Nat} : expansionOf c d = none ↔ d ∉ [1, 2, 4, 8, 16, 32] := by
  constructor
  · intro hnone hmem
    simp only [List.mem_cons, List.not_mem_nil, or_false] at hmem
    obtain rfl | rfl | rfl | rfl | rfl | rfl := hmem <;> cases hnone
  · intro hmem
    cases he : expansionOf c d with
    | none => rfl
    | some e =>
      refine absurd ?_ hmem
      simp only [List.mem_cons, List.not_mem_nil, or_false]
      exact expansionOf_isSome he

/-- The answer for a depth with an expansion, a scale from 1 on and a count below 32 (R161). -/
theorem encParams_of_expansion {c : Config} {d k : Nat} {e : Expansion} (he : expansionOf c d = some e) (hk : k ≠ 0)
    (hn : nShifts d k < 32) :
    encParams c d k = some { expand := packExpand e, shift := packShift d k, bswap := byteSwap d } := by
  simp only [encParams, he, if_neg hk, if_neg (Nat.not_le.mpr hn)]

/-- The refusals of `enc_params`: no expansion, scale 0, or a count the word cannot hold (R156, R159). -/
theorem encParams_eq_none_iff {c : Config} {d k : Nat} :
    encParams c d k = none ↔ expansionOf c d = none ∨ k = 0 ∨ 32 ≤ nShifts d k := by
  constructor
  · intro hnone
    cases he : expansionOf c d with
    | none => exact .inl rfl
    | some e =>
      right
      by_cases hk : k = 0
      · exact .inl hk
      · refine .inr (Nat.not_lt.mp fun hn => ?_)
        rw [encParams_of_expansion he hk hn] at hnone
        cases hnone
  · intro hcannot
    cases hp : encParams c d k with
    | none => rfl
    | some p =>
      obtain ⟨e, he, hk, hn, -⟩ := encParams_some hp
      obtain h | h | h := hcannot
      · rw [he] at h
        cases h
      · exact absurd h hk
      · exact absurd hn (Nat.not_lt.mpr h)

/-- Depth 1 has the count 0 at every scale, so one answer for all of them (R156, R161). -/
theorem encParams_depth_one (c : Config) {k : Nat} (hk : k ≠ 0) :
    encParams c 1 k = some ⟨0x0390E439, 0x00000001, false⟩ := by
  have hn : nShifts 1 k = 0 := Nat.zero_mul k
  rw [encParams_of_expansion rfl hk (by omega), packShift, hn]
  rfl

/-- Settles O18: by the refusals and the answer of `enc_params`; the table is the answer evaluated. -/
theorem encoderParameters : Obligations.EncoderParameters := by
  intro c
  refine ⟨fun d k => ?_, fun d k p hp => ?_, ⟨encParams_depth_one c (by decide), encParams_depth_one c (by decide)⟩,
    ⟨rfl, rfl⟩, ⟨rfl, rfl⟩, ⟨rfl, rfl⟩, ⟨rfl, rfl⟩, ⟨rfl, rfl⟩, fun k hk => ?_⟩
  · rw [encParams_eq_none_iff, expansionOf_eq_none_iff, nShifts, perWord]
  · obtain ⟨e, he, -, -, rfl⟩ := encParams_some hp
    exact ⟨e, he, rfl, rfl, rfl⟩
  · rw [encParams_depth_one c (by omega)]
    exact nofun

/-! ### `ENCCALC` -/

theorem execEnccalc_answered {s : State} {p : EncParams}
    (h : encParams s.cfg s.args.depth.toNat s.args.hscale.toNat = some p) :
    execEnccalc s =
      .next { s with eq := { expand := toReg p.expand, shift := toReg p.shift, bswap := p.bswap }, err := .ok } := by
  rw [execEnccalc, argDepth, argHscale, h]
  rfl

theorem execEnccalc_refused {s : State} (h : encParams s.cfg s.args.depth.toNat s.args.hscale.toNat = none) :
    execEnccalc s = .next { s with err := .configurationError } := by
  rw [execEnccalc, argDepth, argHscale, h]
  rfl

/-- Settles O20: the answer and the refusal, and what `enc_params` says of the operands of each corner case. -/
theorem enccalcLatchesTheAnswer : Obligations.EnccalcLatchesTheAnswer := by
  refine fun s => ⟨fun p => execEnccalc_answered, execEnccalc_refused, fun hd hk => ?_, fun hcorner => ?_,
    fun hd hk => ?_, rfl⟩
  · have hp := encParams_depth_one s.cfg (k := 720) (by decide)
    exact ⟨_, execEnccalc_answered (by rw [hd, hk]; exact hp), rfl⟩
  · refine execEnccalc_refused (encParams_eq_none_iff.mpr ?_)
    obtain ⟨hd, hk⟩ | ⟨hd, hk⟩ | ⟨hd, hk⟩ := hcorner <;> rw [hd, hk]
    · exact .inr (.inr (by decide))
    · exact .inl rfl
    · exact .inr (.inl rfl)
  · have hp : encParams s.cfg 16 2 = some ⟨packExpand s.cfg.expand16, 0x00000410, true⟩ := rfl
    exact execEnccalc_answered (by rw [hd, hk]; exact hp)

end Sys2Proof.Machine
end

section
/-! SUPPORT. The geometry record (`42_program_builder.md` R171, R172, R174) and the program built from it: the descriptor of each line as
the decoder reads it (R175 to R179), and the rows the active lines read (R178, R188). -/

namespace Sys2Proof.Machine

/-! ### When `geometry` refuses -/

/-- The refusals of `geometry`, in the order of its tests (R171). -/
theorem geometry_eq_none_iff {c : Config} {w h d : Nat} :
    geometry c w h d = none ↔
      expansionOf c d = none ∨ w = 0 ∨ h = 0 ∨
        ∀ m, selectMode c w = some m →
          (timingOf c m).vActive % h ≠ 0 ∨ (1 < (timingOf c m).hActive / w ∧ d < 8) ∨
            encParams c d ((timingOf c m).hActive / w) = none := by
  unfold geometry
  cases expansionOf c d with
  | none => simp
  | some e =>
    by_cases hzero : w = 0 ∨ h = 0
    · simp only [if_pos hzero, true_iff]
      exact .inr (or_assoc.mp (.inl hzero))
    obtain ⟨hw, hh⟩ := not_or.mp hzero
    simp only [reduceCtorEq, hw, hh, false_or]
    cases selectMode c w with
    | none => simp
    | some m =>
      simp only [Option.some.injEq, forall_eq']
      by_cases hv : (timingOf c m).vActive % h ≠ 0
      · simp [hv]
      by_cases hnarrow : 1 < (timingOf c m).hActive / w ∧ d < 8
      · simp [hnarrow]
      simp only [hv, hnarrow, false_or]
      cases encParams c d ((timingOf c m).hActive / w) <;> simp

theorem State.not_hasSession {s : State} (hs : s.sesState = .none) : ¬ s.hasSession = true :=
  fun h => State.hasSession_iff.mp h hs

/-- CONSTRUCT answers a refused geometry with `ConfigurationError`, before it asks for anything (R171, R183). -/
theorem execConstruct_refusedGeometry {s : State} (hs : s.sesState = .none)
    (hg : geometry s.cfg s.args.width.toNat s.args.height.toNat s.args.depth.toNat = none) :
    execConstruct s = .next { s with err := .configurationError } := by
  rw [execConstruct, if_neg (State.not_hasSession hs), argWidth, argHeight, argDepth, hg]
  rfl

/-! ### The fields of the record -/

/-- The element size in bytes (R171). -/
theorem Geometry.Of.esize_bytes {c : Config} {w h d : Nat} {g : Geometry} (hg : Geometry.Of c w h d g) :
    g.esize.bytes = if g.hScale = 1 then 4 else d / 8 := by
  by_cases h1 : g.hScale = 1
  · rw [if_pos h1, hg.esize, if_pos h1]
    rfl
  · rw [if_neg h1]
    have := (hg.esize_scaled h1).1
    omega

/-- Settles O21: the refusals from the tests of `geometry`, and the record from the laws of the builder. -/
theorem geometryRecord : Obligations.GeometryRecord := by
  intro c w h d hc
  refine ⟨?_, ?_, fun g hgeom => ?_⟩
  · rw [geometry_eq_none_iff, expansionOf_eq_none_iff]
  · rintro hnone s rfl hs rfl rfl rfl
    exact execConstruct_refusedGeometry hs hnone
  · have hg := geometry_some hgeom
    obtain ⟨hw, hh, hpitch, hfb, hprog, hscale, -, vscale, -⟩ := hg.bounds hc
    have hquot : g.hScale = (timingOf c g.mode).hActive / w :=
      Nat.eq_div_of_mul_eq_left hg.width hg.hDivides.symm
    have vquot : g.vScale = (timingOf c g.mode).vActive / h :=
      Nat.eq_div_of_mul_eq_left hg.height hg.vDivides.symm
    exact ⟨hg.mode, hquot, hg.hDivides.symm, vquot, hg.vDivides.symm, hscale, vscale, hg.enc, hg.pitch, hg.fbWords,
      hg.descw, hg.progWords, hg.esize_bytes, hw, hh, hpitch, hfb, hprog⟩

/-! ### The sizes -/

/-- The pitch holds a row, and no smaller number of words does (R172). -/
theorem pitchOf_le_iff {w d p : Nat} : pitchOf w d ≤ p ↔ w * d ≤ 32 * p := by
  unfold pitchOf
  omega

/-- Settles O22: the pitch is a quotient rounded up, and the sizes are fields of the record. -/
theorem sizesAreComputedBeforehand : Obligations.SizesAreComputedBeforehand := by
  refine ⟨fun w d => ⟨pitchOf_le_iff.mp (Nat.le_refl _), fun p => pitchOf_le_iff.mpr⟩, by decide,
    fun c w h d fb g hgeom => ?_, fun c w h d w' h' d' g g' hgeom hgeom' hmode hscale => ?_⟩
  · have hg := geometry_some hgeom
    exact ⟨hg.pitch, hg.fbWords, fun h1 => by rw [hg.descw, if_pos h1],
      fun h1 => by rw [hg.descw, if_neg (Nat.ne_of_gt h1)], hg.progWords, hg.buildProgram_length fb⟩
  · have hg := geometry_some hgeom
    have hg' := geometry_some hgeom'
    rw [hg.progWords, hg'.progWords, hg.descw, hg'.descw, hmode]
    simp only [hscale]

/-! ### The descriptors of a program -/

theorem descWords_short {c : Config} {g : Geometry} (h2 : g.descw = 2) (z : ElemSize) (len raddr : Nat) :
    descWords c g z len raddr = [toReg len, toReg raddr] :=
  if_pos h2

theorem descWords_long {c : Config} {g : Geometry} (h4 : g.descw = 4) (z : ElemSize) (len raddr : Nat) :
    descWords c g z len raddr = [ctrlStd z, encqAddr c, toReg len, toReg raddr] :=
  if_neg (by omega)

/-- Descriptor `v_total` of a program is the terminal (R179). -/
theorem buildProgram_take_terminal {c : Config} {g : Geometry} (h24 : g.descw = 2 ∨ g.descw = 4) (w fb : Nat) :
    ((buildProgram c g w fb).drop (g.descw * (timingOf c g.mode).vTotal)).take g.descw = descWords c g .word 0 0 := by
  rw [buildProgram_terminal h24, List.take_of_length_le (Nat.le_of_eq (descWords_length h24 ..))]

section

variable {c : Config} {w h d : Nat} {g : Geometry} (hc : c.Admissible) (hg : Geometry.Of c w h d g) (fb : Nat) {l : Nat}
  (hl : l < (timingOf c g.mode).vTotal)
include hc hg hl

/-- No line's length word is 0, so only the terminal decodes as one (R107, R179). -/
theorem Geometry.Of.lineLength_word_ne_zero : toReg (lineLength c g w l) ≠ 0#32 := by
  intro h0
  obtain ⟨hpos, hle, -⟩ := hg.line_ok hc (fb := 0) rfl hl
  have := congrArg BitVec.toNat h0
  rw [toReg_toNat (by omega), BitVec.toNat_ofNat] at this
  omega

/-- In format S the decoder reads each line's transfer (R104, R176). -/
theorem Geometry.Of.line_decodeS (h2 : g.descw = 2) :
    ∃ w0 w1, ((buildProgram c g w fb).drop (g.descw * l)).take g.descw = [w0, w1] ∧
      decodeS w0 w1 = .xferS (toReg (lineLength c g w l)) (toReg (lineAddr c g fb l)) := by
  refine ⟨_, _, ?_, if_neg (hg.lineLength_word_ne_zero hc hl)⟩
  rw [buildProgram_segment (.inl h2) w fb hl, segment_eq hg, descWords_short h2]

/-- In format L the decoder reads each line's transfer, with the standard control word and the queue port (R105, R176). -/
theorem Geometry.Of.line_decodeL (h4 : g.descw = 4) :
    ∃ w0 w1 w2 w3, ((buildProgram c g w fb).drop (g.descw * l)).take g.descw = [w0, w1, w2, w3] ∧
      decodeL w0 w1 w2 w3 =
        .ok (.xferL (lineSize c g l) (encqAddr c) (toReg (lineLength c g w l)) (toReg (lineAddr c g fb l))) := by
  refine ⟨_, _, _, _, ?_, (decodeL_ctrlStd ..).trans (by rw [if_neg (hg.lineLength_word_ne_zero hc hl)])⟩
  rw [buildProgram_segment (.inr h4) w fb hl, segment_eq hg, descWords_long h4]

end

/-- Settles O23: each line's words decode to its transfer, whose operands are those of the line's band. -/
theorem programReproducesTheBands : Obligations.ProgramReproducesTheBands := by
  intro c w h d fb g hc hgeom t words row
  have hg := geometry_some hgeom
  refine ⟨fun h2 => ⟨fun l hl => ?_, ?_⟩, fun h4 => ⟨fun l hl => ?_, ?_⟩⟩
  · obtain ⟨w0, w1, hwords, hdecode⟩ := hg.line_decodeS hc fb.toNat hl h2
    have hscale : g.hScale = 1 := by
      obtain ⟨h1, -⟩ | ⟨-, h4⟩ := hg.descw_cases
      · exact h1
      · omega
    refine ⟨w0, w1, hwords, hdecode.trans ?_⟩
    unfold lineLength lineAddr
    cases bandOf t l with
    | frontPorch | sync | backPorch => rfl
    | active => exact congrArg (Instr.xferS · _) (congrArg toReg (if_pos hscale))
  · exact (buildProgram_take_terminal (.inl h2) w fb.toNat).trans (descWords_short h2 ..)
  · obtain ⟨w0, w1, w2, w3, hwords, hdecode⟩ := hg.line_decodeL hc fb.toNat hl h4
    have hscale : g.hScale ≠ 1 := by
      obtain ⟨-, h2⟩ | ⟨h1, -⟩ := hg.descw_cases
      · omega
      · exact h1
    refine ⟨w0, w1, w2, w3, hwords, hdecode.trans ?_⟩
    unfold lineLength lineAddr lineSize
    rw [hg.esize, if_neg hscale, if_neg hscale]
    cases bandOf t l with
    | frontPorch | sync | backPorch | active => rfl
  · exact (buildProgram_take_terminal (.inr h4) w fb.toNat).trans (descWords_long h4 ..)

/-! ### The rows of the active lines -/

/-- Every line from `active_start` on is active (R133). -/
theorem bandOf_of_ge {t : Timing} {l : Nat} (h : activeStart t ≤ l) : bandOf t l = .active := by
  have hstart : activeStart t = t.vFrontPorch + t.vSyncWidth + t.vBackPorch := rfl
  obtain ⟨-, h'⟩ | ⟨-, -, h'⟩ | ⟨-, -, h'⟩ | ⟨hb, -⟩ := bandOf_cases t l
  · omega
  · omega
  · omega
  · exact hb

/-- The lines of row `r` (R178). -/
theorem sourceRow_line {t : Timing} {g : Geometry} {r i : Nat} (hi : i < g.vScale) :
    sourceRow t g (activeStart t + g.vScale * r + i) = r := by
  rw [sourceRow, Nat.add_assoc, Nat.add_sub_cancel_left, Nat.mul_add_div (by omega), Nat.div_eq_of_lt hi, Nat.add_zero]

/-- An active line is one of the `v_scale` lines of its source row (R178). -/
theorem line_of_sourceRow {t : Timing} (g : Geometry) {l : Nat} (h : activeStart t ≤ l) :
    l = activeStart t + g.vScale * sourceRow t g l + (l - activeStart t) % g.vScale := by
  have := Nat.div_add_mod (l - activeStart t) g.vScale
  rw [sourceRow]
  omega

theorem rowAddr_succ (g : Geometry) (fb r : Nat) : rowAddr g fb (r + 1) = rowAddr g fb r + 4 * g.pitch := by
  rw [rowAddr, rowAddr, Nat.mul_succ, Nat.add_assoc]

/-- Settles O24: division by `v_scale` with remainder, and a row's bytes against the pitch. -/
theorem activeLinesReadTheirRows : Obligations.ActiveLinesReadTheirRows := by
  intro c w h d fb g hgeom t
  have hg := geometry_some hgeom
  have htotal : t.vTotal = activeStart t + h * g.vScale := by
    rw [Nat.mul_comm h, ← hg.vDivides]
    rfl
  refine ⟨htotal, fun r i hr hi => ⟨?_, bandOf_of_ge (by omega), sourceRow_line hi⟩, fun l hl hband => ?_⟩
  · have hrows : g.vScale * (r + 1) ≤ g.vScale * h := Nat.mul_le_mul_left _ hr
    rw [Nat.mul_succ] at hrows
    rw [htotal, Nat.mul_comm h]
    omega
  · obtain ⟨hstart, hactive⟩ := bandOf_active hl hband
    have hrow : sourceRow t g l < h := hg.sourceRow_lt hl hband
    have hscale : 0 < g.vScale := Nat.pos_of_ne_zero fun h0 => by
      rw [hg.vDivides, h0, Nat.zero_mul] at hactive
      omega
    have hlength : lineLength c g w l = if g.hScale = 1 then g.pitch else w := by
      rw [lineLength, hband]
    have hbytes := hg.row_bytes
    have hinside := hg.row_inside hrow
    rw [← hlength] at hbytes
    rw [rowAddr_succ]
    refine ⟨⟨_, _, hrow, Nat.mod_lt _ hscale, line_of_sourceRow g hstart⟩, Nat.add_le_add_left hbytes _, ?_, fun hfb => ?_⟩
    · rw [rowAddr]
      omega
    · rw [rowAddr, Nat.mul_assoc]
      omega

end Sys2Proof.Machine
end

section
/-! SUPPORT. CONSTRUCT (`42_program_builder.md` R180 to R187): each of its checks with the state it leaves, the state of a success, and
what neither a success nor a failure changes. -/

namespace Sys2Proof.Machine

/-! ### The environment's answers -/

/-- A region held counts as live for the next request (R181). -/
theorem admissibleAlloc_acquire (s : State) (r : Region) (n : Nat) (a : Word) :
    admissibleAlloc (s.acquire r) n a =
      (admissibleAlloc s n a && Region.disjoint { base := a.toNat, words := n } r) := by
  simp [admissibleAlloc, List.all_append, Bool.and_assoc]

/-- A channel claim refused from the list (R182). -/
theorem State.drawClaim_none {s : State} {rest : List (Option (BitVec 4 × BitVec 4))} (h : s.claims = none :: rest) :
    s.drawClaim = (none, { s with claims := rest }) := by
  simp [State.drawClaim, h]

/-- An admissible region of at least one word is no live region (R181). -/
theorem not_mem_live_of_admissibleAlloc {s : State} {n : Nat} {a : Word} (hn : 1 ≤ n)
    (h : admissibleAlloc s n a = true) : { base := a.toNat, words := n } ∉ s.live := by
  obtain ⟨-, -, hdisjoint⟩ := admissibleAlloc_iff.mp h
  exact not_mem_of_disjoint hn hdisjoint

/-- A region given back right after it was put at the end of `LIVE` (R180). -/
theorem State.release_last {s : State} {l : List Region} {r : Region} (hlive : s.live = l ++ [r]) (h : r ∉ l) :
    s.release r = { s with live := l, envlog := s.envlog ++ [.free r.base] } := by
  rw [State.release, hlive, erase_append_self h]

/-! ### The checks, one by one (R183) -/

theorem execConstruct_session {s : State} (h : s.sesState ≠ .none) :
    execConstruct s = .next { s with err := .sessionConflict } :=
  if_pos (State.hasSession_iff.mpr h)

theorem execConstruct_accepted {s : State} {g : Geometry} (hs : s.sesState = .none)
    (hg : geometry s.cfg s.args.width.toNat s.args.height.toNat s.args.depth.toNat = some g) :
    execConstruct s = constructFramebuffer g s := by
  rw [execConstruct, if_neg (State.not_hasSession hs), argWidth, argHeight, argDepth, hg]

theorem constructFramebuffer_refused {g : Geometry} {s t : State} (h : s.drawAlloc g.fbWords = (none, t)) :
    constructFramebuffer g s = .next { t.log (.allocFail g.fbWords) with err := .resourceExhausted } := by
  rw [constructFramebuffer, h]
  rfl

theorem constructFramebuffer_granted {g : Geometry} {s t : State} {fb : Word} (h : s.drawAlloc g.fbWords = (some fb, t)) :
    constructFramebuffer g s = constructProgram g fb (t.acquire { base := fb.toNat, words := g.fbWords }) := by
  rw [constructFramebuffer, h]

theorem constructProgram_refused {g : Geometry} {fb : Word} {s t : State} (h : s.drawAlloc g.progWords = (none, t)) :
    constructProgram g fb s =
      .next
        { (t.log (.allocFail g.progWords)).release { base := fb.toNat, words := g.fbWords } with
          err := .resourceExhausted } := by
  rw [constructProgram, h]
  rfl

theorem constructProgram_granted {g : Geometry} {fb prog : Word} {s t : State}
    (h : s.drawAlloc g.progWords = (some prog, t)) :
    constructProgram g fb s = constructClaim g fb prog (t.acquire { base := prog.toNat, words := g.progWords }) := by
  rw [constructProgram, h]

theorem constructClaim_refused {g : Geometry} {fb prog : Word} {s t : State} (h : s.drawClaim = (none, t)) :
    constructClaim g fb prog s =
      .next
        { ((t.log .claimFail).release { base := prog.toNat, words := g.progWords }).release
            { base := fb.toNat, words := g.fbWords } with
          err := .channelUnavailable } := by
  rw [constructClaim, h]
  rfl

theorem constructClaim_granted {g : Geometry} {fb prog : Word} {a b : BitVec 4} {s t : State}
    (h : s.drawClaim = (some (a, b), t)) :
    constructClaim g fb prog s = .next { (t.log (.claim a b)).install g fb prog a b with err := .ok } := by
  rw [constructClaim, h]
  rfl

/-! ### The requests answered from the lists -/

section

variable {s : State} {g : Geometry} {fb : Word} (hs : s.sesState = .none)
  (hg : geometry s.cfg s.args.width.toNat s.args.height.toNat s.args.depth.toNat = some g)
include hs hg

theorem execConstruct_noFramebuffer {as : List (Option Word)} (ha : s.allocs = none :: as) :
    execConstruct s = .next
      { s with err := .resourceExhausted, allocs := as, envlog := s.envlog ++ [.allocFail g.fbWords] } := by
  rw [execConstruct_accepted hs hg, constructFramebuffer_refused (State.drawAlloc_none ha)]
  rfl

variable (hfb : admissibleAlloc s g.fbWords fb = true)
include hfb

/-- The framebuffer granted: CONSTRUCT goes on to the program request, the framebuffer held. -/
theorem execConstruct_framebuffer {as : List (Option Word)} (ha : s.allocs = some fb :: as) :
    execConstruct s =
      constructProgram g fb (({ s with allocs := as } : State).acquire { base := fb.toNat, words := g.fbWords }) := by
  rw [execConstruct_accepted hs hg, constructFramebuffer_granted (State.drawAlloc_cons ha hfb)]

theorem execConstruct_noProgram {as : List (Option Word)} (ha : s.allocs = some fb :: none :: as) :
    execConstruct s = .next
      { s with
        err := .resourceExhausted
        allocs := as
        envlog := s.envlog ++ [.alloc fb.toNat g.fbWords, .allocFail g.progWords, .free fb.toNat] } := by
  have hnot := not_mem_live_of_admissibleAlloc (geometry_some hg).fbWordsPos hfb
  rw [execConstruct_framebuffer hs hg hfb ha, constructProgram_refused (State.drawAlloc_none rfl),
    State.release_last rfl hnot]
  simp [State.log, State.acquire]

variable {prog : Word} {as : List (Option Word)} (ha : s.allocs = some fb :: some prog :: as)
  (hprog : admissibleAlloc s g.progWords prog = true)
  (hapart : Region.disjoint { base := prog.toNat, words := g.progWords } { base := fb.toNat, words := g.fbWords } = true)
include ha hprog hapart

/-- Both regions granted: CONSTRUCT goes on to the channel claim, both regions held. -/
theorem execConstruct_regions :
    execConstruct s =
      constructClaim g fb prog
        ((({ s with allocs := as } : State).acquire { base := fb.toNat, words := g.fbWords }).acquire
          { base := prog.toNat, words := g.progWords }) := by
  rw [execConstruct_framebuffer hs hg hfb ha, constructProgram_granted (State.drawAlloc_cons rfl ?_)]
  · rfl
  · rw [admissibleAlloc_acquire, hapart, Bool.and_true]
    exact hprog

theorem execConstruct_noChannels {cs : List (Option (BitVec 4 × BitVec 4))} (hclaims : s.claims = none :: cs) :
    execConstruct s = .next
      { s with
        err := .channelUnavailable
        allocs := as
        claims := cs
        envlog := s.envlog ++
          [.alloc fb.toNat g.fbWords, .alloc prog.toNat g.progWords, .claimFail, .free prog.toNat, .free fb.toNat] } := by
  have hof := geometry_some hg
  have hfbNot := not_mem_live_of_admissibleAlloc hof.fbWordsPos hfb
  have hprogNot : { base := prog.toNat, words := g.progWords } ∉ s.live ++ [{ base := fb.toNat, words := g.fbWords }] :=
    not_mem_live_of_admissibleAlloc (s := s.acquire { base := fb.toNat, words := g.fbWords })
      (Nat.le_trans (by decide) hof.progWordsPos) (by rw [admissibleAlloc_acquire, hprog, hapart]; rfl)
  rw [execConstruct_regions hs hg hfb ha hprog hapart, constructClaim_refused (State.drawClaim_none (rest := cs) ?_),
    State.release_last rfl hprogNot, State.release_last rfl hfbNot]
  · simp [State.log, State.acquire]
  · exact hclaims

theorem execConstruct_succeeds {a b : BitVec 4} {cs : List (Option (BitVec 4 × BitVec 4))}
    (hclaims : s.claims = some (a, b) :: cs) (hab : a ≠ b) :
    execConstruct s = .next { s.constructed g fb prog a b with allocs := as, claims := cs } := by
  rw [execConstruct_regions hs hg hfb ha hprog hapart, constructClaim_granted (State.drawClaim_cons (rest := cs) ?_ hab)]
  · rfl
  · exact hclaims

end

/-- The control value by the horizontal scale, which decides the descriptor's width (R33, R174). -/
theorem Geometry.Of.cmdCtrlWord_descw {c : Config} {w h d : Nat} {g : Geometry} (hg : Geometry.Of c w h d g) :
    cmdCtrlWord g.descw = if g.hScale = 1 then 0x0000007B#32 else 0x000000BB#32 := by
  obtain ⟨h1, hw⟩ | ⟨h1, hw⟩ := hg.descw_cases
  · rw [if_pos h1, hw]
    rfl
  · rw [if_neg h1, hw]
    rfl

/-- Settles O25: the state of a success, written out field by field. -/
theorem constructSucceeds : Obligations.ConstructSucceeds := by
  intro s g fb prog a b as cs hs hg ha hclaims hfb hprog hapart hab
  rw [← (geometry_some hg).cmdCtrlWord_descw]
  refine (execConstruct_succeeds hs hg hfb ha hprog hapart hclaims hab).trans ?_
  simp only [State.constructed, State.acquire, State.log, State.install, List.append_assoc]
  rfl

/-- Settles O26: one lemma for each check. -/
theorem constructChecksInOrder : Obligations.ConstructChecksInOrder :=
  fun _ => ⟨execConstruct_session, fun hs => ⟨execConstruct_refusedGeometry hs, fun _ hg =>
    ⟨fun _ => execConstruct_noFramebuffer hs hg, fun _ hfb =>
      ⟨fun _ => execConstruct_noProgram hs hg hfb, fun _ _ _ ha hclaims hprog hapart =>
        execConstruct_noChannels hs hg hfb ha hprog hapart hclaims⟩⟩⟩⟩

/-! ### Whatever the environment answers -/

/-- A CONSTRUCT fails without a trace or succeeds. -/
theorem execConstruct_next {s t : State} (h : execConstruct s = .next t) :
    s.FailedConstruct t ∨ ∃ g fb prog a b, s.Constructed t g fb prog a b := by
  obtain ⟨u, hu, hcases⟩ := execConstruct_cases s
  rw [hu] at h
  cases h
  exact hcases

/-- Settles O27: a CONSTRUCT that does not end with `OK` is a failed one. -/
theorem failedConstructLeavesNoTrace : Obligations.FailedConstructLeavesNoTrace := by
  intro s t h herr
  obtain ⟨-, hlog, hframe, hearly⟩ | ⟨g, fb, prog, a, b, hok⟩ := execConstruct_next h
  · exact ⟨hframe, hlog, hearly⟩
  · exact absurd hok.err herr

/-- Word `j` of a run of words, read where the run was written (R184). -/
theorem Memory.writeWords_getElem? {m : Memory} (hm : m.wf) (a : Nat) {ws : List Word} {j : Nat} (hj : j < ws.length) :
    ws[j]? = some (BitVec.ofNat 32 ((m.writeWords a ws).readLE (a + 4 * j) 4)) := by
  rw [← Memory.wordsAt_get _ a ws.length hj, Memory.wordsAt_writeWords hm]

section

variable {s t : State} {g : Geometry} {fb prog : Word} {a b : BitVec 4} (h : s.Constructed t g fb prog a b)
include h

theorem State.Constructed.fbBase : t.ses.fbBase = fb := by
  rw [h.result]
  rfl

theorem State.Constructed.progBase : t.ses.progBase = prog := by
  rw [h.result]
  rfl

theorem State.Constructed.ram :
    t.ram = s.ram.writeWords prog.toNat (buildProgram s.cfg g s.args.width.toNat fb.toNat) := by
  rw [h.result]
  rfl

/-- What a successful CONSTRUCT leaves unchanged (R186). -/
theorem State.Constructed.frame :
    t = { s with
          sesState := t.sesState, err := t.err, ses := t.ses, enc := t.enc
          cmd := { s.cmd with ctrl := t.cmd.ctrl }
          pix := { s.pix with ctrl := t.pix.ctrl, waddr := t.pix.waddr }
          ram := t.ram, live := t.live, envlog := t.envlog
          allocs := t.allocs, claims := t.claims, drawn := t.drawn } := by
  rw [h.result]
  rfl

end

/-- Settles O29: a failure changes the code, the log and the answers alone; a success writes the program and nothing else in RAM, at
regions the environment may give. -/
theorem constructFrame : Obligations.ConstructFrame := by
  intro s t hram h
  obtain hfail | ⟨g, fb, prog, a, b, hok⟩ := execConstruct_next h
  · refine ⟨?_, fun _ x => ?_, fun herr => absurd herr hfail.1⟩
    · rw [hfail.frame]
    · rw [hfail.frame]
  · have hlength : (buildProgram s.cfg g s.args.width.toNat fb.toNat).length = g.progWords :=
      (geometry_some hok.geom).buildProgram_length fb.toNat
    obtain ⟨hfbAligned, hfbRam, hfbLive⟩ := admissibleAlloc_iff.mp hok.fbOk
    obtain ⟨hprogAligned, hprogRam, hprogLive⟩ := admissibleAlloc_iff.mp hok.progOk
    refine ⟨hok.frame, fun herr => absurd hok.err herr, fun _ => ⟨g, hok.geom, ?_⟩⟩
    rw [hok.fbBase, hok.progBase, hok.ram]
    exact ⟨fun j hj => Memory.writeWords_getElem? hram _ (hlength ▸ hj),
      fun x hx => Memory.read_writeWords_outside hram (hlength ▸ hx), hprogAligned, hfbAligned, inRam_iff.mpr hprogRam,
      inRam_iff.mpr hfbRam, hok.apart,
      fun q hq => ⟨Region.disjoint_iff.mpr (hprogLive q hq), Region.disjoint_iff.mpr (hfbLive q hq)⟩⟩

end Sys2Proof.Machine
end

section
/-! SUPPORT. The session commands (`43_session_commands.md` R200 to R207): what START and STOP do in each session state, STOP as the
way back to reset (R203), and the table of the host commands (R207). -/

namespace Sys2Proof.Machine

/-! ### START -/

theorem execStart_none {s : State} (h : s.sesState = .none) : execStart s = raise .badState s := by
  unfold execStart
  rw [h]

theorem execStart_running {s : State} (h : s.sesState = .running) : execStart s = returnErr .sessionConflict s := by
  unfold execStart
  rw [h]

theorem State.Inv.built {s : State} (hi : s.Inv) (h : s.sesState = .built) : ∃ g, s.Bound g ∧ s.Built := by
  obtain ⟨g, hb, hbu | ⟨k, hp⟩⟩ := hi.bound (by simp [h])
  · exact ⟨g, hb, hbu⟩
  · rw [hp.state] at h
    cases h

/-- The encoder's byte swap is the calculator's for the depth of the session (R158, R186). -/
theorem State.Bound.enc_bswap {s : State} {g : Geometry} (hb : s.Bound g) :
    s.enc.bswap = byteSwap s.ses.depth.toNat := by
  obtain ⟨e, -, -, -, henc⟩ := encParams_some hb.of.enc
  rw [hb.encBswap, henc]

/-- START on a built session leaves the command channel ready to fetch (R200, R223). -/
theorem State.Bound.startPlayback_cmdReady {s : State} {g : Geometry} (hb : s.Bound g) :
    s.startPlayback.cmdReady = true := by
  simp [State.cmdReady, hb.enabled]

/-- `IRQ_STAT` right after START: enabled, with a session reference, nothing pending, the handler armed (R36, R200). -/
theorem State.Built.startPlayback_irqStat {s : State} (hbu : s.Built) :
    readReg s.startPlayback .irqStat = 0x0000000A#32 := by
  simp only [readReg, State.startPlayback_irq, hbu.irq]
  decide

/-- `ENC_CTRL` right after START of a session of depth 32: enabled, no byte swap (R35, R200). -/
theorem State.Bound.startPlayback_encCtrl {s : State} {g : Geometry} (hb : s.Bound g) (hd : s.ses.depth = 32#32) :
    readReg s.startPlayback .encCtrl = 1#32 := by
  have hswap : s.enc.bswap = false := by rw [hb.enc_bswap, hd]; rfl
  simp only [readReg, State.startPlayback_enc, Encoder.ctrlWord, hswap]
  decide

/-- Settles O30: each session state by its lemma, and a built session's registers by the invariant. -/
theorem startBeginsPlayback : Obligations.StartBeginsPlayback := by
  refine ⟨decode_H_words 2#32 [], fun s hi hs => ?_, fun s => ⟨execStart_none, execStart_running, execStart_built⟩⟩
  obtain ⟨g, hb, hbu⟩ := hi.built hs
  refine ⟨by rw [hbu.irq]; rfl, by rw [hbu.irq]; rfl, ⟨_, execStart_built hs, hb.startPlayback_cmdReady⟩, fun hd => ?_⟩
  exact ⟨_, execStart_built hs, rfl, rfl, hbu.startPlayback_irqStat, hb.startPlayback_encCtrl hd, rfl⟩

/-! ### STOP -/

theorem execStop_of_none {s : State} (h : s.sesState = .none) : execStop s = .next { s with err := .ok } :=
  if_neg (State.not_hasSession h)

theorem execStop_of_session {s : State} (h : s.sesState ≠ .none) :
    execStop s = .next { s.giveBack.clearSession with err := .ok } :=
  if_pos (State.hasSession_iff.mpr h)

/-- The three lines STOP adds to the log, in the reverse order of acquisition (R203). -/
theorem State.giveBack_envlog (s : State) :
    s.giveBack.envlog = s.envlog ++
      [.unclaim (cmdHandle s.ses.chIds) (pixHandle s.ses.chIds), .free s.progRegion.base, .free s.fbRegion.base] := by
  simp [State.giveBack]

/-- Settles O31: the two cases of STOP, the second written out field by field. -/
theorem stopReleasesEverything : Obligations.StopReleasesEverything := by
  refine fun s => ⟨execStop_of_none, fun hs => (execStop_of_session hs).trans ?_⟩
  rw [State.clearSession, s.giveBack_envlog]
  rfl

/-- A state with no session and the code `OK` is the reset state but for what STOP does not touch (R60, R203). -/
theorem State.NoSession.eq_resetWith {t : State} (hn : t.NoSession) (herr : t.err = .ok) :
    t = { State.resetWith t.cfg t.ram with
          args := t.args, tq := t.tq, eq := t.eq, faults := t.faults, encq := t.encq, envlog := t.envlog
          events := t.events, allocs := t.allocs, claims := t.claims, drawn := t.drawn, readData := t.readData } := by
  obtain ⟨hstate, hses, henc, hcmd, hpix, hirq, hlive⟩ := hn
  simp only [State.resetWith, ← hstate, ← hses, ← henc, ← hcmd, ← hpix, ← hirq, ← hlive, ← herr]

/-- Settles O32: STOP leaves no session and the code `OK`, and with one it is `State.Inv.stop` that empties `LIVE`. -/
theorem stopReturnsToTheResetState : Obligations.StopReturnsToTheResetState := by
  intro s hi
  by_cases hs : s.sesState = .none
  · have hn : ({ s with err := .ok } : State).NoSession := { hi.noSession hs with }
    exact ⟨_, execStop_of_none hs, hn.eq_resetWith rfl⟩
  · have hn : ({ s.giveBack.clearSession with err := .ok } : State).NoSession := { (hi.stop hs).noSession rfl with }
    exact ⟨_, execStop_of_session hs, hn.eq_resetWith rfl⟩

/-! ### What CONSTRUCT answers without a session -/

theorem constructClaim_err {g : Geometry} {fb prog : Word} {s t : State} (h : constructClaim g fb prog s = .next t) :
    t.err = .ok ∨ t.err = .channelUnavailable := by
  unfold constructClaim at h
  split at h <;> cases h
  · exact .inr rfl
  · exact .inl rfl

theorem constructProgram_err {g : Geometry} {fb : Word} {s t : State} (h : constructProgram g fb s = .next t) :
    t.err = .resourceExhausted ∨ t.err = .ok ∨ t.err = .channelUnavailable := by
  unfold constructProgram at h
  split at h
  · cases h
    exact .inl rfl
  · exact .inr (constructClaim_err h)

theorem constructFramebuffer_err {g : Geometry} {s t : State} (h : constructFramebuffer g s = .next t) :
    t.err = .resourceExhausted ∨ t.err = .ok ∨ t.err = .channelUnavailable := by
  unfold constructFramebuffer at h
  split at h
  · cases h
    exact .inl rfl
  · exact constructProgram_err h

/-- Without a session CONSTRUCT never answers `SessionConflict` (R183, R207). -/
theorem execConstruct_err {s t : State} (hs : s.sesState = .none) (h : execConstruct s = .next t) (herr : t.err ≠ .ok) :
    t.err = .configurationError ∨ t.err = .resourceExhausted ∨ t.err = .channelUnavailable := by
  cases hg : geometry s.cfg s.args.width.toNat s.args.height.toNat s.args.depth.toNat with
  | none =>
    rw [execConstruct_refusedGeometry hs hg] at h
    cases h
    exact .inl rfl
  | some g =>
    rw [execConstruct_accepted hs hg] at h
    obtain h | h | h := constructFramebuffer_err h
    · exact .inr (.inl h)
    · exact absurd h herr
    · exact .inr (.inr h)

/-! ### The rows of the table (R207) -/

section

variable {s t : State}

theorem construct_row (h : execConstruct s = .next t) :
    (s.sesState = .none →
      (t.err = .ok ∧ t.sesState = .built) ∨
        ((t.err = .configurationError ∨ t.err = .resourceExhausted ∨ t.err = .channelUnavailable) ∧
          t.sesState = .none)) ∧
      (s.sesState ≠ .none → t.err = .sessionConflict ∧ t.sesState = s.sesState) := by
  constructor
  · intro hs
    obtain hfail | ⟨g, fb, prog, a, b, hok⟩ := execConstruct_next h
    · refine .inr ⟨execConstruct_err hs h hfail.1, ?_⟩
      rw [hfail.frame]
      exact hs
    · exact .inl ⟨hok.err, hok.sesState⟩
  · intro hs
    rw [execConstruct_session hs] at h
    cases h
    exact ⟨rfl, rfl⟩

theorem start_row (h : execStart s = .next t) :
    (s.sesState = .none → t = { s with faults := s.faults.set .badState }) ∧
      (s.sesState = .built → t.err = .ok ∧ t.sesState = .running) ∧
      (s.sesState = .running → t.err = .sessionConflict ∧ t.sesState = .running) := by
  refine ⟨fun hs => ?_, fun hs => ?_, fun hs => ?_⟩
  · rw [execStart_none hs] at h
    cases h
    rfl
  · rw [execStart_built hs] at h
    cases h
    exact ⟨rfl, rfl⟩
  · rw [execStart_running hs] at h
    cases h
    exact ⟨rfl, hs⟩

theorem stop_row (h : execStop s = .next t) : t.err = .ok ∧ t.sesState = .none := by
  refine ⟨?_, execStop_none h⟩
  by_cases hs : s.sesState = .none
  · rw [execStop_of_none hs] at h
    cases h
    rfl
  · rw [execStop_of_session hs] at h
    cases h
    rfl

/-- RELOAD needs the session reference, which the invariant gives to a running session alone (R205). -/
theorem State.Inv.reload_row (hi : s.Inv) (h : execReload s = .next t) :
    (s.sesState ≠ .running → t = s) ∧
      (s.sesState = .running → t = s.reloadAction ∧ t.err = s.err ∧ t.sesState = .running) := by
  cases h
  refine ⟨fun hs => ?_, fun hs => ⟨rfl, by simp, by simpa using hs⟩⟩
  exact s.reloadAction_absent (Bool.eq_false_iff.mpr fun href => hs (hi.activeRef_iff.mp href))

theorem timing_row (h : execTiming s = .next t) :
    (t.err = .ok ∨ t.err = .configurationError) ∧ t.sesState = s.sesState := by
  unfold execTiming at h
  split at h <;> cases h
  · exact ⟨.inr rfl, rfl⟩
  · exact ⟨.inl rfl, rfl⟩

theorem enccalc_row (h : execEnccalc s = .next t) :
    (t.err = .ok ∨ t.err = .configurationError) ∧ t.sesState = s.sesState := by
  unfold execEnccalc at h
  split at h <;> cases h
  · exact ⟨.inr rfl, rfl⟩
  · exact ⟨.inl rfl, rfl⟩

end

/-- Every word written to `COMMAND` answers a next state (R12, R102; log 5). -/
theorem hostCommand_next (c : Word) (s : State) : ∃ t, hostCommand c s = .next t := by
  unfold hostCommand
  split
  · exact exec_next _ s
  · exact ⟨_, rfl⟩

/-- The command words are 1 to 6 (R101, R102). -/
theorem decodeH_ok_toNat {c : Word} {i : Instr} (h : decodeH c = .ok i) : 1 ≤ c.toNat ∧ c.toNat ≤ 6 := by
  rcases decodeH_ok h with ⟨rfl, -⟩ | ⟨rfl, -⟩ | ⟨rfl, -⟩ | ⟨rfl, -⟩ | ⟨rfl, -⟩ | ⟨rfl, -⟩ <;> decide

theorem hostCommand_reserved {c : Word} (h : c.toNat = 0 ∨ 7 ≤ c.toNat) (s : State) :
    hostCommand c s = .next { s with faults := s.faults.set .illegalCmd } :=
  hostCommand_of_not_decoded (fun _ hd => by have := decodeH_ok_toNat hd; omega) s

/-- Settles O35: one lemma for each row. -/
theorem commandTable : Obligations.CommandTable := by
  intro s c hi
  obtain ⟨t, ht⟩ := hostCommand_next c s
  refine ⟨t, ht, ?_, ?_, ?_, ?_, ?_, fun hc => ?_⟩
  · rintro rfl
    exact construct_row ht
  · rintro rfl
    exact start_row ht
  · rintro rfl
    exact stop_row ht
  · rintro rfl
    exact hi.reload_row ht
  · rintro (rfl | rfl)
    · exact timing_row ht
    · exact enccalc_row ht
  · rw [hostCommand_reserved hc] at ht
    cases ht
    rfl

end Sys2Proof.Machine
end

section
/-! SUPPORT. One step of the ring sequencer, agent by agent (`44_ring_sequencer.md`): the reload action and the handler (R232 to R234), loading a
descriptor (R223 to R231), and moving one element (R228). -/

namespace Sys2Proof.Machine

/-! ### The reload action and the handler -/

theorem State.reloadAction_activeRef (s : State) : s.reloadAction.irq.activeRef = s.irq.activeRef := by
  unfold State.reloadAction
  split <;> rfl

/-- The reload action done twice is the reload action done once (R232). -/
theorem State.reloadAction_idem (s : State) : s.reloadAction.reloadAction = s.reloadAction := by
  cases h : s.irq.activeRef with
  | false => rw [s.reloadAction_absent h, s.reloadAction_absent h]
  | true =>
    rw [State.reloadAction_active s.reloadAction (by rw [s.reloadAction_activeRef, h]), s.reloadAction_active h]

theorem State.repeat_reloadAction (s : State) (n : Nat) : Nat.repeat State.reloadAction (n + 1) s = s.reloadAction := by
  induction n with
  | zero => rfl
  | succ n ih =>
    show (Nat.repeat State.reloadAction (n + 1) s).reloadAction = _
    rw [ih, s.reloadAction_idem]

/-- Settles O33: the two cases of the reload action, and its idempotence by induction on the repetitions. -/
theorem reloadIsIdempotent : Obligations.ReloadIsIdempotent := by
  refine ⟨fun s hi href => ?_, fun s => ⟨fun href => ?_, fun href => ?_, fun n => ?_⟩⟩
  · refine Bool.eq_false_iff.mpr fun hpend => ?_
    rw [(hi.pending_running hpend).2] at href
    cases href
  · exact congrArg Host.Outcome.next (s.reloadAction_absent href)
  · exact congrArg Host.Outcome.next (s.reloadAction_active href)
  · show Host.Outcome.next (Nat.repeat State.reloadAction (n + 1) s).reloadAction = _
    rw [s.repeat_reloadAction, s.reloadAction_idem]

theorem fbhStep_entry {s : State} (h : s.fbhEntryReady = true) : fbhStep s = .next s.fbhEnter := by
  have harmed : s.irq.fbh = .armed := by
    simp only [State.fbhEntryReady, Bool.and_eq_true, beq_iff_eq] at h
    exact h.2
  simp [fbhStep, harmed, h]

theorem fbhStep_body {s : State} (h : s.irq.fbh = .reloading) : fbhStep s = .next s.fbhReturn := by
  simp [fbhStep, h]

theorem State.fbhReturn_active {s : State} (h : s.irq.activeRef = true) :
    s.fbhReturn =
      { s with
        irq := { s.irq with pending := false, fbh := .armed }
        cmd := { s.cmd with rptr := s.ses.progBase, trig := true } } := by
  rw [State.fbhReturn, s.reloadAction_active h]

theorem State.fbhReturn_absent {s : State} (h : s.irq.activeRef = false) :
    s.fbhReturn = { s with irq := { s.irq with fbh := .armed } } := by
  rw [State.fbhReturn, s.reloadAction_absent h]

/-- Settles O44: the entry, the event with no step, the two bodies, and the host held off. -/
theorem handlerEntersAndReturns : Obligations.HandlerEntersAndReturns := by
  intro s
  refine ⟨fun harmed hpend hen => ?_, fun harmed hno => ?_, fun hrel => ⟨fun href => ?_, fun href => ?_, fun access => ?_⟩⟩
  · exact fbhStep_entry (by simp [State.fbhEntryReady, harmed, hpend, hen])
  · have hready : s.fbhEntryReady = false := by rcases hno with h | h <;> simp [State.fbhEntryReady, h]
    simp [fbhStep, harmed, hready]
  · rw [fbhStep_body hrel, State.fbhReturn_active href]
  · rw [fbhStep_body hrel, State.fbhReturn_absent href]
  · exact if_pos hrel

/-! ### Loading a descriptor, case by case -/

section
variable {s : State} {p : PixChannel} {n : Nat}

theorem loadDescriptor_busy (hbusy : s.pix.busy = true) : loadDescriptor n p s = raise .pixOverwrite s :=
  if_pos hbusy

/-- An illegal control word, or another destination than the queue port (R111 a, b). -/
theorem loadDescriptor_illegal (hidle : s.pix.busy = false) (h : ctrlSize p.ctrl = none ∨ p.waddr ≠ encqAddr s.cfg) :
    loadDescriptor n p s = raise .badDesc s := by
  rcases loadDescriptor_cases n p s with ⟨hb, -⟩ | ⟨-, -, he⟩ | ⟨-, hw, z, hz, -⟩
  · rw [hidle] at hb
    cases hb
  · exact he
  · simp [hz, hw] at h

/-- A source that is not a multiple of the element size (R111 c). -/
theorem loadDescriptor_misaligned {z : ElemSize} (hidle : s.pix.busy = false) (hz : ctrlSize p.ctrl = some z)
    (hlen : p.len ≠ 0#32) (hal : alignedFor z p.raddr = false) : loadDescriptor n p s = raise .badDesc s := by
  simp [loadDescriptor, hidle, hz, hlen, hal]

theorem loadDescriptor_transfer {z : ElemSize} (hidle : s.pix.busy = false) (hz : ctrlSize p.ctrl = some z)
    (hw : p.waddr = encqAddr s.cfg) (hlen : p.len ≠ 0#32) (hal : alignedFor z p.raddr = true) :
    loadDescriptor n p s = .next { s with cmd := s.cmd.consume n, pix := { p with busy := true } } := by
  simp [loadDescriptor, hidle, hz, hw, hlen, hal]

theorem loadDescriptor_terminal {z : ElemSize} (hidle : s.pix.busy = false) (hz : ctrlSize p.ctrl = some z)
    (hw : p.waddr = encqAddr s.cfg) (hlen : p.len = 0#32) :
    loadDescriptor n p s =
      .next { s with cmd := s.cmd.consume n, pix := p, irq := { s.irq with pending := true } } := by
  simp [loadDescriptor, hidle, hz, hw, hlen, State.raiseFrameIrq]

end

theorem alignedFor_eq_false {z : ElemSize} {a : Word} (h : a.toNat % z.bytes ≠ 0) : alignedFor z a = false :=
  Bool.eq_false_iff.mpr fun hal => h ((alignedFor_iff z a).mp hal)

/-- Settles O36: the control word and the destination are in the registers for format S, in the descriptor for format L. -/
theorem transferDescriptorsLoad : Obligations.TransferDescriptorsLoad := by
  intro s z len raddr hidle hlen hal
  have hal' := (alignedFor_iff z raddr).mpr hal
  refine ⟨fun hctrl hw => ?_, ?_⟩
  · exact loadDescriptor_transfer (p := s.pix.loadS len raddr) hidle (ctrlSize_eq_some.mpr hctrl) hw hlen hal'
  · exact loadDescriptor_transfer (p := s.pix.loadL (ctrlStd z) (encqAddr s.cfg) len raddr) hidle (ctrlSize_ctrlStd z) rfl
      hlen hal'

/-- Settles O37: as for a transfer, and the source is not looked at. -/
theorem terminalDescriptorsRaiseTheInterrupt : Obligations.TerminalDescriptorsRaiseTheInterrupt := by
  intro s z raddr hidle
  have hpix : s.pix = { s.pix with busy := false } := by rw [← hidle]
  refine ⟨fun hctrl hw => ?_, ?_⟩
  · rw [show exec (.termS raddr) s = loadDescriptor 2 (s.pix.loadS 0#32 raddr) s from rfl,
      loadDescriptor_terminal (p := s.pix.loadS 0#32 raddr) hidle (ctrlSize_eq_some.mpr hctrl) hw rfl]
    simp [PixChannel.loadS, CmdChannel.consume, hidle]
  · rw [show exec (.termL z (encqAddr s.cfg) raddr) s =
        loadDescriptor 4 (s.pix.loadL (ctrlStd z) (encqAddr s.cfg) 0#32 raddr) s from rfl,
      loadDescriptor_terminal (p := s.pix.loadL (ctrlStd z) (encqAddr s.cfg) 0#32 raddr) hidle (ctrlSize_ctrlStd z) rfl rfl]
    simp [PixChannel.loadL, CmdChannel.consume, hidle]

theorem ctrlSize_eq_none_iff {w : Word} : ctrlSize w = none ↔ ∀ z, w ≠ ctrlStd z := by
  rw [Option.eq_none_iff_forall_ne_some]
  simp only [ne_eq, ctrlSize_eq_some]

/-- Settles O38: a fault of each test of `loadDescriptor`. -/
theorem descriptorFaults : Obligations.DescriptorFaults := by
  intro s z waddr len raddr
  refine ⟨fun hbusy => ?_, fun hidle => ⟨fun hbad => ?_, fun hw => ?_, fun hlen hmis => ⟨fun hctrl => ?_, ?_⟩⟩⟩
  · exact ⟨loadDescriptor_busy hbusy, loadDescriptor_busy hbusy, loadDescriptor_busy hbusy, loadDescriptor_busy hbusy⟩
  · have hbad' : ctrlSize s.pix.ctrl = none ∨ s.pix.waddr ≠ encqAddr s.cfg := hbad.imp_left ctrlSize_eq_none_iff.mpr
    exact ⟨loadDescriptor_illegal hidle hbad', loadDescriptor_illegal hidle hbad'⟩
  · exact ⟨loadDescriptor_illegal hidle (.inr hw), loadDescriptor_illegal hidle (.inr hw)⟩
  · exact loadDescriptor_misaligned hidle (ctrlSize_eq_some.mpr hctrl) hlen (alignedFor_eq_false hmis)
  · exact loadDescriptor_misaligned hidle (ctrlSize_ctrlStd z) hlen (alignedFor_eq_false hmis)

/-- A step that leaves `FAULT` clear raised nothing. -/
theorem raise_ne_of_clear {b : FaultBit} {s t : State} (hf : t.faults = FaultBits.clear) : raise b s ≠ .next t := by
  intro h
  cases h
  exact FaultBits.set_ne_clear _ _ hf

/-- A descriptor that raises no fault takes its words, clears the trigger, and either sets `BUSY` or raises the frame interrupt,
by its length (R223 to R226). -/
theorem loadDescriptor_unfaulted {n : Nat} {p : PixChannel} {s t : State} (h : loadDescriptor n p s = .next t)
    (hp : p.busy = s.pix.busy) (hf : t.faults = FaultBits.clear) :
    s.pix.busy = false ∧ p.waddr = encqAddr s.cfg ∧ (∃ z, p.ctrl = ctrlStd z) ∧
      t = { s with
            cmd := s.cmd.consume n
            pix := { p with busy := decide (p.len ≠ 0#32) }
            irq := { s.irq with pending := s.irq.pending || decide (p.len = 0#32) } } := by
  rcases loadDescriptor_cases n p s with
    ⟨-, he⟩ | ⟨-, -, he⟩ | ⟨hidle, hw, z, hz, ⟨hl, he⟩ | ⟨hl, -, he⟩ | ⟨-, -, he⟩⟩ <;> rw [he] at h
  · exact absurd h (raise_ne_of_clear hf)
  · exact absurd h (raise_ne_of_clear hf)
  · cases h
    refine ⟨hidle, hw, ⟨z, ctrlSize_eq_some.mp hz⟩, ?_⟩
    have hpix : p = { p with len := 0#32, busy := false } := by rw [← hl, ← hp.trans hidle]
    simpa [hl] using hpix
  · cases h
    exact ⟨hidle, hw, ⟨z, ctrlSize_eq_some.mp hz⟩, by simp [hl]⟩
  · exact absurd h (raise_ne_of_clear hf)

/-! ### What a descriptor leaves unchanged -/

/-- The frame of `loadDescriptor`: it writes the pixel channel, the pointer, the trigger and `PENDING`, or raises one of two faults. -/
theorem loadDescriptor_frame {n : Nat} {p : PixChannel} {s t : State} (h : loadDescriptor n p s = .next t) :
    t = { s with
          pix := t.pix, faults := t.faults
          cmd := { s.cmd with rptr := t.cmd.rptr, trig := t.cmd.trig }
          irq := { s.irq with pending := t.irq.pending } } ∧
      (t.pix = s.pix ∨ (t.pix.ctrl = p.ctrl ∧ t.pix.waddr = p.waddr)) ∧
      (t.faults = s.faults ∨ t.faults = { s.faults with pixOverwrite := true } ∨
        t.faults = { s.faults with badDesc := true }) := by
  rcases loadDescriptor_cases n p s with
    ⟨-, he⟩ | ⟨-, -, he⟩ | ⟨-, -, z, -, ⟨-, he⟩ | ⟨-, -, he⟩ | ⟨-, -, he⟩⟩ <;> rw [he] at h <;> cases h
  · exact ⟨rfl, .inl rfl, .inr (.inl rfl)⟩
  · exact ⟨rfl, .inl rfl, .inr (.inr rfl)⟩
  · exact ⟨rfl, .inr ⟨rfl, rfl⟩, .inl rfl⟩
  · exact ⟨rfl, .inr ⟨rfl, rfl⟩, .inl rfl⟩
  · exact ⟨rfl, .inl rfl, .inr (.inr rfl)⟩

/-- A descriptor is its words loaded into the window of its format (R225). -/
theorem exec_descriptor {i : Instr} (hi : i.format ≠ .H) (s : State) :
    ∃ n p, exec i s = loadDescriptor n p s ∧ p.busy = s.pix.busy ∧
      (i.format = .S → p.ctrl = s.pix.ctrl ∧ p.waddr = s.pix.waddr) := by
  cases i with
  | construct | start | stop | reload | timing | enccalc => exact absurd rfl hi
  | xferS len raddr => exact ⟨2, s.pix.loadS len raddr, rfl, rfl, fun _ => ⟨rfl, rfl⟩⟩
  | termS raddr => exact ⟨2, s.pix.loadS 0#32 raddr, rfl, rfl, fun _ => ⟨rfl, rfl⟩⟩
  | xferL z waddr len raddr => exact ⟨4, s.pix.loadL (ctrlStd z) waddr len raddr, rfl, rfl, fun h => nomatch h⟩
  | termL z waddr raddr => exact ⟨4, s.pix.loadL (ctrlStd z) waddr 0#32 raddr, rfl, rfl, fun h => nomatch h⟩

/-- Settles O47: the frame of loading a descriptor's words. -/
theorem descriptorsFrame : Obligations.DescriptorsFrame := by
  intro i s t hi h
  obtain ⟨n, p, he, hp, hS⟩ := exec_descriptor hi s
  rw [he] at h
  obtain ⟨hframe, hpix, hfaults⟩ := loadDescriptor_frame h
  refine ⟨hframe, fun hf => ?_, fun _ hclear => ?_, hfaults, fun a => ?_⟩
  · obtain ⟨hctrl, hwaddr⟩ := hS hf
    rcases hpix with hpix | ⟨hc, hw⟩
    · rw [hpix]
      exact ⟨rfl, rfl⟩
    · exact ⟨hc.trans hctrl, hw.trans hwaddr⟩
  · obtain ⟨-, hw, ⟨z, hz⟩, ht⟩ := loadDescriptor_unfaulted h hp hclear
    rw [ht]
    exact ⟨hw, z, hz⟩
  · rw [hframe]

/-! ### The CMD step -/

/-- Word `j` at the program counter, as RAM holds it. -/
def State.pcWord (s : State) (j : Nat) : Word :=
  BitVec.ofNat 32 (s.ram.readLE (s.cmd.rptr.toNat + 4 * j) 4)

/-- The pixel channel with the `n` words at the program counter in its last `n` registers (R225). -/
def State.window (s : State) (n : Nat) : PixChannel :=
  if n = 2 then s.pix.loadS (s.pcWord 0) (s.pcWord 1)
  else s.pix.loadL (s.pcWord 0) (s.pcWord 1) (s.pcWord 2) (s.pcWord 3)

@[simp] theorem State.window_busy (s : State) (n : Nat) : (s.window n).busy = s.pix.busy := by
  unfold State.window
  split <;> rfl

theorem State.window_x {s : State} {n j : Nat} {i : Fin 4} (hn : n = 2 ∨ n = 4) (hj : j < n) (hi : i.val = 4 - n + j) :
    (s.window n).x i = s.pcWord j := by
  have hlt : 4 - n + j < 4 := by omega
  obtain rfl : i = ⟨4 - n + j, hlt⟩ := Fin.ext hi
  rcases hn with rfl | rfl
  · obtain rfl | rfl : j = 0 ∨ j = 1 := by omega
    all_goals rfl
  · obtain rfl | rfl | rfl | rfl : j = 0 ∨ j = 1 ∨ j = 2 ∨ j = 3 := by omega
    all_goals rfl

theorem State.window_x_below {s : State} {n : Nat} {i : Fin 4} (hn : n = 2 ∨ n = 4) (hi : i.val < 4 - n) :
    (s.window n).x i = s.pix.x i := by
  obtain rfl : n = 2 := by omega
  obtain rfl | rfl : i = 0 ∨ i = 1 := by omega
  all_goals rfl

/-- A register's value does not depend on `BUSY`. -/
theorem PixChannel.x_setBusy (p : PixChannel) (b : Bool) (i : Fin 4) : PixChannel.x { p with busy := b } i = p.x i := by
  match i with
  | 0 | 1 | 2 | 3 => rfl

theorem exec_decodeS (w0 w1 : Word) (s : State) :
    exec (decodeS w0 w1) s = loadDescriptor 2 (s.pix.loadS w0 w1) s := by
  rcases decodeS_cases w0 w1 with ⟨rfl, h⟩ | ⟨-, h⟩ <;> rw [h] <;> rfl

theorem exec_decodeL {w0 w1 w2 w3 : Word} {i : Instr} (h : decodeL w0 w1 w2 w3 = .ok i) (s : State) :
    exec i s = loadDescriptor 4 (s.pix.loadL w0 w1 w2 w3) s := by
  obtain ⟨z, rfl, ⟨rfl, rfl⟩ | ⟨-, rfl⟩⟩ := decodeL_ok h <;> rfl

/-- Words that are not all aligned and inside the program are not fetched (R75). -/
theorem State.fetchWords_eq_none {s : State} {a n : Nat} (hn : 0 < n)
    (h : ¬ (a % 4 = 0 ∧ s.inProgram a (4 * n) = true)) : s.fetchWords a n = none := by
  cases hf : s.fetchWords a n with
  | none => rfl
  | some ws =>
    obtain ⟨-, hwords⟩ := State.fetchWords_eq_some hf
    obtain ⟨hal, hfirst⟩ := hwords 0 hn
    obtain ⟨-, hlast⟩ := hwords (n - 1) (by omega)
    obtain ⟨hs, hp0, hr0⟩ := State.inProgram_iff.mp hfirst
    obtain ⟨-, hp1, hr1⟩ := State.inProgram_iff.mp hlast
    exact absurd ⟨hal, State.inProgram_iff.mpr ⟨hs, by omega, by omega⟩⟩ h

section
variable {s : State} {n : Nat} (hn : n = 2 ∨ n = 4) (hw : s.ses.descw = BitVec.ofNat 32 n)
include hn hw

theorem runDescriptor_unfetched (h : ¬ (s.cmd.rptr.toNat % 4 = 0 ∧ s.inProgram s.cmd.rptr.toNat (4 * n) = true)) :
    runDescriptor s = raise .busError s := by
  have hnone := State.fetchWords_eq_none (by omega) h
  unfold runDescriptor
  rcases hn with rfl | rfl
  · rw [if_pos hw, hnone]
  · rw [if_neg (by rw [hw]; decide), if_pos hw, hnone]

/-- A fetched descriptor is its words loaded; that an illegal control word does not decode comes to the same fault (R111 a). -/
theorem runDescriptor_fetched (hidle : s.pix.busy = false) (hal : s.cmd.rptr.toNat % 4 = 0)
    (hin : s.inProgram s.cmd.rptr.toNat (4 * n) = true) : runDescriptor s = loadDescriptor n (s.window n) s := by
  have hfetch := State.fetchWords_of_covers hal hin
  unfold runDescriptor
  rcases hn with rfl | rfl
  · rw [if_pos hw, hfetch]
    exact exec_decodeS (s.pcWord 0) (s.pcWord 1) s
  · rw [if_neg (by rw [hw]; decide), if_pos hw, hfetch]
    show (match decodeL (s.pcWord 0) (s.pcWord 1) (s.pcWord 2) (s.pcWord 3) with
      | .ok i => exec i s
      | .error _ => raise .badDesc s) = _
    cases hd : decodeL (s.pcWord 0) (s.pcWord 1) (s.pcWord 2) (s.pcWord 3) with
    | ok i => exact exec_decodeL hd s
    | error e => exact (loadDescriptor_illegal hidle (.inl (decodeL_error hd))).symm

end

theorem cmdStep_busy {s : State} (hready : s.cmdReady = true) (hbusy : s.pix.busy = true) :
    cmdStep s = raise .pixOverwrite s := by
  simp [cmdStep, hready, hbusy]

/-- A CMD step that raises no fault fetched its words and loaded them. -/
theorem cmdStep_unfaulted {s t : State} {n : Nat} (hready : s.cmdReady = true) (hn : n = 2 ∨ n = 4)
    (hw : s.ses.descw = BitVec.ofNat 32 n) (h : cmdStep s = .next t) (hf : t.faults = FaultBits.clear) :
    loadDescriptor n (s.window n) s = .next t := by
  cases hbusy : s.pix.busy with
  | true => exact absurd (cmdStep_busy hready hbusy ▸ h) (raise_ne_of_clear hf)
  | false =>
    rw [cmdStep_ready hready hbusy] at h
    by_cases hin : s.cmd.rptr.toNat % 4 = 0 ∧ s.inProgram s.cmd.rptr.toNat (4 * n) = true
    · rwa [runDescriptor_fetched hn hw hbusy hin.1 hin.2] at h
    · exact absurd (runDescriptor_unfetched hn hw hin ▸ h) (raise_ne_of_clear hf)

/-- Settles O39: the words are in the window, and the rest is the effect of an unfaulted descriptor. -/
theorem cmdStepLoadsTheWindow : Obligations.CmdStepLoadsTheWindow := by
  intro s t n hready hn hw h hf
  obtain ⟨hidle, -, -, ht⟩ := loadDescriptor_unfaulted (cmdStep_unfaulted hready hn hw h hf) (s.window_busy n) hf
  rw [ht]
  refine ⟨fun j i hj hi => ?_, fun i hi => ?_, hidle, ?_, ?_⟩
  · exact (PixChannel.x_setBusy _ _ i).trans (State.window_x hn hj hi)
  · exact (PixChannel.x_setBusy _ _ i).trans (State.window_x_below hn hi)
  · simp [CmdChannel.consume]
  · simp

/-- Settles O40: the tests of `cmdStep`, of the fetch and of the control word, one after another. -/
theorem cmdStepTestsInOrder : Obligations.CmdStepTestsInOrder := by
  intro s n hn hw
  refine ⟨fun hno => ?_, fun hready => ⟨fun hbusy => cmdStep_busy hready hbusy, fun hidle => ⟨fun hout => ?_, ?_⟩⟩⟩
  · simp [cmdStep, hno]
  · rw [cmdStep_ready hready hidle, runDescriptor_unfetched hn hw hout]
    rfl
  · rintro hal hin rfl hctrl
    rw [cmdStep_ready hready hidle, runDescriptor_fetched hn hw hidle hal hin]
    exact loadDescriptor_illegal hidle (.inl (ctrlSize_eq_none_iff.mpr hctrl))

/-! ### The PIX step -/

section
variable {s : State} {z : ElemSize} (hbusy : s.pix.busy = true) (hctrl : s.pix.ctrl = ctrlStd z) (hlen : s.pix.len ≠ 0#32)
include hbusy hctrl hlen

theorem pixStep_refused (h : s.readPix s.pix.raddr.toNat z = none) : pixStep s = raise .busError s := by
  simp [pixStep, hbusy, hctrl, hlen, h]

theorem pixStep_delivers {v : Nat} (h : s.readPix s.pix.raddr.toNat z = some v) : pixStep s = .next (s.deliver z v) := by
  simp [pixStep, hbusy, hctrl, hlen, h]

end

/-- Settles O41: the read is refused or delivered, and the last element is the one that leaves `x[2]` 0. -/
theorem pixStepMovesOneElement : Obligations.PixStepMovesOneElement := by
  intro s z
  refine ⟨fun hidle => ?_, fun hbusy hctrl hlen => ⟨pixStep_refused hbusy hctrl hlen, fun v hv => ?_⟩⟩
  · simp [pixStep, hidle]
  · rw [pixStep_delivers hbusy hctrl hlen hv]
    by_cases hl : s.pix.len = 1#32
    · simp [s.deliver_last z v hl, PixChannel.advance, hl]
    · simp [s.deliver_more z v hl, PixChannel.advance, hl, hbusy]

end Sys2Proof.Machine
end

section
/-! SUPPORT. Runs of the ring sequencer (`44_ring_sequencer.md`): the PIX steps of a transfer (R227, R228), the steps of a line, of the lines of a
frame, and of a frame (R235), and the handler's return to the frame start (R236). -/

namespace Sys2Proof.Machine

/-! ### Several steps -/

theorem stepN_succ {s t : State} (h : step s = .next t) (n : Nat) : stepN (n + 1) s = stepN n t := by
  simp only [stepN, h]

theorem stepN_add {m : Nat} {s t : State} (h : stepN m s = .next t) (n : Nat) : stepN (m + n) s = stepN n t := by
  induction m generalizing s with
  | zero =>
    cases h
    rw [Nat.zero_add]
  | succ m ih =>
    cases hs : step s with
    | next u =>
      rw [stepN_succ hs] at h
      rw [Nat.add_right_comm, stepN_succ hs, ih h]
    | fault r => simp [stepN, hs] at h
    | refused r => simp [stepN, hs] at h

/-- The invariant along a run. -/
theorem State.Inv.stepN {n : Nat} {s t : State} (hi : s.Inv) (h : Machine.stepN n s = .next t) : t.Inv := by
  induction n generalizing s with
  | zero =>
    cases h
    exact hi
  | succ n ih =>
    cases hs : step s with
    | next u =>
      rw [stepN_succ hs] at h
      exact ih (stepKeepsTheInvariant s u hi hs) h
    | fault r => simp [Machine.stepN, hs] at h
    | refused r => simp [Machine.stepN, hs] at h

/-- The state with another list of events to come. -/
def State.withEvents (s : State) (es : List Event) : State :=
  { s with events := es }

/-- The step on the next event of the list. -/
theorem step_event {s : State} {e : Event} {rest : List Event} (hf : s.NoFault) (hev : s.events = e :: rest) :
    step s = agentStep e (s.withEvents rest) := by
  rw [step_of_noFault hf, State.takeEvent_cons hev]
  rfl

/-! ### A transfer -/

/-- From the address on, the pixel channel reads these records, elements of one size (R228). -/
def State.Supplies (s : State) (a : Word) (z : ElemSize) (rs : List EncRecord) : Prop :=
  ∀ i r, rs[i]? = some r → r.size = z ∧ s.readPix (a + BitVec.ofNat 32 (z.bytes * i)).toNat z = some r.value

/-- The records read from an address on are the first and those read from the next element's address on. -/
theorem State.Supplies.cons {s : State} {a : Word} {z : ElemSize} {r : EncRecord} {rs : List EncRecord}
    (h : s.Supplies a z (r :: rs)) :
    r.size = z ∧ s.readPix a.toNat z = some r.value ∧ s.Supplies (a + BitVec.ofNat 32 z.bytes) z rs := by
  obtain ⟨hz, hread⟩ := h 0 r rfl
  refine ⟨hz, by simpa using hread, fun i q hq => ?_⟩
  have hnext := h (i + 1) q hq
  rwa [Nat.mul_add_one, Nat.add_comm, BitVec.ofNat_add, ← BitVec.add_assoc] at hnext

/-- The state after the rest of the transfer in flight, which pushes the records `rs` (R228). -/
def State.transferred (s : State) (z : ElemSize) (rs : List EncRecord) (rest : List Event) : State :=
  { s with
    events := rest
    encq := s.encq ++ rs
    pix :=
      { s.pix with
        len := 0#32, raddr := s.pix.raddr + BitVec.ofNat 32 (z.bytes * rs.length), busy := false }
    cmd := { s.cmd with trig := true } }

/-- The PIX steps of a transfer, by induction on the elements that are left. -/
theorem stepN_transfer {z : ElemSize} {rs : List EncRecord} {rest : List Event} {s : State} (hf : s.NoFault)
    (hbusy : s.pix.busy = true) (hctrl : s.pix.ctrl = ctrlStd z) (hne : rs ≠ [])
    (hlen : s.pix.len = BitVec.ofNat 32 rs.length) (hlt : rs.length < 2 ^ 32) (hsup : s.Supplies s.pix.raddr z rs)
    (hev : s.events = List.replicate rs.length .pix ++ rest) :
    stepN rs.length s = .next (s.transferred z rs rest) := by
  induction rs generalizing s with
  | nil => exact absurd rfl hne
  | cons r rs ih =>
    obtain ⟨rfl, hread, hsup'⟩ := hsup.cons
    have hcount : s.pix.len.toNat = rs.length + 1 := by
      rw [hlen, BitVec.toNat_ofNat, Nat.mod_eq_of_lt hlt, List.length_cons]
    have hlen0 : s.pix.len ≠ 0#32 := by bv_omega
    obtain ⟨es, hes⟩ : ∃ es, es = List.replicate rs.length .pix ++ rest := ⟨_, rfl⟩
    have hstep : step s = .next ((s.withEvents es).deliver r.size r.value) :=
      (step_event hf (show s.events = .pix :: es by rw [hev, hes]; rfl)).trans
        (pixStep_delivers (s := s.withEvents es) hbusy hctrl hlen0 hread)
    rw [List.length_cons, stepN_succ hstep]
    cases rs with
    | nil =>
      rw [State.deliver_last (s.withEvents es) r.size r.value hlen]
      simp [stepN, hes, State.withEvents, State.transferred, PixChannel.advance, hlen]
    | cons q rs =>
      rw [List.length_cons] at hcount
      have hmore : s.pix.len ≠ 1#32 := by bv_omega
      have hlen' : s.pix.len - 1#32 = BitVec.ofNat 32 (q :: rs).length := by
        rw [List.length_cons]
        bv_omega
      rw [State.deliver_more (s.withEvents es) r.size r.value hmore]
      refine Eq.trans (ih hf hbusy hctrl (by simp) hlen' (by rw [List.length_cons] at hlt; omega) hsup' hes) ?_
      simp [State.withEvents, State.transferred, PixChannel.advance, Nat.mul_add, BitVec.ofNat_add, BitVec.add_assoc,
        BitVec.add_comm]

/-- Settles O42: the values as records of one size. -/
theorem pixStepsDeliverTheTransfer : Obligations.PixStepsDeliverTheTransfer := by
  intro s z vs rest hf hbusy hctrl hne hlen hlt hread hev
  have hsup : s.Supplies s.pix.raddr z (vs.map fun v => { size := z, value := v }) := by
    intro i r hr
    rw [List.getElem?_map, Option.map_eq_some_iff] at hr
    obtain ⟨v, hv, rfl⟩ := hr
    have hi := (List.getElem?_eq_some_iff.mp hv).1
    exact ⟨rfl, (hread i hi).trans hv⟩
  have h := stepN_transfer (rest := rest) hf hbusy hctrl (by simpa using hne) (by simpa using hlen) (by simpa using hlt) hsup
    (by simpa using hev)
  simpa [State.transferred] using h

/-! ### The records of a line -/

theorem toReg_add_toNat {a k : Nat} (h : a + k < 2 ^ 32) : (toReg a + BitVec.ofNat 32 k).toNat = a + k := by
  rw [toReg, ← BitVec.ofNat_add]
  exact toReg_toNat h

/-- A list of values supplied, one for each index. -/
theorem State.supplies_range {s : State} {a n : Nat} {z : ElemSize} {f : Nat → Nat} (hfits : a + z.bytes * n ≤ 2 ^ 32)
    (h : ∀ i, i < n → s.readPix (a + z.bytes * i) z = some (f i)) :
    s.Supplies (toReg a) z ((List.range n).map fun i => { size := z, value := f i }) := by
  intro i r hr
  rw [List.getElem?_map, Option.map_eq_some_iff] at hr
  obtain ⟨j, hj, rfl⟩ := hr
  obtain ⟨hi, rfl⟩ := List.getElem?_eq_some_iff.mp hj
  rw [List.length_range] at hi
  rw [List.getElem_range]
  have hlt : z.bytes * i < z.bytes * n := Nat.mul_lt_mul_of_pos_left hi z.bytes_pos
  rw [toReg_add_toNat (by omega)]
  exact ⟨rfl, h i hi⟩

/-- The pixel channel reads a band's pattern from the pattern window (R38, R73). -/
theorem State.readPix_patternWord {s : State} (hc : s.cfg.Admissible) (m : OutputMode) (k : PatternKind) {j : Nat}
    (hj : j < patWords) :
    s.readPix (patAddr s.cfg m k + ElemSize.word.bytes * j) .word = some (patternWord s.cfg m k j) := by
  have hm : m.number < 2 := by cases m <;> decide
  have hk : k.number < 2 := by cases k <;> decide
  have hbase := hc.vtgAligned
  have hj3 : j < 3 := hj
  have haddr : patAddr s.cfg m k + ElemSize.word.bytes * j =
      patBase s.cfg + (0x20 * m.number + 0x10 * k.number + 4 * j) := by
    simp only [patAddr, ElemSize.bytes]
    omega
  rw [haddr, State.readPix_pattern (by unfold patBase; omega) (inPatternWindow_iff.mpr (by omega)),
    Nat.add_sub_cancel_left, patternAt_word s.cfg m k (by omega)]

/-- The pixel channel reads an active line's row from the framebuffer (R74, R178). -/
theorem State.Bound.readPix_row {s : State} {g : Geometry} (hc : s.cfg.Admissible) (hb : s.Bound g) (hs : s.sesState ≠ .none)
    {l i : Nat} (hl : l < (timingOf s.cfg g.mode).vTotal) (hband : bandOf (timingOf s.cfg g.mode) l = .active)
    (hi : i < lineLength s.cfg g s.ses.width.toNat l) :
    s.readPix (rowAddr g s.ses.fbBase.toNat (sourceRow (timingOf s.cfg g.mode) g l) + g.esize.bytes * i) g.esize =
      some (s.ram.readLE (rowAddr g s.ses.fbBase.toNat (sourceRow (timingOf s.cfg g.mode) g l) + g.esize.bytes * i)
        g.esize.bytes) := by
  obtain ⟨-, -, hrows⟩ := activeLinesReadTheirRows s.cfg _ _ _ s.ses.fbBase.toNat g hb.geom
  obtain ⟨-, hrow, hend, hal⟩ := hrows l hl hband
  have hal := hal hb.fbAligned
  have hram := inRam_iff.mp hb.fbInRam
  have hlow : s.ses.fbBase.toNat ≤ rowAddr g s.ses.fbBase.toNat (sourceRow (timingOf s.cfg g.mode) g l) := Nat.le_add_right _ _
  have hnext : g.esize.bytes * i + g.esize.bytes ≤ g.esize.bytes * lineLength s.cfg g s.ses.width.toNat l :=
    Nat.mul_le_mul_left _ hi
  refine (State.readPix_eq_some_iff hc).mpr ⟨?_, .inr ⟨State.inFramebuffer_iff.mpr ⟨hs, ?_, ?_⟩, rfl⟩⟩
  · rw [Nat.add_mul_mod_self_left]
    cases g.esize <;> simp only [ElemSize.bytes] <;> omega
  · rw [hb.fbWords, (hb.of.words_toReg hc).1]
    omega
  · omega

/-- The records of a line are as many as its descriptor asks for, and the pixel channel reads them from its source address on (R235). -/
theorem State.Bound.line_supplied {s : State} {g : Geometry} (hc : s.cfg.Admissible) (hb : s.Bound g) (hs : s.sesState ≠ .none)
    {l : Nat} (hl : l < (timingOf s.cfg g.mode).vTotal) :
    (lineRecords s g l).length = lineLength s.cfg g s.ses.width.toNat l ∧
      s.Supplies (toReg (lineAddr s.cfg g s.ses.fbBase.toNat l)) (lineSize s.cfg g l) (lineRecords s g l) := by
  have hfits := hb.lineAddr_lt hc hl
  cases hband : bandOf (timingOf s.cfg g.mode) l with
  | active =>
    have hread := fun i => hb.readPix_row hc hs (i := i) hl hband
    simp only [lineRecords, lineAddr, lineSize, hband] at hfits ⊢
    exact ⟨by simp [rowRecords], State.supplies_range hfits hread⟩
  | sync | frontPorch | backPorch =>
    simp only [lineRecords, lineAddr, lineSize, lineLength, hband] at hfits ⊢
    exact ⟨by simp [patternRecords], State.supplies_range hfits fun j hj => State.readPix_patternWord hc g.mode _ hj⟩

/-! ### A line -/

/-- The command channel is triggered at descriptor `k` of a running session, with nothing else under way (R235). -/
structure State.AtLine (s : State) (g : Geometry) (k : Nat) : Prop where
  config : s.cfg.Admissible
  noFault : s.NoFault
  bound : s.Bound g
  playing : s.Playing g k
  triggered : s.cmd.trig = true
  idle : s.pix.busy = false
  armed : s.irq.fbh = .armed

/-- The events to come are no part of it. -/
theorem State.AtLine.withEvents {s : State} {g : Geometry} {k : Nat} (h : s.AtLine g k) (es : List Event) :
    (s.withEvents es).AtLine g k :=
  ⟨h.config, h.noFault, { h.bound with }, { h.playing with }, h.triggered, h.idle, h.armed⟩

/-- Its CMD step (R223). -/
theorem State.AtLine.cmdStep {s : State} {g : Geometry} {k : Nat} (h : s.AtLine g k) :
    Machine.cmdStep s = .next (if k < (timingOf s.cfg g.mode).vTotal then s.loadLine g k else s.loadTerminal g) :=
  h.playing.cmdStep h.config h.bound h.triggered h.idle

/-- `t` is `s` after steps of the two channels that pushed the records `rs` and left the events `rest`. -/
def State.Advanced (s t : State) (rs : List EncRecord) (rest : List Event) : Prop :=
  ∃ (c : CmdChannel) (p : PixChannel), t = { s with cmd := c, pix := p, encq := s.encq ++ rs, events := rest }

theorem State.Advanced.trans {s t u : State} {rs qs : List EncRecord} {es rest : List Event} (h : s.Advanced t rs es)
    (h' : t.Advanced u qs rest) : s.Advanced u (rs ++ qs) rest := by
  obtain ⟨c, p, rfl⟩ := h
  obtain ⟨c', p', rfl⟩ := h'
  exact ⟨c', p', by simp⟩

/-- The end of a transfer keeps the session's invariant. -/
theorem State.Playing.transferred {s : State} {g : Geometry} {k : Nat} (hb : s.Bound g) (hp : s.Playing g k)
    (hbusy : s.pix.busy = true) (z : ElemSize) (rs : List EncRecord) (rest : List Event) :
    (s.transferred z rs rest).Bound g ∧ (s.transferred z rs rest).Playing g k := by
  have hnot : s.irq.pending ≠ true := fun h => by
    have := (hp.pending h).2.2
    rw [hbusy] at this
    cases this
  obtain ⟨y, hy, hy2, -⟩ := hp.transfer
  refine ⟨{ hb with }, ?_⟩
  exact
    { hp with
      moving := .inl rfl
      trig := fun _ => hp.busy hbusy
      busy := fun h => nomatch h
      pending := fun h => absurd h hnot
      transfer := ⟨y, hy, hy2, fun h => nomatch h⟩ }

/-- A line's transfer is in flight with the line's element size (R108, R177, R178). -/
theorem State.Playing.loadLine_ctrl {s : State} {g : Geometry} {k : Nat} (hp : s.Playing g k)
    (hw : g.descw = 2 → lineSize s.cfg g k = .word) : (s.loadLine g k).pix.ctrl = ctrlStd (lineSize s.cfg g k) := by
  obtain ⟨z, hz, hz2, -⟩ := hp.transfer
  show (if g.descw = 2 then s.pix.ctrl else ctrlStd (lineSize s.cfg g k)) = _
  by_cases hd : g.descw = 2
  · rw [if_pos hd, hw hd, ← hz2 hd]
    exact ctrlSize_eq_some.mp hz
  · rw [if_neg hd]

/-- The PIX steps of a line push its records (R235). -/
theorem State.AtLine.transfer {s : State} {g : Geometry} {k : Nat} {rest : List Event} (h : s.AtLine g k)
    (hk : k < (timingOf s.cfg g.mode).vTotal)
    (hev : s.events = List.replicate (lineLength s.cfg g s.ses.width.toNat k) .pix ++ rest) :
    stepN (lineLength s.cfg g s.ses.width.toNat k) (s.loadLine g k) =
      .next ((s.loadLine g k).transferred (lineSize s.cfg g k) (lineRecords s g k) rest) := by
  obtain ⟨hlen1, hlen720, -, hword, -⟩ := h.bound.of.line_ok h.config h.bound.fbAligned hk
  obtain ⟨hcount, hsup⟩ := h.bound.line_supplied h.config (by simp [h.playing.state]) hk
  rw [← hcount] at hev hlen1 hlen720 ⊢
  exact stepN_transfer (s := s.loadLine g k) h.noFault rfl (h.playing.loadLine_ctrl hword) (List.length_pos_iff.mp hlen1)
    (by rw [hcount]; rfl) (by omega) hsup hev

/-- The steps of a line: the CMD step that loads its transfer, then the PIX steps of the transfer (R235). -/
theorem State.AtLine.line {s : State} {g : Geometry} {k : Nat} {rest : List Event} (h : s.AtLine g k)
    (hk : k < (timingOf s.cfg g.mode).vTotal) (hev : s.events = lineEvents s.cfg g s.ses.width.toNat k ++ rest) :
    ∃ t, stepN (lineEvents s.cfg g s.ses.width.toNat k).length s = .next t ∧ t.AtLine g (k + 1) ∧
      s.Advanced t (lineRecords s g k) rest := by
  have h' := h.withEvents (List.replicate (lineLength s.cfg g s.ses.width.toNat k) .pix ++ rest)
  have hload := (step_event h.noFault hev).trans (h'.cmdStep.trans (congrArg Host.Outcome.next (if_pos hk)))
  obtain ⟨hb, hp⟩ := h'.playing.loadLine h'.config h'.bound h'.triggered hk
  obtain ⟨hbDone, hpDone⟩ := hp.transferred hb rfl (lineSize s.cfg g k) (lineRecords s g k) rest
  have hrun := (stepN_succ hload _).trans (h'.transfer hk rfl)
  rw [lineEvents, List.length_cons, List.length_replicate]
  exact ⟨_, hrun, ⟨h.config, h.noFault, hbDone, hpDone, rfl, rfl, h.armed⟩, ⟨_, _, rfl⟩⟩

/-! ### A frame -/

/-- The records of a line depend on the configuration, RAM and the session alone. -/
theorem State.Advanced.lineRecords {s t : State} {rs : List EncRecord} {rest : List Event} (h : s.Advanced t rs rest)
    (g : Geometry) (l : Nat) : Machine.lineRecords t g l = Machine.lineRecords s g l := by
  obtain ⟨c, p, rfl⟩ := h
  rfl

theorem State.Advanced.events {s t : State} {rs : List EncRecord} {rest : List Event} (h : s.Advanced t rs rest) :
    t.events = rest := by
  obtain ⟨c, p, rfl⟩ := h
  rfl

/-- The steps of the first `k` lines of a frame, by induction on `k`. -/
theorem State.AtLine.lines {s : State} {g : Geometry} (h : s.AtLine g 0) {k : Nat} (hk : k ≤ (timingOf s.cfg g.mode).vTotal)
    {rest : List Event}
    (hev : s.events = (List.range k).flatMap (lineEvents s.cfg g s.ses.width.toNat) ++ rest) :
    ∃ t, stepN ((List.range k).flatMap (lineEvents s.cfg g s.ses.width.toNat)).length s = .next t ∧ t.AtLine g k ∧
      s.Advanced t ((List.range k).flatMap (lineRecords s g)) rest := by
  induction k generalizing rest with
  | zero => exact ⟨s, rfl, h, s.cmd, s.pix, by rw [← show s.events = rest from hev]; simp⟩
  | succ k ih =>
    simp only [List.range_succ, List.flatMap_append, List.flatMap_singleton, List.append_assoc, List.length_append] at hev ⊢
    obtain ⟨t, hsteps, ht, hadv⟩ := ih (by omega) hev
    have hcfg : t.cfg = s.cfg := by obtain ⟨c, p, rfl⟩ := hadv; rfl
    have hses : t.ses = s.ses := by obtain ⟨c, p, rfl⟩ := hadv; rfl
    obtain ⟨u, hline, hu, hadv'⟩ := ht.line (rest := rest) (by rw [hcfg]; omega) (by rw [hcfg, hses]; exact hadv.events)
    rw [hcfg, hses] at hline
    rw [hadv.lineRecords] at hadv'
    exact ⟨u, (stepN_add hsteps _).trans hline, hu, hadv.trans hadv'⟩

/-- Past the last descriptor the pointer is at the end of the program (R236). -/
theorem State.Playing.atEnd {s : State} {g : Geometry} (hb : s.Bound g)
    (hp : s.Playing g ((timingOf s.cfg g.mode).vTotal + 1)) : s.cmd.rptr = s.ses.progBase + 4#32 * s.ses.progWords := by
  have hwords : 4 * g.descw * ((timingOf s.cfg g.mode).vTotal + 1) = 4 * g.progWords := by
    rw [hb.of.progWords, Nat.mul_assoc, Nat.mul_comm g.descw]
  rw [hp.pc, hwords, hb.progWords, toReg, BitVec.ofNat_add, BitVec.ofNat_toNat, BitVec.setWidth_eq, BitVec.ofNat_mul]

/-- The CMD step that loads the terminal leads to the frame boundary (R235, R236). -/
theorem State.AtLine.terminal {s : State} {g : Geometry} {rest : List Event}
    (h : s.AtLine g (timingOf s.cfg g.mode).vTotal) (hev : s.events = .cmd :: rest) :
    step s = .next ((s.withEvents rest).loadTerminal g) ∧ ((s.withEvents rest).loadTerminal g).FrameBoundary := by
  have h' := h.withEvents rest
  obtain ⟨hb, hp⟩ := h'.playing.loadTerminal h'.bound rfl
  refine ⟨(step_event h.noFault hev).trans (h'.cmdStep.trans ?_), hp.state, hp.atEnd hb, rfl, rfl, rfl, h.armed⟩
  exact congrArg Host.Outcome.next (if_neg (Nat.lt_irrefl _))

/-! ### The points of the frame -/

/-- In a running session that meets the invariant a frame is being played. -/
theorem State.Inv.running {s : State} (hi : s.Inv) (hs : s.sesState = .running) : ∃ g k, s.Bound g ∧ s.Playing g k := by
  obtain ⟨g, hb, hbu | ⟨k, hp⟩⟩ := hi.bound (by simp [hs])
  · rw [hbu.state] at hs
    cases hs
  · exact ⟨g, k, hb, hp⟩

/-- A session is bound to one geometry. -/
theorem State.Bound.unique {s : State} {g g' : Geometry} (hb : s.Bound g) (hb' : s.Bound g') : g' = g :=
  Option.some.inj (hb'.geom.symm.trans hb.geom)

/-- At a frame start no descriptor of the frame has been fetched (R236): the pointer would be past the program's base. -/
theorem State.FrameStart.atLine {s : State} {g : Geometry} (hs : s.FrameStart) (hgood : s.Good) (hb : s.Bound g) :
    s.AtLine g 0 := by
  obtain ⟨g', k, hb', hp⟩ := hgood.inv.running hs.running
  obtain rfl := hb.unique hb'
  have hpc := congrArg BitVec.toNat (hp.pc.symm.trans hs.atBase)
  rw [hb.pc hgood.inv.config (hp.trig hs.triggered)] at hpc
  have hdescw := hb.of.descwPos
  obtain rfl : k = 0 := by
    rcases Nat.eq_zero_or_pos k with h0 | hpos
    · exact h0
    · have := Nat.mul_pos (show 0 < 4 * g'.descw by omega) hpos
      omega
  exact ⟨hgood.inv.config, hgood.noFault, hb, hp, hs.triggered, hs.idle, hs.armed⟩

/-- Settles O58: the frame's lines one after another, then its terminal. -/
theorem frameDeliversThePicture : Obligations.FrameDeliversThePicture := by
  intro s g rest hgood hb hstart hev
  rw [frameEvents, List.append_assoc] at hev
  obtain ⟨t, hlines, ht, hadv⟩ := (hstart.atLine hgood hb).lines (Nat.le_refl _) hev
  obtain ⟨c, p, rfl⟩ := hadv
  obtain ⟨hterm, hend⟩ := ht.terminal rfl
  have hrun := (stepN_add hlines 1).trans (stepN_succ hterm 0)
  refine ⟨_, ?_, hend, rfl, rfl, rfl, rfl, rfl, hgood.inv.stepN hrun, hgood.noFault, fun h => nomatch h⟩
  rw [frameEvents, List.length_append]
  exact hrun

/-- Settles O59: the entry is enabled at the frame boundary, and the body does the reload action. -/
theorem handlerClosesTheRing : Obligations.HandlerClosesTheRing := by
  intro s rest hgood hbound hev
  obtain ⟨g, k, hb, hp⟩ := hgood.inv.running hbound.running
  have hready : (s.withEvents (.fbh :: rest)).fbhEntryReady = true := by
    simp [State.fbhEntryReady, State.withEvents, hbound.pending, hbound.armed, hp.enabled]
  have hentry : step s = .next (s.withEvents (.fbh :: rest)).fbhEnter :=
    (step_event hgood.noFault hev).trans (fbhStep_entry hready)
  have hbody : step (s.withEvents (.fbh :: rest)).fbhEnter =
      .next ((s.withEvents (.fbh :: rest)).fbhEnter.withEvents rest).fbhReturn :=
    (step_event (s := (s.withEvents (.fbh :: rest)).fbhEnter) hgood.noFault rfl).trans (fbhStep_body rfl)
  have hrun := (stepN_succ hentry 1).trans (stepN_succ hbody 0)
  have hinv := hgood.inv.stepN hrun
  rw [State.fbhReturn_active (s := (s.withEvents (.fbh :: rest)).fbhEnter.withEvents rest) hp.activeRef] at hrun hinv
  exact ⟨_, hrun, ⟨hbound.running, rfl, rfl, hbound.idle, rfl, rfl⟩, ⟨hinv, hgood.noFault, fun _ => hbound.idle⟩, rfl, rfl,
    rfl, rfl⟩

/-- Settles O55: a trigger, a transfer in flight and a pending interrupt exclude each other, and one of them is there. -/
theorem exactlyOneAgentPlays : Obligations.ExactlyOneAgentPlays := by
  intro s hgood hs
  obtain ⟨g, k, hb, hp⟩ := hgood.inv.running hs
  have hready : s.cmdReady = s.cmd.trig := by simp [State.cmdReady, hb.enabled]
  have hquiet : s.irq.pending = false → s.fbhEntryReady = false ∧ s.irq.fbh = .armed := by
    intro hno
    refine ⟨by simp [State.fbhEntryReady, hno], ?_⟩
    cases hf : s.irq.fbh with
    | armed => rfl
    | reloading =>
      rw [hp.reloading hf] at hno
      cases hno
  rw [hready]
  cases hpend : s.irq.pending with
  | true =>
    obtain ⟨-, htrig, hidle⟩ := hp.pending hpend
    refine .inr (.inr ⟨htrig, hidle, ?_⟩)
    cases hf : s.irq.fbh with
    | armed => exact .inl (by simp [State.fbhEntryReady, hpend, hp.enabled, hf])
    | reloading => exact .inr rfl
  | false =>
    cases htrig : s.cmd.trig with
    | true => exact .inl ⟨rfl, hgood.noCollision htrig, hquiet hpend⟩
    | false =>
      have hbusy : s.pix.busy = true := by simpa [htrig, hpend] using hp.moving
      exact .inr (.inl ⟨rfl, hbusy, hquiet hpend⟩)

end Sys2Proof.Machine
end

section
/-! SUPPORT. No agent raises a fault from a good state on an event that R258 allows (`60_exceptions.md` R257, R258): the commands, the host's
accesses, the two channels, the handler and the producer, then runs. -/

namespace Sys2Proof.Machine

/-! ### Next states for every instruction -/

/-- A CONSTRUCT ends with `OK` exactly when it created a session, whatever the environment answers (R180). -/
theorem execConstruct_ok_iff {s t : State} (h : execConstruct s = .next t) :
    (t.err = .ok ↔ s.sesState = .none ∧ t.sesState = .built) ∧ (t.err ≠ .ok → t.sesState = s.sesState) := by
  obtain hfail | ⟨g, fb, prog, a, b, hok⟩ := execConstruct_next h
  · have hses : t.sesState = s.sesState := by rw [hfail.frame]
    refine ⟨⟨fun herr => absurd herr hfail.1, fun ⟨hnone, hbuilt⟩ => ?_⟩, fun _ => hses⟩
    rw [hses, hnone] at hbuilt
    cases hbuilt
  · exact ⟨⟨fun _ => ⟨hok.idle, hok.sesState⟩, fun _ => hok.err⟩, fun herr => absurd hok.err herr⟩

/-- Settles O28: the ten instructions one by one, and CONSTRUCT by its failures and its success. -/
theorem everyInstructionAnswersANextState : Obligations.EveryInstructionAnswersANextState :=
  ⟨exec_next, fun _ _ h => execConstruct_ok_iff h⟩

/-! ### Good outcomes -/

/-- The outcome is a next state, and a good one. -/
def GoesOn (r : Result) : Prop :=
  ∃ t, r = .next t ∧ t.Good

/-- The invariant needs no care (O52): what is left of a good state is `FAULT` and the two channels. -/
theorem State.Good.goesOn {s t : State} {e : Event} (hg : s.Good) (h : agentStep e s = .next t)
    (hfaults : t.faults = s.faults) (hapart : t.cmd.trig = true → t.pix.busy = false) : GoesOn (agentStep e s) :=
  ⟨t, h, hg.inv.agentStep h, hfaults.trans hg.noFault, hapart⟩

/-- A trigger, a transfer in flight or a reloading handler is found in a playing session only. -/
theorem State.Inv.playing_of_active {s : State} (hi : s.Inv)
    (h : s.cmd.trig = true ∨ s.pix.busy = true ∨ s.irq.fbh = .reloading) : ∃ g k, s.Bound g ∧ s.Playing g k := by
  refine hi.quiet_or_playing.resolve_left fun ⟨hirq, htrig, hidle⟩ => ?_
  rw [hirq, htrig, hidle] at h
  rcases h with h | h | h <;> cases h

/-- Delivering an element triggers the command channel only as it ends the transfer (R228). -/
theorem State.deliver_apart (s : State) (z : ElemSize) (v : Nat) (hno : s.cmd.trig = false) :
    (s.deliver z v).cmd.trig = true → (s.deliver z v).pix.busy = false := by
  by_cases hlast : s.pix.len = 1#32
  · rw [s.deliver_last z v hlast]
    exact fun _ => rfl
  · rw [s.deliver_more z v hlast]
    intro htrig
    rw [hno] at htrig
    cases htrig

/-! ### The commands -/

/-- A command raises no fault, if START finds a session (R201). -/
theorem exec_command_faults {i : Instr} {s t : State} (hf : i.format = .H) (hstart : i = .start → s.sesState ≠ .none)
    (h : exec i s = .next t) : t.faults = s.faults := by
  cases i with
  | construct =>
    obtain hfail | ⟨g, fb, prog, a, b, hok⟩ := execConstruct_next h
    · rw [hfail.frame]
    · rw [hok.result]
      rfl
  | start =>
    change execStart s = _ at h
    cases hs : s.sesState with
    | none => exact absurd hs (hstart rfl)
    | built =>
      rw [execStart_built hs] at h
      cases h
      rfl
    | running =>
      rw [execStart_running hs] at h
      cases h
      rfl
  | stop =>
    change execStop s = _ at h
    by_cases hs : s.sesState = .none
    · rw [execStop_of_none hs] at h
      cases h
      rfl
    · rw [execStop_of_session hs] at h
      cases h
      rfl
  | reload =>
    cases h
    exact s.reloadAction_faults
  | timing =>
    change execTiming s = _ at h
    unfold execTiming at h
    split at h <;> cases h <;> rfl
  | enccalc =>
    change execEnccalc s = _ at h
    unfold execEnccalc at h
    split at h <;> cases h <;> rfl
  | xferS | termS | xferL | termL => cases hf

/-- A command triggers the command channel with the pixel channel idle: START because the session has moved nothing yet, RELOAD
because the host waits for the transfer (R290). -/
theorem State.Runs.command_apart {i : Instr} {s t : State} (h : s.Runs i t) (hg : s.Good) (hf : i.format = .H)
    (hreload : i = .reload → s.pix.busy = false) : t.cmd.trig = true → t.pix.busy = false := by
  cases h with
  | coded | raised | timed | calculated => exact hg.noCollision
  | failed h =>
    rw [h.frame]
    exact hg.noCollision
  | constructed h =>
    rw [h.result]
    exact hg.noCollision
  | started h =>
    obtain ⟨g, -, hbu⟩ := hg.inv.built h
    intro _
    show s.pix.busy = false
    rw [hbu.pix]
  | stopped h => exact fun _ => rfl
  | reloaded =>
    intro _
    rw [s.reloadAction_pix]
    exact hreload rfl
  | loaded hf' p pending => exact absurd hf hf'

/-- The six command words, with what R201 and R290 ask of two of them. -/
theorem decodeH_of_polite {s : State} {v : Word}
    (h : v = 1#32 ∨ (v = 2#32 ∧ s.hasSession = true) ∨ v = 3#32 ∨ (v = 4#32 ∧ s.pix.busy = false) ∨ v = 5#32 ∨ v = 6#32) :
    ∃ i, decodeH v = .ok i ∧ (i = .start → s.sesState ≠ .none) ∧ (i = .reload → s.pix.busy = false) := by
  rcases h with rfl | ⟨rfl, hs⟩ | rfl | ⟨rfl, hidle⟩ | rfl | rfl
  · exact ⟨.construct, rfl, nofun, nofun⟩
  · exact ⟨.start, rfl, fun _ => State.hasSession_iff.mp hs, nofun⟩
  · exact ⟨.stop, rfl, nofun, nofun⟩
  · exact ⟨.reload, rfl, nofun, fun _ => hidle⟩
  · exact ⟨.timing, rfl, nofun, nofun⟩
  · exact ⟨.enccalc, rfl, nofun, nofun⟩

theorem hostCommand_decoded {v : Word} {i : Instr} (h : decodeH v = .ok i) (s : State) : hostCommand v s = exec i s := by
  unfold hostCommand
  rw [h]

/-! ### The host -/

/-- The read-write registers are the operand latches (R22, R26). -/
theorem writeArg_of_rw (s : State) {off : Nat} {r : Reg} (v : Word) (hr : regAt off = some r) (ha : r.access = .rw) :
    ∃ args, writeArg s off v = some { s with args := args } := by
  unfold writeArg
  rw [hr]
  cases r
  case argWidth | argHeight | argDepth | argMode | argHscale => exact ⟨_, rfl⟩
  all_goals cases ha

section

variable {s : State} (hg : s.Good)
include hg

/-- A polite read: a register, or an aligned read of the session's RAM (R40, R74). -/
theorem State.Good.hostRead (armed : s.irq.fbh = .armed) {z : ElemSize} {a : Word} (h : s.PoliteAccess (.read z a)) :
    GoesOn (agentStep (.host (.read z a)) s) := by
  rcases h with ⟨rfl, hal, hin, hread⟩ | ⟨hal, hin⟩
  · obtain ⟨w, hw⟩ := Option.isSome_iff_exists.mp hread
    obtain ⟨hlow, hhigh⟩ := inRegisterSpace_iff.mp hin
    exact hg.goesOn (hostStep_read_word armed (by omega) (by omega) hal hw) rfl hg.noCollision
  · have hstep : hostStep (.read z a) s = .next { s with readData := toReg (s.ram.readLE a.toNat z.bytes) } := by
      rw [hostStep_read_ram armed hg.inv.config (inRam_of_session hin)]
      unfold hostReadRam
      rw [if_neg (by omega), if_pos (by simpa using hin)]
    exact hg.goesOn hstep rfl hg.noCollision

/-- A polite write: an operand latch, or a command word (R26, R23). -/
theorem State.Good.hostWrite (armed : s.irq.fbh = .armed) {z : ElemSize} {a v : Word}
    (h : s.PoliteAccess (.write z a v)) : GoesOn (agentStep (.host (.write z a v)) s) := by
  obtain ⟨rfl, hal, hin, ⟨r, hr, hrw⟩ | ⟨hbase, hv⟩⟩ := h
  · obtain ⟨hlow, hhigh⟩ := inRegisterSpace_iff.mp hin
    obtain ⟨args, hw⟩ := writeArg_of_rw s v hr hrw
    have hne : a.toNat - s.cfg.vtgBase ≠ 0 := by
      intro h0
      rw [h0] at hr
      cases hr
      cases hrw
    exact hg.goesOn (hostStep_write_latch armed (by omega) (by omega) hal hne hw) rfl hg.noCollision
  · obtain ⟨i, hi, hstart, hreload⟩ := decodeH_of_polite hv
    obtain ⟨t, ht⟩ := exec_next i s
    have hf := decodeH_format hi
    have hstep : hostStep (.write .word a v) s = .next t := by
      rw [hostStep_write_command armed hg.inv.config.vtgAligned hbase, hostCommand_decoded hi, ht]
    exact hg.goesOn hstep (exec_command_faults hf hstart ht) ((exec_runs ht).command_apart hg hf hreload)

theorem State.Good.hostStep {access : HostAccess} (h : s.PoliteAccess access) : GoesOn (agentStep (.host access) s) := by
  cases hf : s.irq.fbh with
  | reloading => exact hg.goesOn (if_pos hf) rfl hg.noCollision
  | armed =>
    cases access with
    | read z a => exact hg.hostRead hf h
    | write z a v => exact hg.hostWrite hf h

/-! ### The channels, the handler and the producer -/

/-- A triggered channel finds the pixel channel idle and its descriptor in the program, and is triggered no more (R223). -/
theorem State.Good.cmdStep : GoesOn (agentStep .cmd s) := by
  cases htrig : s.cmd.trig with
  | false =>
    have hstep : Machine.cmdStep s = .next s := if_neg (by simp [State.cmdReady, htrig])
    exact hg.goesOn hstep rfl hg.noCollision
  | true =>
    obtain ⟨g, k, hb, hp⟩ := hg.inv.playing_of_active (.inl htrig)
    have hstep := hp.cmdStep hg.inv.config hb htrig (hg.noCollision htrig)
    split at hstep
    · exact hg.goesOn hstep rfl nofun
    · exact hg.goesOn hstep rfl nofun

/-- A transfer in flight reads where it may (R74, R178). -/
theorem State.Good.pixStep : GoesOn (agentStep .pix s) := by
  cases hbusy : s.pix.busy with
  | false =>
    have hstep : Machine.pixStep s = .next s := if_neg (by simp [hbusy])
    exact hg.goesOn hstep rfl hg.noCollision
  | true =>
    have hno : s.cmd.trig = false := by
      cases htrig : s.cmd.trig with
      | false => rfl
      | true =>
        rw [hg.noCollision htrig] at hbusy
        cases hbusy
    obtain ⟨g, k, hb, hp⟩ := hg.inv.playing_of_active (.inr (.inl hbusy))
    obtain ⟨z, v, -, -, -, -, hstep⟩ := hp.pixStep hg.inv.config hb hbusy
    exact hg.goesOn hstep (by simp) (s.deliver_apart z v hno)

/-- The handler reloads at the frame boundary alone, where no transfer is in flight (R233, R236). -/
theorem State.Good.fbhStep : GoesOn (agentStep .fbh s) := by
  cases hf : s.irq.fbh with
  | reloading =>
    obtain ⟨g, k, -, hp⟩ := hg.inv.playing_of_active (.inr (.inr hf))
    obtain ⟨-, -, hidle⟩ := hp.pending (hp.reloading hf)
    exact hg.goesOn (fbhStep_body hf) s.fbhReturn_faults fun _ => by rw [s.fbhReturn_pix]; exact hidle
  | armed =>
    cases hready : s.fbhEntryReady with
    | true => exact hg.goesOn (fbhStep_entry hready) rfl hg.noCollision
    | false =>
      have hstep : Machine.fbhStep s = .next s := by simp [Machine.fbhStep, hf, hready]
      exact hg.goesOn hstep rfl hg.noCollision

theorem State.Good.producerStep {z : ElemSize} {a : Word} (v : Word) (hal : a.toNat % z.bytes = 0)
    (hin : s.inFramebuffer a.toNat z.bytes = true) : GoesOn (agentStep (.producer z a v) s) :=
  hg.goesOn (if_pos ⟨hal, hin⟩) rfl hg.noCollision

/-! ### Every step -/

theorem State.Good.agentStep {e : Event} (h : s.Polite e) : GoesOn (Machine.agentStep e s) := by
  cases e with
  | host access => exact hg.hostStep h
  | cmd => exact hg.cmdStep
  | pix => exact hg.pixStep
  | fbh => exact hg.fbhStep
  | producer z a v =>
    obtain ⟨hal, hin⟩ := h
    exact hg.producerStep v hal hin

theorem State.Good.takeEvent : s.takeEvent.2.Good := by
  refine ⟨hg.inv.takeEvent, ?_, ?_⟩ <;> rw [s.takeEvent_frame]
  · exact hg.noFault
  · exact hg.noCollision

end

/-- Whether an event is polite does not depend on the events to come. -/
theorem State.Polite.takeEvent {s : State} {e : Event} (h : s.Polite e) : s.takeEvent.2.Polite e := by
  rw [s.takeEvent_frame]
  cases e <;> exact h

/-- Settles O56: the next event is taken and its agent moves, each agent by its own lemma. -/
theorem politeStepsNeverFault : Obligations.PoliteStepsNeverFault := by
  intro s hg hpolite
  rw [step_of_noFault hg.noFault]
  exact hg.takeEvent.agentStep hpolite.takeEvent

/-! ### Runs -/

/-- A run of polite events from a good state. -/
theorem State.Good.stepN {n : Nat} {s : State} (hg : s.Good) (h : s.PoliteFor n) : GoesOn (Machine.stepN n s) := by
  induction n generalizing s with
  | zero => exact ⟨s, rfl, hg⟩
  | succ n ih =>
    obtain ⟨hpolite, hrest⟩ := h
    obtain ⟨t, hstep, hgood⟩ := politeStepsNeverFault s hg hpolite
    rw [stepN_succ hstep]
    exact ih hgood (hrest t hstep)

/-- Settles O57: the state after reset is good, whatever events and answers are to come, and polite steps keep it so. -/
theorem noFaultFromReset : Obligations.NoFaultFromReset := by
  intro c ram es as cs n hc hwf hin hpolite
  have hreset := State.resetWith_good hc hwf hin
  have hgood : State.Good { State.resetWith c ram with events := es, allocs := as, claims := cs } :=
    ⟨hreset.inv.congr rfl, hreset.noFault, hreset.noCollision⟩
  obtain ⟨t, hrun, hend⟩ := hgood.stepN hpolite
  exact ⟨t, hrun, hend.noFault, hend⟩

end Sys2Proof.Machine
end

section
/-! SUPPORT. An agent whose guard is false stays where it is, and after reset every guard is false (`70_reset_and_hazards.md` R281). -/

namespace Sys2Proof.Machine

/-! ### Agents with nothing to do -/

section

variable {s : State}

theorem cmdStep_idle (h : s.cmdReady = false) : cmdStep s = .next s :=
  if_neg (Bool.eq_false_iff.mp h)

theorem pixStep_idle (h : s.pix.busy = false) : pixStep s = .next s :=
  if_neg (Bool.eq_false_iff.mp h)

theorem fbhStep_idle (armed : s.irq.fbh = .armed) (h : s.fbhEntryReady = false) : fbhStep s = .next s := by
  have hbody : ¬ s.irq.fbh = .reloading := by simp [armed]
  exact (if_neg hbody).trans (if_neg (Bool.eq_false_iff.mp h))

end

/-! ### After reset -/

/-- Settles O3: reset clears `TRIG`, `BUSY` and `PENDING`, arms the handler and leaves no session, and so each agent but the host
is idle or refused. -/
theorem nothingRunsByItselfAfterReset : Obligations.NothingRunsByItselfAfterReset := by
  intro c ram z a v
  have hcmd : (State.resetWith c ram).cmdReady = false := Bool.and_false _
  have hpix : (State.resetWith c ram).pix.busy = false := rfl
  have hfbh : (State.resetWith c ram).fbhEntryReady = false := rfl
  have armed : (State.resetWith c ram).irq.fbh = .armed := rfl
  have hnone : (State.resetWith c ram).sesState = .none := rfl
  exact ⟨hcmd, hpix, hfbh, armed, rfl, rfl, cmdStep_idle hcmd, pixStep_idle hpix, fbhStep_idle armed hfbh,
    producerStep_refused v (.inr (State.inFramebuffer_of_noSession hnone _ _))⟩

end Sys2Proof.Machine
end
